-- ==== Sys2Proof/Word.lean ====
section
/-! DEFINITION. The words of the engine: a byte, a 6-bit PCD register address, a 32-bit host request word
(00_scope.md R10, 20_memory.md R76, 30_encoding.md R106). All quantities are unsigned (R10, R13). -/

namespace Sys2Proof

/-- A byte; bit 0 is its least significant bit (R10). -/
abbrev Byte := BitVec 8

/-- A PCD register address, 6 bits (R7 `ADDR_BITS`, R76). -/
abbrev Addr := BitVec 6

/-- A host request word, 32 bits (R106). -/
abbrev HostWord := BitVec 32

end Sys2Proof
end

