-- ==== Sys2Proof/Config.lean ====
section
/-! DEFINITION. What an implementation fixes. `Config` holds the parameters the source names without a number
(00_scope.md R8; decision D2 leaves them open, a model must not hard-wire them); `Config.mfrc522` gives them the
spec's default values; the constants of R7 have the source's own values; the two opaque constants are the free
values, the answers of the PCD and of the time base that nothing constrains (20_memory.md R63, 60_exceptions.md R286). -/

namespace Sys2Proof

/-- The open parameters of R8: register addresses, PCD command opcodes, PICC opcodes, masks, defaults.
The machine reads them from `State.cfg`, so every statement about a state is about every configuration. -/
structure Config where
  /-- `A_COMMAND` -/
  aCommand : Addr
  /-- `A_COMIRQ` -/
  aComIrq : Addr
  /-- `A_DIVIRQ` -/
  aDivIrq : Addr
  /-- `A_ERROR` -/
  aError : Addr
  /-- `A_FIFODATA` -/
  aFifoData : Addr
  /-- `A_FIFOLEVEL` -/
  aFifoLevel : Addr
  /-- `A_CONTROL` -/
  aControl : Addr
  /-- `A_BITFRAMING` -/
  aBitFraming : Addr
  /-- `A_COLL` -/
  aColl : Addr
  /-- `A_TXMODE` -/
  aTxMode : Addr
  /-- `A_RXMODE` -/
  aRxMode : Addr
  /-- `A_CRCRESULT_H` -/
  aCrcResultH : Addr
  /-- `A_CRCRESULT_L` -/
  aCrcResultL : Addr
  /-- `A_MODWIDTH` -/
  aModWidth : Addr
  /-- `CMD_IDLE` (R94) -/
  cmdIdle : BitVec 4
  /-- `CMD_MEM` -/
  cmdMem : BitVec 4
  /-- `CMD_GENRANDOMID` -/
  cmdGenRandomId : BitVec 4
  /-- `CMD_CALCCRC` -/
  cmdCalcCrc : BitVec 4
  /-- `CMD_TRANSMIT` -/
  cmdTransmit : BitVec 4
  /-- `CMD_NOCMDCHANGE` -/
  cmdNoCmdChange : BitVec 4
  /-- `CMD_RECEIVE` -/
  cmdReceive : BitVec 4
  /-- `CMD_TRANSCEIVE` -/
  cmdTransceive : BitVec 4
  /-- `CMD_MFAUTHENT` -/
  cmdMfAuthent : BitVec 4
  /-- `CMD_SOFTRESET` -/
  cmdSoftReset : BitVec 4
  /-- `PICC_REQA`, 7 bits (R96) -/
  piccReqa : BitVec 7
  /-- `PICC_WUPA`, 7 bits (R96) -/
  piccWupa : BitVec 7
  /-- `PICC_SEL_CL1` -/
  piccSelCl1 : Byte
  /-- `PICC_SEL_CL2` -/
  piccSelCl2 : Byte
  /-- `PICC_SEL_CL3` -/
  piccSelCl3 : Byte
  /-- `IRQ_CLEAR_ALL` (R95) -/
  irqClearAll : Byte
  /-- `IRQ_RX` -/
  irqRx : Byte
  /-- `IRQ_IDLE` -/
  irqIdle : Byte
  /-- `IRQ_TIMER` -/
  irqTimer : Byte
  /-- `DIVIRQ_CRC` -/
  divIrqCrc : Byte
  /-- `ERR_FATAL_MASK` -/
  errFatalMask : Byte
  /-- `ERR_COLL` -/
  errColl : Byte
  /-- `FIFO_FLUSH` -/
  fifoFlush : Byte
  /-- `START_SEND` -/
  startSend : Byte
  /-- `RX_LAST_BITS_MASK` -/
  rxLastBitsMask : Byte
  /-- `COLL_CLEAR_MASK` -/
  collClearMask : Byte
  /-- `TXMODE_DEFAULT` -/
  txModeDefault : Byte
  /-- `RXMODE_DEFAULT` -/
  rxModeDefault : Byte
  /-- `MODWIDTH_DEFAULT` -/
  modWidthDefault : Byte
  /-- `DUMMY` -/
  dummy : Byte
deriving DecidableEq, Repr

namespace Config

/-- The default values of R8, R93 to R96 (the NXP MFRC522 and ISO/IEC 14443-3 numbers the spec marks as general
knowledge). PRESUMED, assumption 1. -/
def mfrc522 : Config where
  aCommand := 0x01
  aComIrq := 0x04
  aDivIrq := 0x05
  aError := 0x06
  aFifoData := 0x09
  aFifoLevel := 0x0A
  aControl := 0x0C
  aBitFraming := 0x0D
  aColl := 0x0E
  aTxMode := 0x12
  aRxMode := 0x13
  aCrcResultH := 0x21
  aCrcResultL := 0x22
  aModWidth := 0x24
  cmdIdle := 0x0
  cmdMem := 0x1
  cmdGenRandomId := 0x2
  cmdCalcCrc := 0x3
  cmdTransmit := 0x4
  cmdNoCmdChange := 0x7
  cmdReceive := 0x8
  cmdTransceive := 0xC
  cmdMfAuthent := 0xE
  cmdSoftReset := 0xF
  piccReqa := 0x26
  piccWupa := 0x52
  piccSelCl1 := 0x93
  piccSelCl2 := 0x95
  piccSelCl3 := 0x97
  irqClearAll := 0x7F
  irqRx := 0x20
  irqIdle := 0x10
  irqTimer := 0x01
  divIrqCrc := 0x04
  errFatalMask := 0x13
  errColl := 0x08
  fifoFlush := 0x80
  startSend := 0x80
  rxLastBitsMask := 0x07
  collClearMask := 0x80
  txModeDefault := 0x00
  rxModeDefault := 0x00
  modWidthDefault := 0x26
  dummy := 0x00

/-- FREE VALUE: the `k`-th byte the PCD oracle answers once the answers listed in the state are used up.
No body: nothing constrains it (R63, U8). Assumption 2. -/
opaque pcdByte : Nat → Byte

/-- FREE VALUE: how often `poll_expired()` answers false in the `k`-th poll loop whose answers the state does
not list, before it answers true. No body: only fairness, that it is a number, is assumed (R286, U9). Assumption 3. -/
opaque pollsGranted : Nat → Nat

end Config

/-- `TXN_CAP`: bytes of the write buffer and of the read buffer (R7). -/
abbrev txnCap : Nat := 65

/-- `TXN_CAP - 1`: the most data bytes one register transaction moves (R75). -/
abbrev maxData : Nat := 64

/-- `T_CRC_MS` (R7). -/
abbrev tCrcMs : Nat := 89

/-- `T_COMM_MS` (R7). -/
abbrev tCommMs : Nat := 26

/-- `KVB_MAX` (R7). -/
abbrev kvbMax : Nat := 80

/-- `LEVEL_BITS`: data bits of one cascade level (R7). -/
abbrev levelBits : Nat := 32

/-- `MAX_LEVEL` (R7). -/
abbrev maxLevel : Nat := 3

/-- `CT`, the cascade-tag byte (R7, R97). -/
abbrev cascadeTagByte : Byte := 0x88

/-- `NVB_FULL` (R7, R97). -/
abbrev nvbFullByte : Byte := 0x70

/-- `COLL_POS_NOT_VALID` (R7). -/
abbrev collPosNotValid : Byte := 0x20

/-- `COLL_POS_MASK` (R7). -/
abbrev collPosMask : Byte := 0x1F

/-- `SAK_CASCADE` (R7, conflict C1). -/
abbrev sakCascade : Byte := 0x04

/-- `ATQA_LEN` (R7). -/
abbrev atqaLen : Nat := 2

/-- `SHORT_FRAME_BITS` (R7). -/
abbrev shortFrameBits : Nat := 7

/-- `SELECT_RESP_LEN` (R7). -/
abbrev selectRespLen : Nat := 3

end Sys2Proof
end

