-- ==== Sys2Proof/Syntax.lean ====
section
/-! DEFINITION. The syntax: one constructor per row of spec/opcode_table.json, with the operands the row's format
gives it (30_encoding.md R106 for the 21 host operations; R91, R94, R96, R97, R99 for the codes of layers 2 to 4),
and `Code`, an encoding together with the layer (R90) it belongs to. The same byte means different things on
different layers, so a code is never a bare number. -/

namespace Sys2Proof

/-- One row of the opcode table each. The first 21 are the host operations of R106, accepted at the host port. The
other 20 are the codes the sequencer itself puts on the transport (layer 2), into the PCD's command register
(layer 3) or into a card frame (layer 4); as instructions they stand for the one action that puts the code there
(assumption 8). -/
inductive Instr where
  /-- `BEGIN` (format Z, R131) -/
  | beginTxn
  /-- `WRITE_BYTE` (format B, R132) -/
  | writeByte (b : Byte)
  /-- `WRITE_BYTES` (format Z, data in `TXB`, R133) -/
  | writeBytes
  /-- `END` (format Z, R134) -/
  | endTxn
  /-- `READ_BYTE` (format Z, R135) -/
  | readByte
  /-- `READ_BYTES` (format N, R136) -/
  | readBytes (n : BitVec 7)
  /-- `REG_READ` (format A, R137) -/
  | regRead (a : Addr)
  /-- `REG_READ_N` (format AN, R138) -/
  | regReadN (a : Addr) (n : BitVec 7)
  /-- `REG_WRITE` (format AV, R140) -/
  | regWrite (a : Addr) (v : Byte)
  /-- `REG_WRITE_N` (format A, data in `TXB`, R139) -/
  | regWriteN (a : Addr)
  /-- `REG_SET_BITS` (format AV, `v` the mask, R141) -/
  | regSetBits (a : Addr) (v : Byte)
  /-- `REG_CLEAR_BITS` (format AV, `v` the mask, R142) -/
  | regClearBits (a : Addr) (v : Byte)
  /-- `COMPUTE_CRC` (format Z, data in `TXB`, R164) -/
  | computeCrc
  /-- `COMMUNICATE` (format C, data in `TXB`, R165) -/
  | communicate (cmd : BitVec 4) (waitMask : Byte) (validBits rxAlign : BitVec 3) (checkCrc recvPresent : Bool)
      (recvCap : BitVec 7)
  /-- `TRANSCEIVE` (format C with `cmd` and `wait_mask` ignored, R178) -/
  | transceive (validBits rxAlign : BitVec 3) (checkCrc recvPresent : Bool) (recvCap : BitVec 7)
  /-- `REQUEST_OR_WAKEUP` (format S: false is 0, REQA; true is 1, WUPA; R200) -/
  | requestOrWakeup (sel : Bool)
  /-- `SELECT` (format K, R204) -/
  | select (kvb : Byte)
  /-- `IS_NEW_CARD_PRESENT` (format Z, R226) -/
  | isNewCardPresent
  /-- `READ_CARD_UID` (format Z, R227) -/
  | readCardUid
  /-- `RESET` (format Z, R310) -/
  | reset
  /-- `TEARDOWN` (format Z, R315) -/
  | teardown
  /-- `ADDR_READ`: the read address byte of layer 2 (R91) -/
  | addrRead (a : Addr)
  /-- `ADDR_WRITE`: the write address byte of layer 2 (R91) -/
  | addrWrite (a : Addr)
  /-- `CMD_IDLE`, a PCD command opcode of layer 3 (R94), as the nine after it -/
  | cmdIdle
  /-- `CMD_MEM` -/
  | cmdMem
  /-- `CMD_GENRANDOMID` -/
  | cmdGenRandomId
  /-- `CMD_CALCCRC` -/
  | cmdCalcCrc
  /-- `CMD_TRANSMIT` -/
  | cmdTransmit
  /-- `CMD_NOCMDCHANGE` -/
  | cmdNoCmdChange
  /-- `CMD_RECEIVE` -/
  | cmdReceive
  /-- `CMD_TRANSCEIVE` -/
  | cmdTransceive
  /-- `CMD_MFAUTHENT` -/
  | cmdMfAuthent
  /-- `CMD_SOFTRESET` -/
  | cmdSoftReset
  /-- `REQA`, the 7-bit short frame (R96, R101) -/
  | reqa
  /-- `WUPA`, the 7-bit short frame (R96, R101) -/
  | wupa
  /-- `SEL_CL1`, byte 0 of a SELECT frame (R100), as the two after it -/
  | selCl1
  /-- `SEL_CL2` -/
  | selCl2
  /-- `SEL_CL3` -/
  | selCl3
  /-- `CT`, the cascade tag, data byte 0 of a SELECT frame (R97, R100) -/
  | cascadeTag
  /-- `NVB_FULL`, byte 1 of a full-select frame (R97, R99) -/
  | nvbFull
  /-- `NVB_ANTICOLL`, byte 1 of an anti-collision frame (R99) -/
  | nvbAnticoll (byteCount : BitVec 4) (bitCount : BitVec 3)
deriving DecidableEq, Repr

/-- An encoding with its layer (R90). -/
inductive Code where
  /-- layer 1: a host request word -/
  | host (w : HostWord)
  /-- layer 2: an address byte, the first byte of a transaction -/
  | address (b : Byte)
  /-- layer 3: the byte written to `A_COMMAND` -/
  | command (b : Byte)
  /-- layer 4: a 7-bit short frame -/
  | short (b : BitVec 7)
  /-- layer 4: a byte of a SELECT frame -/
  | frame (b : Byte)
deriving DecidableEq, Repr

end Sys2Proof
end

