-- ==== Sys2Proof/WellFormed.lean ====
section
/-! DEFINITION. What is well formed: an instruction whose operands its row of the opcode table admits, and a
configuration whose codes can be told apart. Almost every operand range is already a fact of its type
(30_encoding.md R106: the fields cannot hold anything else); the NVB byte count is the one that is not. An operand
that an operation REJECTS (`SELECT kvb=81`, `REG_READ_N n=65`) is a legal encoding with a defined effect (R108), so
it is well formed. -/

namespace Sys2Proof

/-- `byte_count` is `2 + known_bits div 8` with `known_bits` 0 to 31 (R99): 2 to 5. (The note of the table's row says 2 to 6; DEDUCED,
assumption 19: the rule is followed. With 32 bits known the byte is 0x70, `NVB_FULL`.) -/
def anticollByteCount (n : Nat) : Bool := 2 ≤ n && n ≤ 5

/-- The operands are in the range of the instruction's row. `NVB_ANTICOLL`: the byte counts that R99 gives. -/
def Instr.wf : Instr → Bool
  | .nvbAnticoll byteCount _ => anticollByteCount byteCount.toNat
  | _ => true

namespace Config

/-- The ten PCD command opcodes, in the order of R94. -/
def commands (c : Config) : List (BitVec 4) :=
  [c.cmdIdle, c.cmdMem, c.cmdGenRandomId, c.cmdCalcCrc, c.cmdTransmit, c.cmdNoCmdChange, c.cmdReceive,
    c.cmdTransceive, c.cmdMfAuthent, c.cmdSoftReset]

/-- The fourteen PCD register addresses the engine's own sequences use (R8, R31). -/
def addresses (c : Config) : List Addr :=
  [c.aCommand, c.aComIrq, c.aDivIrq, c.aError, c.aFifoData, c.aFifoLevel, c.aControl, c.aBitFraming, c.aColl,
    c.aTxMode, c.aRxMode, c.aCrcResultH, c.aCrcResultL, c.aModWidth]

/-- A byte of the form the table gives `NVB_ANTICOLL`, bbbb0ccc, with a byte count of R99: 0x20 to 0x57 with bit 3 zero. -/
def isAnticollNvb (b : Byte) : Bool :=
  !b.getLsbD 3 && anticollByteCount (b.toNat / 16)

/-- Codes of one layer are pairwise different, so that each byte of a layer has one meaning. The source asks only that
the numbers match the chip (R8); every real chip's numbers are distinct. -/
def codesDistinct (c : Config) : Bool :=
  decide c.commands.Nodup && c.piccReqa != c.piccWupa
    && decide [c.piccSelCl1, c.piccSelCl2, c.piccSelCl3, cascadeTagByte, nvbFullByte].Nodup
    && [c.piccSelCl1, c.piccSelCl2, c.piccSelCl3].all fun b => !isAnticollNvb b

/-- The fourteen addresses are pairwise different. -/
def addressesDistinct (c : Config) : Bool := decide c.addresses.Nodup

/-- A configuration that names fourteen different registers and different codes on each layer. -/
def wf (c : Config) : Bool := c.codesDistinct && c.addressesDistinct

end Config

end Sys2Proof
end

