-- ==== Sys2Proof/Decode.lean ====
section
/-! DEFINITION. The encodings: the address byte (30_encoding.md R91), the bit-framing byte (R98), the NVB byte (R99),
the decoder from codes to instructions (R94, R96, R97, R106), total on every code, and the encoder written from the
same tables. A host word whose `op` is unassigned decodes to nothing: R108 gives it the outcome `Invalid`, which is the
host port's business (Machine/HostPort.lean). -/

namespace Sys2Proof

/-- `encode_read(r) = (r << 1) | 0x80` (R91). -/
def encodeRead (a : Addr) : Byte := (a.setWidth 8 <<< 1) ||| 0x80

/-- `encode_write(r) = (r << 1) | 0x00` (R91). -/
def encodeWrite (a : Addr) : Byte := (a.setWidth 8 <<< 1) ||| 0x00

/-- `addr = byte[6:1]` (R91). -/
def addrField (b : Byte) : Addr := b.extractLsb' 1 6

/-- `mode = byte[7]`: true is a read (R91). -/
def modeField (b : Byte) : Bool := b.getLsbD 7

/-- The byte written to `A_COMMAND`: `zext_8(opcode)`, bits 7:4 zero (R32, R94). -/
def commandByte (cmd : BitVec 4) : Byte := cmd.setWidth 8

/-- `bit_framing = (zext_8(rx_align) << 4) | zext_8(valid_bits)` (R98). -/
def framingByte (rxAlign validBits : BitVec 3) : Byte := (rxAlign.setWidth 8 <<< 4) ||| validBits.setWidth 8

/-- `(byte_count << 4) | bit_count` (R99). -/
def nvbByte (byteCount : BitVec 4) (bitCount : BitVec 3) : Byte :=
  (byteCount.setWidth 8 <<< 4) ||| bitCount.setWidth 8

/-- The operand field `hi:lo` of a host word's bits 26:0 (R106), given by its low bit and its width. -/
def field (x : BitVec 27) (lo width : Nat) : BitVec width := x.extractLsb' lo width

/-- A one-bit operand field. -/
def flag (x : BitVec 27) (i : Nat) : Bool := x.getLsbD i

/-- The operation of a host word from its `op` (bits 31:27) and its operand bits 26:0 (R106); `none` for the eleven
unassigned values of `op` (R108). Operand bits the format does not use are ignored. -/
def decodeOp (op : BitVec 5) (x : BitVec 27) : Option Instr :=
  match op.toNat with
  | 0x00 => some .beginTxn
  | 0x01 => some (.writeByte (field x 0 8))
  | 0x02 => some .writeBytes
  | 0x03 => some .endTxn
  | 0x04 => some .readByte
  | 0x05 => some (.readBytes (field x 0 7))
  | 0x08 => some (.regRead (field x 0 6))
  | 0x09 => some (.regReadN (field x 0 6) (field x 8 7))
  | 0x0A => some (.regWrite (field x 0 6) (field x 8 8))
  | 0x0B => some (.regWriteN (field x 0 6))
  | 0x0C => some (.regSetBits (field x 0 6) (field x 8 8))
  | 0x0D => some (.regClearBits (field x 0 6) (field x 8 8))
  | 0x10 => some .computeCrc
  | 0x11 =>
    some (.communicate (field x 0 4) (field x 4 8) (field x 12 3) (field x 15 3) (flag x 18) (flag x 19) (field x 20 7))
  | 0x12 => some (.transceive (field x 12 3) (field x 15 3) (flag x 18) (flag x 19) (field x 20 7))
  | 0x18 => some (.requestOrWakeup (flag x 0))
  | 0x19 => some (.select (field x 0 8))
  | 0x1A => some .isNewCardPresent
  | 0x1B => some .readCardUid
  | 0x1E => some .reset
  | 0x1F => some .teardown
  | _ => none

/-- Layer 1 (R106). -/
def decodeHost (w : HostWord) : Option Instr := decodeOp (w.extractLsb' 27 5) (w.extractLsb' 0 27)

/-- Layer 2 (R91): bit 0 of an address byte is always 0, so an odd byte is no address byte. -/
def decodeAddress (b : Byte) : Option Instr :=
  if b.getLsbD 0 then none
  else if modeField b then some (.addrRead (addrField b))
  else some (.addrWrite (addrField b))

/-- Layer 3 (R94): bits 7:4 are zero and bits 3:0 one of the ten opcodes. -/
def decodeCommand (c : Config) (b : Byte) : Option Instr :=
  if b = commandByte c.cmdIdle then some .cmdIdle
  else if b = commandByte c.cmdMem then some .cmdMem
  else if b = commandByte c.cmdGenRandomId then some .cmdGenRandomId
  else if b = commandByte c.cmdCalcCrc then some .cmdCalcCrc
  else if b = commandByte c.cmdTransmit then some .cmdTransmit
  else if b = commandByte c.cmdNoCmdChange then some .cmdNoCmdChange
  else if b = commandByte c.cmdReceive then some .cmdReceive
  else if b = commandByte c.cmdTransceive then some .cmdTransceive
  else if b = commandByte c.cmdMfAuthent then some .cmdMfAuthent
  else if b = commandByte c.cmdSoftReset then some .cmdSoftReset
  else none

/-- Layer 4, short frames (R96, R101). -/
def decodeShort (c : Config) (b : BitVec 7) : Option Instr :=
  if b = c.piccReqa then some .reqa
  else if b = c.piccWupa then some .wupa
  else none

/-- Layer 4, bytes of a SELECT frame (R96, R97, R99, R100). -/
def decodeFrame (c : Config) (b : Byte) : Option Instr :=
  if b = c.piccSelCl1 then some .selCl1
  else if b = c.piccSelCl2 then some .selCl2
  else if b = c.piccSelCl3 then some .selCl3
  else if b = cascadeTagByte then some .cascadeTag
  else if b = nvbFullByte then some .nvbFull
  else if Config.isAnticollNvb b then some (.nvbAnticoll (b.extractLsb' 4 4) (b.extractLsb' 0 3))
  else none

/-- The decoder: total on every code, `none` where the layer has no such code. -/
def decode (c : Config) : Code → Option Instr
  | .host w => decodeHost w
  | .address b => decodeAddress b
  | .command b => decodeCommand c b
  | .short b => decodeShort c b
  | .frame b => decodeFrame c b

/-- A host request word from its `op` and its operand bits (R106). -/
def hostWord (op : BitVec 5) (x : BitVec 27) : HostWord := (op.setWidth 32 <<< 27) ||| x.setWidth 32

/-- A value put at bit `lo` of the operand bits. -/
def place {n : Nat} (v : BitVec n) (lo : Nat) : BitVec 27 := v.setWidth 27 <<< lo

/-- Format AN: `a` in 5:0, `n` in 14:8. -/
def operandsAN (a : Addr) (n : BitVec 7) : BitVec 27 := place n 8 ||| place a 0

/-- Format AV: `a` in 5:0, `v` in 15:8. -/
def operandsAV (a : Addr) (v : Byte) : BitVec 27 := place v 8 ||| place a 0

/-- Format C: `recv_cap` 26:20, `recv_present` 19, `check_crc` 18, `rx_align` 17:15, `valid_bits` 14:12,
`wait_mask` 11:4, `cmd` 3:0. -/
def operandsC (cmd : BitVec 4) (waitMask : Byte) (validBits rxAlign : BitVec 3) (checkCrc recvPresent : Bool)
    (recvCap : BitVec 7) : BitVec 27 :=
  place recvCap 20 ||| place (BitVec.ofBool recvPresent) 19 ||| place (BitVec.ofBool checkCrc) 18 ||| place rxAlign 15
    ||| place validBits 12 ||| place waitMask 4 ||| place cmd 0

/-- The encoder: the code of an instruction, with its layer, unused operand bits zero. -/
def encode (c : Config) : Instr → Code
  | .beginTxn => .host (hostWord 0x00 0)
  | .writeByte b => .host (hostWord 0x01 (place b 0))
  | .writeBytes => .host (hostWord 0x02 0)
  | .endTxn => .host (hostWord 0x03 0)
  | .readByte => .host (hostWord 0x04 0)
  | .readBytes n => .host (hostWord 0x05 (place n 0))
  | .regRead a => .host (hostWord 0x08 (place a 0))
  | .regReadN a n => .host (hostWord 0x09 (operandsAN a n))
  | .regWrite a v => .host (hostWord 0x0A (operandsAV a v))
  | .regWriteN a => .host (hostWord 0x0B (place a 0))
  | .regSetBits a v => .host (hostWord 0x0C (operandsAV a v))
  | .regClearBits a v => .host (hostWord 0x0D (operandsAV a v))
  | .computeCrc => .host (hostWord 0x10 0)
  | .communicate cmd waitMask validBits rxAlign checkCrc recvPresent recvCap =>
    .host (hostWord 0x11 (operandsC cmd waitMask validBits rxAlign checkCrc recvPresent recvCap))
  | .transceive validBits rxAlign checkCrc recvPresent recvCap =>
    .host (hostWord 0x12 (operandsC 0 0 validBits rxAlign checkCrc recvPresent recvCap))
  | .requestOrWakeup sel => .host (hostWord 0x18 (place (BitVec.ofBool sel) 0))
  | .select kvb => .host (hostWord 0x19 (place kvb 0))
  | .isNewCardPresent => .host (hostWord 0x1A 0)
  | .readCardUid => .host (hostWord 0x1B 0)
  | .reset => .host (hostWord 0x1E 0)
  | .teardown => .host (hostWord 0x1F 0)
  | .addrRead a => .address (encodeRead a)
  | .addrWrite a => .address (encodeWrite a)
  | .cmdIdle => .command (commandByte c.cmdIdle)
  | .cmdMem => .command (commandByte c.cmdMem)
  | .cmdGenRandomId => .command (commandByte c.cmdGenRandomId)
  | .cmdCalcCrc => .command (commandByte c.cmdCalcCrc)
  | .cmdTransmit => .command (commandByte c.cmdTransmit)
  | .cmdNoCmdChange => .command (commandByte c.cmdNoCmdChange)
  | .cmdReceive => .command (commandByte c.cmdReceive)
  | .cmdTransceive => .command (commandByte c.cmdTransceive)
  | .cmdMfAuthent => .command (commandByte c.cmdMfAuthent)
  | .cmdSoftReset => .command (commandByte c.cmdSoftReset)
  | .reqa => .short c.piccReqa
  | .wupa => .short c.piccWupa
  | .selCl1 => .frame c.piccSelCl1
  | .selCl2 => .frame c.piccSelCl2
  | .selCl3 => .frame c.piccSelCl3
  | .cascadeTag => .frame cascadeTagByte
  | .nvbFull => .frame nvbFullByte
  | .nvbAnticoll byteCount bitCount => .frame (nvbByte byteCount bitCount)

/-- The layer a bare table word belongs to. A word of more than 8 bits is a host request word. A byte can be a code on
several layers; taken without its place it is read on the first layer, in the order command, short frame, SELECT frame,
address, on which the table has it (assumption 9: the order is the model's own). -/
def codeOfTableWord (c : Config) (nbits w : Nat) : Code :=
  if 8 < nbits then .host (BitVec.ofNat 32 w)
  else
    let b : Byte := BitVec.ofNat 8 w
    if (decodeCommand c b).isSome then .command b
    else if b.toNat < 128 && (decodeShort c (b.setWidth 7)).isSome then .short (b.setWidth 7)
    else if (decodeFrame c b).isSome then .frame b
    else .address b

/-- What the decoder reads from a word of the opcode table, with the default configuration, whose numbers the table
has. -/
def decodeTableWord (nbits w : Nat) : Option Instr :=
  decode Config.mfrc522 (codeOfTableWord Config.mfrc522 nbits w)

end Sys2Proof
end

