-- ==== Sys2Proof/Machine/State.lean ====
section
/-! DEFINITION. The state of the engine, plain data: one group of registers per rule of 10_state.md (R21 to R30), the
sequencer state (R24), the configuration, what the outside world has yet to give (the PCD's answers, the time base's
answers, the host's requests), and the record of what the engine put on its output ports. The PCD's registers are not
state of the engine (R20, R31): they are seen only through the answers. -/

namespace Sys2Proof.Machine

/-- The closed set of outcomes, in the order of R105 (R270). -/
inductive OpOutcome where
  | ok | noRoom | mifareNack | collision | crcMismatch | timeout | error | invalid | internalError
deriving DecidableEq, Repr

/-- The fatal reasons, in the order of R107; `none` is the register's reset value. -/
inductive FatalReason where
  | none | beginWhileOpen | writeWhileClosed | endWhileClosed | readBeforeEnd | overflow | readTooLong | unsupported
deriving DecidableEq, Repr

/-- The sequencer state `op_state` (R24). `busy` names the operation and the rule whose action is next; as an operation
is one step of this model (decision D30, assumption 4) it stands only inside a step. -/
inductive OpState where
  | idle
  | busy (op : Instr) (rule : Nat)
  | fatal
  | tornDown
deriving DecidableEq, Repr

/-- The UID register file `U` (R21). -/
structure Uid where
  /-- `U.b[0..9]` -/
  b : Vector Byte 10
  /-- `U.size`, 4 bits -/
  size : BitVec 4
  /-- `U.sak` -/
  sak : Byte
deriving DecidableEq, Repr

/-- The protocol buffers (R22). -/
structure Buffers where
  /-- `FB[0..8]`, the frame buffer of `select` -/
  fb : Vector Byte 9
  /-- `RSP[0..2]`, the response window of a full-select round -/
  rsp : Vector Byte 3
  /-- `ATQA[0..1]` -/
  atqa : Vector Byte 2
  /-- `CRC[0..1]`, low byte first -/
  crc : Vector Byte 2
deriving DecidableEq, Repr

/-- The transaction buffer of the register transceiver (R23). -/
structure Txn where
  /-- `WB[0..64]`, the write buffer -/
  wb : Vector Byte 65
  /-- `RB[0..64]`, the read buffer -/
  rb : Vector Byte 65
  /-- `pos`, 0 to 65 -/
  pos : Fin 66
  /-- `txn_open` -/
  isOpen : Bool
  /-- `txn_done` -/
  done : Bool
deriving DecidableEq, Repr

/-- The scalars of `uid_cascade_select_fsm` (R25). -/
structure SelectRegs where
  kvb : Byte
  level : BitVec 3
  off : BitVec 3
  /-- `use_ct` -/
  useCt : Bool
  /-- `known_bits`, 0 to 32 -/
  knownBits : BitVec 6
  /-- `tx_last` -/
  txLast : BitVec 3
  idx : BitVec 3
  /-- `send_len` -/
  sendLen : BitVec 4
deriving DecidableEq, Repr

/-- The scalars of `command_irq_sequencer` (R26). -/
structure CommandRegs where
  cmd : BitVec 4
  waitMask : Byte
  rxAlign : BitVec 3
  /-- `valid_bits`, in and out -/
  validBits : BitVec 3
  bitFraming : Byte
  checkCrc : Bool
  recvPresent : Bool
  recvCap : BitVec 7
  bytesWritten : BitVec 7
  irqSample : Byte
  errSample : Byte
  fifoN : Byte
  /-- the budget of the running poll loop, in milliseconds; none while no loop runs (R43, R286) -/
  budget : Option Nat
deriving DecidableEq, Repr

/-- The registers of `bit_collision_detector` (R27). -/
structure CollisionRegs where
  /-- `coll_sample` -/
  sample : Byte
  /-- `coll_pos`, 1 to 32 once written -/
  pos : BitVec 6
deriving DecidableEq, Repr

/-- The status flags (R28); `txn_open` and `txn_done` are in `Txn`. -/
structure Flags where
  outcome : OpOutcome
  /-- `fatal`, sticky -/
  fatal : Bool
  fatalReason : FatalReason
  present : Bool
deriving DecidableEq, Repr

/-- The host data buffers (R29). -/
structure HostBuffers where
  /-- `TXB[0..64]` -/
  txb : Vector Byte 65
  /-- `tx_len`, 0 to 65 -/
  txLen : Fin 66
  /-- `RXB[0..64]` -/
  rxb : Vector Byte 65
deriving DecidableEq, Repr

/-- A write of the host to a host-writable register (R6, R21, R29, D23). -/
inductive HostWrite where
  /-- `U.b[i]` -/
  | uidByte (i : Fin 10) (v : Byte)
  /-- `U.size` -/
  | uidSize (v : BitVec 4)
  /-- `U.sak` -/
  | uidSak (v : Byte)
  /-- `TXB[i]` -/
  | txByte (i : Fin 65) (v : Byte)
  /-- `tx_len` -/
  | txLen (n : Fin 66)
  /-- `RXB[i]` -/
  | rxByte (i : Fin 65) (v : Byte)
deriving DecidableEq, Repr

/-- What the host does next at its port (R6): it issues a code, or writes a register. Its reads change nothing. -/
inductive HostAction where
  | issue (c : Code)
  | write (w : HostWrite)
deriving DecidableEq, Repr

/-- The inputs still to come: the MODEL's own fields. A run of the engine is a function of them (R9, R44, R63, R286). -/
structure Inputs where
  /-- the bytes the PCD oracle will answer, in the order they are shifted in -/
  pcd : List Byte
  /-- how many bytes beyond that list were taken from the free value `Config.pcdByte` -/
  pcdDrawn : Nat
  /-- for the poll loops to come: how often `poll_expired()` answers false before it answers true -/
  polls : List Nat
  /-- how many poll loops beyond that list took the free value `Config.pollsGranted` -/
  pollsDrawn : Nat
  /-- what the host will do, oldest first -/
  host : List HostAction
deriving DecidableEq, Repr

/-- One exchange on the transport port: the bytes out and the bytes back (R60). -/
structure Exchange where
  sent : List Byte
  received : List Byte
deriving DecidableEq, Repr

/-- What the engine has put on its output ports, oldest first: the MODEL's own record, by which runs are compared
(R324). No rule reads it. -/
structure Record where
  /-- every transport transaction (R60, R69) -/
  bus : List Exchange
  /-- every level driven on the reset line (R311) -/
  line : List Bool
  /-- every budget started on the time base, in milliseconds (R286) -/
  budgets : List Nat
deriving DecidableEq, Repr

/-- The state of the engine. -/
structure State where
  uid : Uid
  buf : Buffers
  txn : Txn
  opState : OpState
  sel : SelectRegs
  com : CommandRegs
  col : CollisionRegs
  flags : Flags
  hostBuf : HostBuffers
  /-- `reset_line`: false is low, true is high (R30) -/
  resetLine : Bool
  /-- the parameters of R8, fixed: no step changes them -/
  cfg : Config
  inp : Inputs
  out : Record
deriving DecidableEq, Repr

/-- No behaviour of this hardware ends a run of the model, so this type has no constructor. What the source calls a
fatal failure is a state the spec describes, and the model takes it (`raiseFatal`, R278, assumption 5); every address a
request can name exists (R76). Safe: nothing raises a fault. -/
inductive Fault where
deriving DecidableEq, Repr

/-- Why a step has no meaning. -/
inductive Refusal where
  /-- raised by `exec`'s arm of an instruction that has no meaning yet. Safe. -/
  | notModelled (mnemonic : String)
  /-- raised by `step` when a bare byte is issued that is no code of its layer (R91, R94, R96, R97, R99 list them all); no
  host request word is such a byte. Safe. -/
  | noSuchCode
deriving DecidableEq, Repr

/-- The engine right after the reset sequence (R45, R311, R312): every register zero, `outcome` Ok, `op_state` IDLE, the
reset line high, having been driven low and then high. The default configuration; no input listed, nothing yet sent. -/
def State.reset : State where
  uid := ⟨Vector.replicate 10 0, 0, 0⟩
  buf := ⟨Vector.replicate 9 0, Vector.replicate 3 0, Vector.replicate 2 0, Vector.replicate 2 0⟩
  txn := ⟨Vector.replicate 65 0, Vector.replicate 65 0, 0, false, false⟩
  opState := .idle
  sel := ⟨0, 0, 0, false, 0, 0, 0, 0⟩
  com := ⟨0, 0, 0, 0, 0, false, false, 0, 0, 0, 0, 0, none⟩
  col := ⟨0, 0⟩
  flags := ⟨.ok, false, .none, false⟩
  hostBuf := ⟨Vector.replicate 65 0, 0, Vector.replicate 65 0⟩
  resetLine := true
  cfg := Config.mfrc522
  inp := ⟨[], 0, [], 0, []⟩
  out := ⟨[], [false, true], []⟩

end Sys2Proof.Machine
end

