-- ==== Sys2Proof/Machine/Ops.lean ====
section
/-! DEFINITION. The shared operations: running an operation (R24, R270), raising a fatal failure (R278) and the reset that
is the only way out of it (R310, R311), the transport port (R60), the transaction primitives (R131 to R136), the register
operations built from them (R137 to R142), and the poll loop (R286). `Eng` is the engine's sequencer: a step of it ends
with a result, or dies of a fatal failure with the state as it stood. -/

namespace Sys2Proof.Machine

/-- Sequences of the engine. An `error` is a fatal failure: the state beside it is the `FATAL` state of R278. -/
abbrev Eng := EStateM FatalReason State

/-! ### Small helpers over buffers -/

/-- Element `i` of a buffer. Every rule reads in range; outside it this is 0. -/
def byteAt {n : Nat} (v : Vector Byte n) (i : Nat) : Byte := v[i]?.getD 0

/-- Write the bytes of a list at ascending indices from `i` (R11). What would fall outside is not written; every rule
writes in range. -/
def writeAt {n : Nat} (v : Vector Byte n) (i : Nat) : List Byte → Vector Byte n
  | [] => v
  | b :: bs => writeAt (v.setIfInBounds i b) (i + 1) bs

/-- The sub-list of `len` elements from index `i` (R10). -/
def slice {n : Nat} (v : Vector Byte n) (i len : Nat) : List Byte := (v.toList.drop i).take len

/-! ### Fatal failures, returns and acceptance -/

/-- The state a fatal failure leaves (R278): the sticky flag, the reason, `op_state` FATAL; every other register as it
was. -/
def State.fatalState (r : FatalReason) (s : State) : State :=
  { s with flags := { s.flags with fatal := true, fatalReason := r }, opState := .fatal }

/-- `raise Fatal(reason)` (R11, R278): the rest of the running operation, however deeply nested, is not executed. -/
def raiseFatal (r : FatalReason) : Eng Unit := do
  modify (State.fatalState r)
  throw r

/-- The state in which `op_state` names this rule as the one whose action is next (R24). -/
def State.toRule (rule : Nat) (s : State) : State :=
  { s with opState := match s.opState with
      | .busy op _ => .busy op rule
      | other => other }

/-- Move to a rule (R24). -/
def atRule (rule : Nat) : Eng Unit := modify (State.toRule rule)

/-- The state when the host's operation `i` has been accepted and its sequence `body` has run: `op_state` is BUSY while it
runs and IDLE when it returns (R24, R270); after a fatal failure it stays FATAL (R278). A request is accepted only in
IDLE; in any other state it has no effect (R106, R315). -/
def runOp (i : Instr) (rule : Nat) (body : Eng Unit) (s : State) : State :=
  if s.opState = .idle then
    match body.run { s with opState := .busy i rule } with
    | .ok _ t => { t with opState := .idle }
    | .error _ t => t
  else s

/-- `outcome <- o` (R28, R270). -/
def setOutcome (o : OpOutcome) : Eng Unit := modify fun s => { s with flags := { s.flags with outcome := o } }

/-- A protocol operation: `return o` writes the outcome and goes to IDLE (R270). -/
def runProtocol (i : Instr) (rule : Nat) (body : Eng OpOutcome) (s : State) : State :=
  runOp i rule (do setOutcome (← body)) s

/-! ### Reset -/

/-- Every engine register at its reset value (R45); the configuration, the inputs still to come and the record of the
output ports are no registers and stay. -/
def State.clearRegisters (s : State) : State := { State.reset with cfg := s.cfg, inp := s.inp, out := s.out }

/-- Drive the reset line (R30, R311). -/
def State.driveLine (level : Bool) (s : State) : State :=
  { s with resetLine := level, out := { s.out with line := s.out.line ++ [level] } }

/-- The reset sequence (R311): registers, line low, (the pulse's length is time, R323), line high, IDLE. -/
def State.resetSequence (s : State) : State :=
  { ({ s.clearRegisters with opState := .busy .reset 311 }.driveLine false).driveLine true with opState := .idle }

/-! ### The transport port -/

/-- The next `n` bytes the PCD oracle answers (R63): those the state lists, then free values. -/
def Inputs.answer (e : Inputs) (n : Nat) : List Byte :=
  e.pcd.take n ++ (List.range (n - e.pcd.length)).map fun k => Config.pcdByte (e.pcdDrawn + k)

/-- The inputs after `n` bytes were answered. -/
def Inputs.afterAnswer (e : Inputs) (n : Nat) : Inputs :=
  { e with pcd := e.pcd.drop n, pcdDrawn := e.pcdDrawn + (n - e.pcd.length) }

/-- `Xfer(W)`: one full-duplex exchange, as many bytes back as out (R60). -/
def xfer (w : List Byte) : Eng (List Byte) := do
  let e := (← get).inp
  modify fun s =>
    { s with inp := e.afterAnswer w.length, out := { s.out with bus := s.out.bus ++ [⟨w, e.answer w.length⟩] } }
  return e.answer w.length

/-! ### The transaction primitives -/

/-- `begin` (R131). -/
def begin_ : Eng Unit := do
  if (← get).txn.isOpen then raiseFatal .beginWhileOpen
  modify fun s => { s with txn := { s.txn with pos := 0, isOpen := true, done := false } }

/-- `write_byte(b)` (R132). -/
def writeByte (b : Byte) : Eng Unit := do
  if !(← get).txn.isOpen then raiseFatal .writeWhileClosed
  if (← get).txn.pos.val = txnCap then raiseFatal .overflow
  modify fun s =>
    { s with txn := { s.txn with wb := s.txn.wb.setIfInBounds s.txn.pos b, pos := Fin.ofNat 66 (s.txn.pos + 1) } }

/-- `write_bytes(slice)` (R133): on overflow nothing is appended. -/
def writeBytes (bs : List Byte) : Eng Unit := do
  if !(← get).txn.isOpen then raiseFatal .writeWhileClosed
  if (← get).txn.pos.val + bs.length > txnCap then raiseFatal .overflow
  modify fun s =>
    { s with txn := { s.txn with wb := writeAt s.txn.wb s.txn.pos bs, pos := Fin.ofNat 66 (s.txn.pos + bs.length) } }

/-- `end` (R134): exactly one exchange, of `pos` bytes, also when `pos = 0`. -/
def end_ : Eng Unit := do
  if !(← get).txn.isOpen then raiseFatal .endWhileClosed
  let s ← get
  let r ← xfer (slice s.txn.wb 0 s.txn.pos)
  modify fun s => { s with txn := { s.txn with rb := writeAt s.txn.rb 0 r, isOpen := false, done := true } }

/-- `read_byte` (R135): the last byte exchanged; nothing is consumed. -/
def readByte : Eng Byte := do
  if !(← get).txn.done then raiseFatal .readBeforeEnd
  if (← get).txn.pos.val = 0 then raiseFatal .readTooLong
  let s ← get
  return byteAt s.txn.rb (s.txn.pos - 1)

/-- `read_bytes(n)` (R136): the final `n` positions of the exchange; nothing is consumed. -/
def readBytes (n : Nat) : Eng (List Byte) := do
  if !(← get).txn.done then raiseFatal .readBeforeEnd
  if n > (← get).txn.pos.val then raiseFatal .readTooLong
  let s ← get
  return slice s.txn.rb (s.txn.pos - n) n

/-! ### The register operations -/

/-- `n` uses of `write_byte(b)` (R138). -/
def writeCopies : Nat → Byte → Eng Unit
  | 0, _ => pure ()
  | n + 1, b => do
    writeByte b
    writeCopies n b

/-- `reg_read_n(a, n)`, `MemRead(a, n)` (R138): no transaction when `n = 0`. -/
def regReadN (a : Addr) (n : Nat) : Eng (List Byte) := do
  if n > maxData then raiseFatal .overflow
  if n = 0 then return []
  begin_
  writeCopies n (encodeRead a)
  writeByte (← get).cfg.dummy
  end_
  readBytes n

/-- `reg_read(a)`: `reg_read_n(a, 1)[0]` (R137). -/
def regRead (a : Addr) : Eng Byte := do
  return (← regReadN a 1).headD 0

/-- `reg_write_n(a, data)`, `MemWrite(a, n, data)` (R139): no transaction when `n = 0`. -/
def regWriteN (a : Addr) (data : List Byte) : Eng Unit := do
  if data.length > maxData then raiseFatal .overflow
  if data.length = 0 then return ()
  begin_
  writeByte (encodeWrite a)
  writeBytes data
  end_

/-- `reg_write(a, v)`: `reg_write_n(a, [v])` (R140). -/
def regWrite (a : Addr) (v : Byte) : Eng Unit := regWriteN a [v]

/-- `reg_set_bits(a, m)` (R141): a read, then a write, always both. -/
def regSetBits (a : Addr) (m : Byte) : Eng Unit := do
  let v ← regRead a
  regWrite a (v ||| m)

/-- `reg_clear_bits(a, m)` (R142): a read, then a write, always both. -/
def regClearBits (a : Addr) (m : Byte) : Eng Unit := do
  let v ← regRead a
  regWrite a (v &&& ~~~m)

/-! ### The poll loop -/

/-- What one poll says: the awaited flag is there, the wait is over without it, or poll again. -/
inductive Poll where
  | proceed | giveUp | again
deriving DecidableEq, Repr

/-- How often `poll_expired()` answers false in the next poll loop: as the state lists, else a free value (R286). -/
def Inputs.granted (e : Inputs) : Nat :=
  match e.polls with
  | n :: _ => n
  | [] => Config.pollsGranted e.pollsDrawn

/-- The inputs after a poll loop was given its time. -/
def Inputs.afterGranted (e : Inputs) : Inputs :=
  match e.polls with
  | _ :: rest => { e with polls := rest }
  | [] => { e with pollsDrawn := e.pollsDrawn + 1 }

/-- `start budget ms` (R286): the budget runs, and the time base will answer false that many times. -/
def startBudget (ms : Nat) : Eng Nat := do
  let e := (← get).inp
  modify fun s =>
    { s with inp := e.afterGranted, com := { s.com with budget := some ms },
             out := { s.out with budgets := s.out.budgets ++ [ms] } }
  return e.granted

/-- No budget runs outside a poll loop (R286). -/
def stopBudget : Eng Unit := modify fun s => { s with com := { s.com with budget := none } }

/-- The loop: poll; where the poll does not decide, `poll_expired()` is asked, which answers false `granted` times and then
true (R286). At least one poll is made. True: proceed; false: `Timeout`. -/
def pollLoop (poll : Eng Poll) : Nat → Eng Bool
  | 0 => do
    match ← poll with
    | .proceed => return true
    | .giveUp => return false
    | .again => return false
  | granted + 1 => do
    match ← poll with
    | .proceed => return true
    | .giveUp => return false
    | .again => pollLoop poll granted

/-- A poll loop under a budget of `ms` milliseconds. -/
def pollUnderBudget (ms : Nat) (poll : Eng Poll) : Eng Bool := do
  let granted ← startBudget ms
  let proceed ← pollLoop poll granted
  stopBudget
  return proceed

end Sys2Proof.Machine
end

