-- ==== Sys2Proof/Machine/Operands.lean ====
section
/-! DEFINITION. The operand forms: the host's data buffers (10_state.md R29), the receive windows (R46), the merge of the
first received byte (41_command_irq_sequencer.md R173), and what `select` computes of a level from the caller's claim
(42_uid_cascade_select_fsm.md R207 to R210, R212, R213). -/

namespace Sys2Proof.Machine

/-- `TXB[0..tx_len-1]`, the host's operand bytes (R29, R106). -/
def txData (s : State) : List Byte := slice s.hostBuf.txb 0 s.hostBuf.txLen

/-- Result bytes to `RXB[0..]` (R29, R106). -/
def setRxb (bs : List Byte) : Eng Unit := modify fun s =>
  { s with hostBuf := { s.hostBuf with rxb := writeAt s.hostBuf.rxb 0 bs } }

/-- A receive buffer: a window of engine registers (R46), or the host's `RXB`. -/
inductive Window where
  | rxb
  | atqa
  | rsp
  /-- the window `FB[idx..]` of an anti-collision round -/
  | fb (idx : Nat)
deriving DecidableEq, Repr

/-- The first byte of a window. -/
def Window.first (w : Window) (s : State) : Byte :=
  match w with
  | .rxb => byteAt s.hostBuf.rxb 0
  | .atqa => byteAt s.buf.atqa 0
  | .rsp => byteAt s.buf.rsp 0
  | .fb idx => byteAt s.buf.fb idx

/-- Store bytes from the start of a window: a write of the registers behind it (R46). -/
def Window.store (w : Window) (bs : List Byte) (s : State) : State :=
  match w with
  | .rxb => { s with hostBuf := { s.hostBuf with rxb := writeAt s.hostBuf.rxb 0 bs } }
  | .atqa => { s with buf := { s.buf with atqa := writeAt s.buf.atqa 0 bs } }
  | .rsp => { s with buf := { s.buf with rsp := writeAt s.buf.rsp 0 bs } }
  | .fb idx => { s with buf := { s.buf with fb := writeAt s.buf.fb idx bs } }

/-- `mask <- (0xFF << rx_align) & 0xFF` (R173). -/
def mergeMask (rxAlign : BitVec 3) : Byte := (0xFF#8) <<< rxAlign.toNat

/-- `merge(old, new, rx_align)`: the low `rx_align` bits of `old`, the rest of `new` (R173). -/
def merge (old new : Byte) (rxAlign : BitVec 3) : Byte := (old &&& ~~~(mergeMask rxAlign)) ||| (new &&& mergeMask rxAlign)

/-- The received bytes as they are stored: only the first is merged, with what the window held (R172, R173). -/
def mergeFirst (old : Byte) (rxAlign : BitVec 3) : List Byte → List Byte
  | [] => []
  | d :: ds => merge old d rxAlign :: ds

/-! ### The operands of a cascade level -/

/-- `UID_OFFSET(level)`: 0, 3, 6 (R7, R207). -/
def uidOffset (level : Nat) : Nat := 3 * (level - 1)

/-- The SELECT opcode of a level (R207). -/
def selOpcode (c : Config) (level : Nat) : Byte :=
  if level = 1 then c.piccSelCl1 else if level = 2 then c.piccSelCl2 else c.piccSelCl3

/-- `use_ct <- (level < 3) and (kvb > 8 * off + 32)` (R208). -/
def usesCascadeTag (level kvb : Nat) : Bool := level < maxLevel && kvb > 8 * uidOffset level + levelBits

/-- `lvl_bits <- max(0, kvb - 8 * off)` (R209). -/
def levelClaim (level kvb : Nat) : Nat := kvb - 8 * uidOffset level

/-- `cap`: the UID bytes a level can hold (R209). -/
def levelCap (useCt : Bool) : Nat := if useCt then 3 else 4

/-- `first`: the `FB` index of the level's first UID byte (R209). -/
def levelFirst (useCt : Bool) : Nat := if useCt then 3 else 2

/-- `whole`: the whole bytes copied (R209). -/
def wholeBytes (level kvb : Nat) : Nat := min (levelClaim level kvb / 8) (levelCap (usesCascadeTag level kvb))

/-- `rem`: the bits of the next byte copied (R209, decision D18). -/
def remBits (level kvb : Nat) : Nat :=
  if wholeBytes level kvb < levelCap (usesCascadeTag level kvb) then levelClaim level kvb % 8 else 0

/-- `known_bits` at the start of a level (R210). -/
def startKnownBits (level kvb : Nat) : Nat :=
  min (levelClaim level kvb) (8 * levelCap (usesCascadeTag level kvb)) + (if usesCascadeTag level kvb then 8 else 0)

/-- The bytes the claim copies into the frame: whole UID bytes, then the low `rem` bits of the next (R209). -/
def knownPrefix (u : Vector Byte 10) (level kvb : Nat) : List Byte :=
  slice u (uidOffset level) (wholeBytes level kvb)
    ++ (if remBits level kvb > 0 then
          [byteAt u (uidOffset level + wholeBytes level kvb) &&& ((1#8 <<< remBits level kvb) - 1)]
        else [])

/-- The frame buffer at the start of a level: the SELECT opcode, zeros, the cascade tag if used, the known prefix
(R207, R208, R209). -/
def levelFrame (c : Config) (u : Vector Byte 10) (fb : Vector Byte 9) (level kvb : Nat) : Vector Byte 9 :=
  let cleared := writeAt (fb.setIfInBounds 0 (selOpcode c level)) 1 (List.replicate 8 0)
  let tagged := if usesCascadeTag level kvb then cleared.setIfInBounds 2 cascadeTagByte else cleared
  writeAt tagged (levelFirst (usesCascadeTag level kvb)) (knownPrefix u level kvb)

/-- `FB[2] ^ FB[3] ^ FB[4] ^ FB[5]` (R212). -/
def bcc (fb : Vector Byte 9) : Byte := byteAt fb 2 ^^^ byteAt fb 3 ^^^ byteAt fb 4 ^^^ byteAt fb 5

/-- The UID bytes a completed level delivers: three after a cascade tag below level 3, else four (R219). -/
def levelUidBytes (fb : Vector Byte 9) (level : Nat) : List Byte :=
  if level < maxLevel && byteAt fb 2 == cascadeTagByte then slice fb 3 3 else slice fb 2 4

/-- The `FB` index of the byte that holds bit position `p` of a level (R205). -/
def positionByte (p : Nat) : Nat := 2 + (p - 1) / 8

/-- The bit of that byte, as a mask (R205). -/
def positionMask (p : Nat) : Byte := 1#8 <<< ((p - 1) % 8)

end Sys2Proof.Machine
end

