-- ==== Sys2Proof/Machine/Flags.lean ====
section
/-! DEFINITION. The status codes and every flag computation: the codes of outcomes and fatal reasons (30_encoding.md R105,
R107), what a sample of the PCD's interrupt and error registers says (60_exceptions.md R282, R283), and the host-visible
flag `present`. The engine has no arithmetic flags (10_state.md R28). -/

namespace Sys2Proof.Machine

/-- Outcome codes, 4 bits (R105). -/
def OpOutcome.code : OpOutcome → BitVec 4
  | .ok => 0
  | .noRoom => 1
  | .mifareNack => 2
  | .collision => 3
  | .crcMismatch => 4
  | .timeout => 5
  | .error => 6
  | .invalid => 7
  | .internalError => 8

/-- Fatal reason codes, 3 bits (R107). -/
def FatalReason.code : FatalReason → BitVec 3
  | .none => 0
  | .beginWhileOpen => 1
  | .writeWhileClosed => 2
  | .endWhileClosed => 3
  | .readBeforeEnd => 4
  | .overflow => 5
  | .readTooLong => 6
  | .unsupported => 7

/-- Some bit of the mask is set in the sample. -/
def anyBit (sample mask : Byte) : Bool := sample &&& mask != 0

/-- One `A_DIVIRQ` sample in the wait for the CRC (R162). -/
def crcPoll (c : Config) (sample : Byte) : Poll := if anyBit sample c.divIrqCrc then .proceed else .again

/-- One `A_COMIRQ` sample in the wait of `communicate`: the wait mask first, then the timer bit (R170, R283). -/
def commPoll (c : Config) (waitMask sample : Byte) : Poll :=
  if anyBit sample waitMask then .proceed else if anyBit sample c.irqTimer then .giveUp else .again

/-- `err_sample & ERR_FATAL_MASK != 0`: the outcome is `Error` (R171). -/
def isErrorSample (c : Config) (sample : Byte) : Bool := anyBit sample c.errFatalMask

/-- `err_sample & ERR_COLL != 0`: the outcome is `Collision`, unless one before it holds (R175, R283). -/
def isCollisionSample (c : Config) (sample : Byte) : Bool := anyBit sample c.errColl

/-- What an `Ok` or other exchange of a short frame means: a non-`Ok` outcome as it is; an `Ok` reply that is not 2 bytes
with 0 extra bits is `Error` (R203, conflict C2). -/
def classifyAtqa (o : OpOutcome) (bytesWritten : BitVec 7) (validBits : BitVec 3) : OpOutcome :=
  if o = .ok ∧ (bytesWritten.toNat ≠ atqaLen ∨ validBits ≠ 0) then .error else o

/-- `is_new_card_present`: a card replied at all (R226). -/
def repliedAtAll (o : OpOutcome) : Bool := o == .ok || o == .collision

/-- The 3-byte select response is whole: length 3, no trailing bits (R220). -/
def wholeResponse (bytesWritten : BitVec 7) (validBits : BitVec 3) : Bool :=
  bytesWritten.toNat == selectRespLen && validBits == 0

/-- The SAK's cascade bit (R104, R222). -/
def sakContinues (sak : Byte) : Bool := anyBit sak sakCascade

/-- `present <- b` (R28). -/
def setPresent (b : Bool) : Eng Unit := modify fun s => { s with flags := { s.flags with present := b } }

end Sys2Proof.Machine
end

