-- ==== Sys2Proof/Machine/Command.lean ====
section
/-! DEFINITION. command_irq_sequencer: `compute_crc`, `communicate`, `transceive` (41_command_irq_sequencer.md R160 to R181),
one definition per step of the source's list, and the three host operations. -/

namespace Sys2Proof.Machine

/-! ### compute_crc -/

/-- The five register writes that start the CRC (R161). -/
def crcSetup (data : List Byte) : Eng Unit := do
  atRule 161
  let c := (← get).cfg
  regWrite c.aCommand (commandByte c.cmdIdle)
  regWrite c.aDivIrq c.divIrqCrc
  regWrite c.aFifoLevel c.fifoFlush
  regWriteN c.aFifoData data
  regWrite c.aCommand (commandByte c.cmdCalcCrc)

/-- One poll of `A_DIVIRQ` (R162). -/
def crcSample : Eng Poll := do
  let c := (← get).cfg
  let v ← regRead c.aDivIrq
  modify fun s => { s with com := { s.com with irqSample := v } }
  return crcPoll c v

/-- Stop the command and read the result, low byte first (R162, R163). -/
def crcResult : Eng Unit := do
  atRule 163
  let c := (← get).cfg
  regWrite c.aCommand (commandByte c.cmdIdle)
  let low ← regRead c.aCrcResultL
  modify fun s => { s with buf := { s.buf with crc := s.buf.crc.setIfInBounds 0 low } }
  let high ← regRead c.aCrcResultH
  modify fun s => { s with buf := { s.buf with crc := s.buf.crc.setIfInBounds 1 high } }

/-- `compute_crc(data)` (R164). -/
def computeCrc (data : List Byte) : Eng OpOutcome := do
  if data.length > maxData then raiseFatal .overflow
  crcSetup data
  atRule 162
  if ← pollUnderBudget tCrcMs crcSample then
    crcResult
    return .ok
  else
    return .timeout

/-! ### communicate -/

/-- The operands of `communicate` (R165). -/
structure CommArgs where
  cmd : BitVec 4
  waitMask : Byte
  send : List Byte
  recvPresent : Bool
  recv : Window
  recvCap : BitVec 7
  validBits : BitVec 3
  rxAlign : BitVec 3
  checkCrc : Bool
deriving DecidableEq, Repr

/-- The operands stand in the sequencer's registers (R26). DESIGN CHOICE, assumption 7: from the moment of the call. -/
def commLatch (a : CommArgs) : Eng Unit := modify fun s =>
  { s with com := { s.com with
      cmd := a.cmd, waitMask := a.waitMask, rxAlign := a.rxAlign, validBits := a.validBits, checkCrc := a.checkCrc,
      recvPresent := a.recvPresent, recvCap := a.recvCap } }

/-- The entry checks, before any transport activity (R166). -/
def commEntry (send : List Byte) : Eng Unit := do
  atRule 166
  if (← get).com.checkCrc then raiseFatal .unsupported
  if send.length > maxData then raiseFatal .overflow
  modify fun s => { s with com := { s.com with bytesWritten := 0 } }

/-- Step 1: the bit-framing byte (R167). -/
def commFraming : Eng Unit := do
  atRule 167
  modify fun s => { s with com := { s.com with bitFraming := framingByte s.com.rxAlign s.com.validBits } }

/-- Step 2: six register writes (R168). -/
def commSetup (send : List Byte) : Eng Unit := do
  atRule 168
  let s ← get
  let c := s.cfg
  regWrite c.aCommand (commandByte c.cmdIdle)
  regWrite c.aComIrq c.irqClearAll
  regWrite c.aFifoLevel c.fifoFlush
  regWriteN c.aFifoData send
  regWrite c.aBitFraming s.com.bitFraming
  regWrite c.aCommand (commandByte s.com.cmd)

/-- Step 3: start send, for Transceive only (R169). -/
def commStartSend : Eng Unit := do
  atRule 169
  let s ← get
  if s.com.cmd = s.cfg.cmdTransceive then regSetBits s.cfg.aBitFraming s.cfg.startSend

/-- One poll of `A_COMIRQ` (R170). -/
def commSample : Eng Poll := do
  let s ← get
  let v ← regRead s.cfg.aComIrq
  modify fun t => { t with com := { t.com with irqSample := v } }
  return commPoll s.cfg s.com.waitMask v

/-- Step 5: the error register; true where the outcome is `Error` (R171). -/
def commError : Eng Bool := do
  atRule 171
  let c := (← get).cfg
  let v ← regRead c.aError
  modify fun s => { s with com := { s.com with errSample := v } }
  return isErrorSample c v

/-- The drain of step 6: the FIFO into the receive window, the first byte merged, then the received bit count
(R172 to R174). -/
def commDrain (w : Window) (level : Byte) : Eng Unit := do
  let c := (← get).cfg
  let d ← regReadN c.aFifoData level.toNat
  modify fun s => w.store (mergeFirst (w.first s) s.com.rxAlign d) s
  modify fun s => { s with com := { s.com with bytesWritten := level.setWidth 7 } }
  atRule 174
  let v ← regRead c.aControl
  modify fun s => { s with com := { s.com with validBits := (v &&& c.rxLastBitsMask).setWidth 3 } }

/-- Step 6: the FIFO level against the capacity; false where the outcome is `NoRoom` (R172). Nothing is done without a
receive buffer. -/
def commReceive (w : Window) : Eng Bool := do
  atRule 172
  let s ← get
  if s.com.recvPresent then
    let level ← regRead s.cfg.aFifoLevel
    modify fun t => { t with com := { t.com with fifoN := level } }
    if level.toNat > s.com.recvCap.toNat then
      return false
    else
      commDrain w level
      return true
  else
    return true

/-- Steps 7 and 9: `Collision` or `Ok`, by the sample of step 5 (R175, R176). -/
def commVerdict : Eng OpOutcome := do
  atRule 175
  let s ← get
  return if isCollisionSample s.cfg s.com.errSample then .collision else .ok

/-- Steps 5 to 9, once the wait has ended well (R171 to R176). -/
def commFinish (w : Window) : Eng OpOutcome := do
  if ← commError then
    return .error
  else if ← commReceive w then
    commVerdict
  else
    return .noRoom

/-- `communicate` (R177). -/
def communicate (a : CommArgs) : Eng OpOutcome := do
  commLatch a
  commEntry a.send
  commFraming
  commSetup a.send
  commStartSend
  atRule 170
  if ← pollUnderBudget tCommMs commSample then
    commFinish a.recv
  else
    return .timeout

/-- `transceive` is `communicate` with the Transceive command and the wait mask RxIRQ | IdleIRQ (R178). -/
def transceive (a : CommArgs) : Eng OpOutcome := do
  let c := (← get).cfg
  communicate { a with cmd := c.cmdTransceive, waitMask := c.irqRx ||| c.irqIdle }

/-- A `transceive` from inside the engine: a receive buffer, no CRC check, `cmd` and `wait_mask` by R178. -/
def innerArgs (send : List Byte) (recv : Window) (recvCap : BitVec 7) (validBits rxAlign : BitVec 3) : CommArgs where
  cmd := 0
  waitMask := 0
  send := send
  recvPresent := true
  recv := recv
  recvCap := recvCap
  validBits := validBits
  rxAlign := rxAlign
  checkCrc := false

/-! ### The host operations -/

/-- `COMPUTE_CRC` (R164): the data are `TXB[0..tx_len-1]`. -/
def execComputeCrc (s : State) : Host.Outcome State Fault Refusal :=
  .next (runProtocol .computeCrc 164 (computeCrc (txData s)) s)

/-- `COMMUNICATE` (R165, R177): send data `TXB[0..tx_len-1]`, receive buffer `RXB`. -/
def execCommunicate (cmd : BitVec 4) (waitMask : Byte) (validBits rxAlign : BitVec 3) (checkCrc recvPresent : Bool)
    (recvCap : BitVec 7) (s : State) : Host.Outcome State Fault Refusal :=
  .next (runProtocol (.communicate cmd waitMask validBits rxAlign checkCrc recvPresent recvCap) 165
    (communicate ⟨cmd, waitMask, txData s, recvPresent, .rxb, recvCap, validBits, rxAlign, checkCrc⟩) s)

/-- `TRANSCEIVE` (R178): send data `TXB[0..tx_len-1]`, receive buffer `RXB`. -/
def execTransceive (validBits rxAlign : BitVec 3) (checkCrc recvPresent : Bool) (recvCap : BitVec 7) (s : State) :
    Host.Outcome State Fault Refusal :=
  .next (runProtocol (.transceive validBits rxAlign checkCrc recvPresent recvCap) 178
    (transceive ⟨0, 0, txData s, recvPresent, .rxb, recvCap, validBits, rxAlign, checkCrc⟩) s)

end Sys2Proof.Machine
end

