-- ==== Sys2Proof/Machine/Detector.lean ====
section
/-! DEFINITION. bit_collision_detector: the collision step inside `select` (43_bit_collision_detector.md R250 to R257). -/

namespace Sys2Proof.Machine

/-- `coll_pos <- coll_sample & 0x1F`, 0 meaning 32 (R103, R252). -/
def collPosition (sample : Byte) : Nat :=
  if sample &&& collPosMask = 0 then levelBits else (sample &&& collPosMask).toNat

/-- The position is not valid (R251). -/
def positionUnknown (sample : Byte) : Bool := anyBit sample collPosNotValid

/-- Narrow the search to position `p`: it is known, and it is 1 (R254). -/
def narrow (p : Nat) (s : State) : State :=
  { s with
    sel := { s.sel with knownBits := BitVec.ofNat 6 p },
    buf := { s.buf with
      fb := s.buf.fb.setIfInBounds (positionByte p) (byteAt s.buf.fb (positionByte p) ||| positionMask p) } }

/-- `on_collision()` (R255): an outcome `select` returns with, or `none`: go back to the round, with more known bits. -/
def onCollision : Eng (Option OpOutcome) := do
  atRule 250
  let c := (← get).cfg
  let v ← regRead c.aColl
  modify fun s => { s with col := { s.col with sample := v } }
  if positionUnknown v then
    return some .collision
  else
    modify fun s => { s with col := { s.col with pos := BitVec.ofNat 6 (collPosition v) } }
    if collPosition v ≤ (← get).sel.knownBits.toNat then
      return some .internalError
    else
      modify (narrow (collPosition v))
      return none

end Sys2Proof.Machine
end

