-- ==== Sys2Proof/Machine/Activation.lean ====
section
/-! DEFINITION. uid_cascade_select_fsm: `request_or_wakeup`, `select`, `is_new_card_present`, `read_card_uid`
(42_uid_cascade_select_fsm.md R200 to R229). -/

namespace Sys2Proof.Machine

/-! ### request_or_wakeup -/

/-- The exchange of a short frame: 7 bits of one byte, the reply in `ATQA[0..1]` (R101, R202). -/
def shortFrame (op : BitVec 7) : Eng OpOutcome := do
  atRule 202
  modify fun s => { s with com := { s.com with validBits := BitVec.ofNat 3 shortFrameBits } }
  transceive (innerArgs [op.setWidth 8] .atqa (BitVec.ofNat 7 atqaLen) (BitVec.ofNat 3 shortFrameBits) 0)

/-- `request_or_wakeup(sel)` (R200 to R203). -/
def requestOrWakeup (sel : Bool) : Eng OpOutcome := do
  let c := (← get).cfg
  atRule 201
  regClearBits c.aColl c.collClearMask
  let o ← shortFrame (if sel then c.piccWupa else c.piccReqa)
  let s ← get
  return classifyAtqa o s.com.bytesWritten s.com.validBits

/-! ### select: a level and its rounds -/

/-- The setup of a level: SELECT opcode, offset, cascade tag, known prefix, `known_bits` (R207 to R210). -/
def levelSetup (level : Nat) : Eng Unit := do
  atRule 207
  modify fun s =>
    { s with
      buf := { s.buf with fb := levelFrame s.cfg s.uid.b s.buf.fb level s.sel.kvb.toNat },
      sel := { s.sel with
        off := BitVec.ofNat 3 (uidOffset level),
        useCt := usesCascadeTag level s.sel.kvb.toNat,
        knownBits := BitVec.ofNat 6 (startKnownBits level s.sel.kvb.toNat) } }

/-- The frame of an anti-collision round (R213). -/
def anticollFrame (s : State) : State :=
  let k := s.sel.knownBits.toNat
  { s with
    sel := { s.sel with
      txLast := BitVec.ofNat 3 (k % 8),
      idx := BitVec.ofNat 3 (2 + k / 8),
      sendLen := BitVec.ofNat 4 (2 + k / 8 + if k % 8 > 0 then 1 else 0) },
    buf := { s.buf with
      fb := s.buf.fb.setIfInBounds 1 (nvbByte (BitVec.ofNat 4 (2 + k / 8)) (BitVec.ofNat 3 (k % 8))) } }

/-- The first seven bytes of a full-select frame: NVB 0x70 and the BCC (R212). -/
def fullFrame (s : State) : State :=
  { s with buf := { s.buf with
      fb := (s.buf.fb.setIfInBounds 1 nvbFullByte).setIfInBounds 6 (bcc (s.buf.fb.setIfInBounds 1 nvbFullByte)) } }

/-- The last two bytes of a full-select frame: the CRC, low byte first (R212). -/
def fullFrameCrc (s : State) : State :=
  { s with
    buf := { s.buf with
      fb := (s.buf.fb.setIfInBounds 7 (byteAt s.buf.crc 0)).setIfInBounds 8 (byteAt s.buf.crc 1) },
    sel := { s.sel with txLast := 0, sendLen := 9 } }

/-- The exchange of a round: the bit-framing register with `rx_align = tx_last`, then `transceive` (R215). -/
def roundExchange (recv : Window) (recvCap : Nat) : Eng OpOutcome := do
  atRule 215
  let s ← get
  modify fun t => { t with com := { t.com with rxAlign := s.sel.txLast } }
  regWrite s.cfg.aBitFraming (framingByte s.sel.txLast s.sel.txLast)
  modify fun t => { t with com := { t.com with validBits := s.sel.txLast } }
  transceive (innerArgs (slice s.buf.fb 0 s.sel.sendLen.toNat) recv (BitVec.ofNat 7 recvCap) s.sel.txLast s.sel.txLast)

/-- An anti-collision round (R213 to R218): an outcome `select` returns with, or `none`: the next round. -/
def anticollRound : Eng (Option OpOutcome) := do
  atRule 213
  modify anticollFrame
  let idx := (← get).sel.idx.toNat
  let o ← roundExchange (.fb idx) (7 - idx)
  if o = .collision then
    onCollision
  else if o = .ok then
    modify fun s => { s with sel := { s.sel with knownBits := BitVec.ofNat 6 levelBits } }
    return none
  else
    return some o

/-- A full-select round (R212, R214 to R217): an outcome `select` returns with, or `none`: the response has come. After a
collision no position exceeds 32 known bits, so the detector always returns an outcome (R228 item 8); the `none` it would
answer with fewer known bits is read as the protocol violation it would be. -/
def fullRound : Eng (Option OpOutcome) := do
  atRule 212
  modify fullFrame
  let o ← computeCrc (slice (← get).buf.fb 0 7)
  if o ≠ .ok then
    return some o
  else
    modify fullFrameCrc
    let o ← roundExchange .rsp selectRespLen
    if o = .collision then
      return some ((← onCollision).getD .internalError)
    else if o = .ok then
      return none
    else
      return some o

/-- The rounds of a level (R211): anti-collision rounds while `known_bits < 32`, then the full select. The argument counts
the anti-collision rounds that can still come: every one leaves more known bits than the one before it (R225, R257), so
from 32 it runs out only when `known_bits` is 32. -/
def rounds : Nat → Eng (Option OpOutcome)
  | 0 => fullRound
  | n + 1 => do
    if levelBits ≤ (← get).sel.knownBits.toNat then
      fullRound
    else
      match ← anticollRound with
      | some o => return some o
      | none => rounds n

/-- The level is complete: its UID bytes (R219). -/
def storeUidBytes (level : Nat) (s : State) : State :=
  { s with uid := { s.uid with b := writeAt s.uid.b (uidOffset level) (levelUidBytes s.buf.fb level) } }

/-- Verify the response and its CRC (R220, R221): an outcome `select` returns with, or `none`: the SAK is good. -/
def verifyResponse : Eng (Option OpOutcome) := do
  atRule 220
  let s ← get
  if !wholeResponse s.com.bytesWritten s.com.validBits then
    return some .internalError
  else
    atRule 221
    let o ← computeCrc [byteAt s.buf.rsp 0]
    if o ≠ .ok then
      return some o
    else
      let t ← get
      if byteAt t.buf.crc 0 ≠ byteAt t.buf.rsp 1 ∨ byteAt t.buf.crc 1 ≠ byteAt t.buf.rsp 2 then
        return some .crcMismatch
      else
        return none

/-- Resolution is complete at a level: the SAK and the size (R111, R222). -/
def finishUid (level : Nat) (s : State) : State :=
  { s with uid := { s.uid with sak := byteAt s.buf.rsp 0, size := BitVec.ofNat 4 (3 * level + 1) } }

/-- `level <- n` (R206, R222). -/
def setLevel (n : Nat) : Eng Unit := modify fun s => { s with sel := { s.sel with level := BitVec.ofNat 3 n } }

/-- The levels from `level` on (R224); the first argument counts those that remain, so with none left `level` is 4, the
protocol's `InternalError` (R223). -/
def levels : Nat → Nat → Eng OpOutcome
  | 0, _ => return .internalError
  | n + 1, level => do
    levelSetup level
    match ← rounds levelBits with
    | some o => return o
    | none =>
      atRule 219
      modify (storeUidBytes level)
      match ← verifyResponse with
      | some o => return o
      | none =>
        atRule 222
        if sakContinues (byteAt (← get).buf.rsp 0) then
          setLevel (level + 1)
          levels n (level + 1)
        else
          modify (finishUid level)
          return .ok

/-- `select(kvb)` (R204, R206, R224): out of range is rejected before any register but `outcome` is written. -/
def select (kvb : Byte) : Eng OpOutcome := do
  if kvb.toNat > kvbMax then
    return .invalid
  else
    atRule 206
    modify fun s => { s with sel := { s.sel with kvb := kvb } }
    setLevel 1
    levels maxLevel 1

/-! ### is_new_card_present, read_card_uid -/

/-- The three registers set to their defaults (R226). -/
def modeDefaults : Eng Unit := do
  atRule 226
  let c := (← get).cfg
  regWrite c.aTxMode c.txModeDefault
  regWrite c.aRxMode c.rxModeDefault
  regWrite c.aModWidth c.modWidthDefault

/-- `is_new_card_present()` (R226). -/
def isNewCardPresent : Eng OpOutcome := do
  modeDefaults
  let o ← requestOrWakeup false
  setPresent (repliedAtAll o)
  return o

/-- `read_card_uid()` (R227). -/
def readCardUid : Eng OpOutcome := do
  let o ← select 0
  setPresent (o == .ok)
  return o

/-! ### The host operations -/

/-- `REQUEST_OR_WAKEUP sel` (R200). -/
def execRequestOrWakeup (sel : Bool) (s : State) : Host.Outcome State Fault Refusal :=
  .next (runProtocol (.requestOrWakeup sel) 200 (requestOrWakeup sel) s)

/-- `SELECT kvb` (R204). -/
def execSelect (kvb : Byte) (s : State) : Host.Outcome State Fault Refusal :=
  .next (runProtocol (.select kvb) 204 (select kvb) s)

/-- `IS_NEW_CARD_PRESENT` (R226). -/
def execIsNewCardPresent (s : State) : Host.Outcome State Fault Refusal :=
  .next (runProtocol .isNewCardPresent 226 isNewCardPresent s)

/-- `READ_CARD_UID` (R227). -/
def execReadCardUid (s : State) : Host.Outcome State Fault Refusal :=
  .next (runProtocol .readCardUid 227 readCardUid s)

end Sys2Proof.Machine
end

