-- ==== Sys2Proof/Machine/Codes.lean ====
section
/-! DEFINITION. The codes of layers 2 to 4 as instructions (30_encoding.md R90, R91, R94, R96, R97, R99 to R101): the one
action of the engine's sequences that puts the code where its layer has it. The host cannot issue them (R106); their
standing alone as a step is the model's, DESIGN CHOICE, assumption 8. -/

namespace Sys2Proof.Machine

/-- Write one byte of the SELECT frame `FB` (R100). -/
def setFrameByte (i : Nat) (b : Byte) : Eng Unit := modify fun s =>
  { s with buf := { s.buf with fb := s.buf.fb.setIfInBounds i b } }

/-- Write a PCD command opcode to the command register: `MemWrite(A_COMMAND, 1, [zext_8(opcode)])` (R32, R94). -/
def sendCommand (cmd : BitVec 4) : Eng Unit := do
  regWrite (← get).cfg.aCommand (commandByte cmd)

/-- `ADDR_READ a`: one read-address byte appended to the write buffer (R91, R132, R138). -/
def execAddrRead (a : Addr) (s : State) : Host.Outcome State Fault Refusal :=
  .next (runOp (.addrRead a) 91 (writeByte (encodeRead a)) s)

/-- `ADDR_WRITE a`: one write-address byte appended to the write buffer (R91, R132, R139). -/
def execAddrWrite (a : Addr) (s : State) : Host.Outcome State Fault Refusal :=
  .next (runOp (.addrWrite a) 91 (writeByte (encodeWrite a)) s)

/-- `CMD_IDLE` (R94). -/
def execCmdIdle (s : State) : Host.Outcome State Fault Refusal := .next (runOp .cmdIdle 94 (sendCommand s.cfg.cmdIdle) s)

/-- `CMD_MEM` (R94). -/
def execCmdMem (s : State) : Host.Outcome State Fault Refusal := .next (runOp .cmdMem 94 (sendCommand s.cfg.cmdMem) s)

/-- `CMD_GENRANDOMID` (R94). -/
def execCmdGenRandomId (s : State) : Host.Outcome State Fault Refusal :=
  .next (runOp .cmdGenRandomId 94 (sendCommand s.cfg.cmdGenRandomId) s)

/-- `CMD_CALCCRC` (R94). -/
def execCmdCalcCrc (s : State) : Host.Outcome State Fault Refusal :=
  .next (runOp .cmdCalcCrc 94 (sendCommand s.cfg.cmdCalcCrc) s)

/-- `CMD_TRANSMIT` (R94). -/
def execCmdTransmit (s : State) : Host.Outcome State Fault Refusal :=
  .next (runOp .cmdTransmit 94 (sendCommand s.cfg.cmdTransmit) s)

/-- `CMD_NOCMDCHANGE` (R94). -/
def execCmdNoCmdChange (s : State) : Host.Outcome State Fault Refusal :=
  .next (runOp .cmdNoCmdChange 94 (sendCommand s.cfg.cmdNoCmdChange) s)

/-- `CMD_RECEIVE` (R94). -/
def execCmdReceive (s : State) : Host.Outcome State Fault Refusal :=
  .next (runOp .cmdReceive 94 (sendCommand s.cfg.cmdReceive) s)

/-- `CMD_TRANSCEIVE` (R94). -/
def execCmdTransceive (s : State) : Host.Outcome State Fault Refusal :=
  .next (runOp .cmdTransceive 94 (sendCommand s.cfg.cmdTransceive) s)

/-- `CMD_MFAUTHENT` (R94). -/
def execCmdMfAuthent (s : State) : Host.Outcome State Fault Refusal :=
  .next (runOp .cmdMfAuthent 94 (sendCommand s.cfg.cmdMfAuthent) s)

/-- `CMD_SOFTRESET` (R94). -/
def execCmdSoftReset (s : State) : Host.Outcome State Fault Refusal :=
  .next (runOp .cmdSoftReset 94 (sendCommand s.cfg.cmdSoftReset) s)

/-- `REQA`: the exchange of the short frame (R101, R202). -/
def execReqa (s : State) : Host.Outcome State Fault Refusal := .next (runProtocol .reqa 101 (shortFrame s.cfg.piccReqa) s)

/-- `WUPA`: the exchange of the short frame (R101, R202). -/
def execWupa (s : State) : Host.Outcome State Fault Refusal := .next (runProtocol .wupa 101 (shortFrame s.cfg.piccWupa) s)

/-- `SEL_CL1`: `FB[0]` of level 1 (R100, R207). -/
def execSelCl1 (s : State) : Host.Outcome State Fault Refusal :=
  .next (runOp .selCl1 100 (setFrameByte 0 (selOpcode s.cfg 1)) s)

/-- `SEL_CL2`: `FB[0]` of level 2 (R100, R207). -/
def execSelCl2 (s : State) : Host.Outcome State Fault Refusal :=
  .next (runOp .selCl2 100 (setFrameByte 0 (selOpcode s.cfg 2)) s)

/-- `SEL_CL3`: `FB[0]` of level 3 (R100, R207). -/
def execSelCl3 (s : State) : Host.Outcome State Fault Refusal :=
  .next (runOp .selCl3 100 (setFrameByte 0 (selOpcode s.cfg 3)) s)

/-- `CT`: `FB[2]`, the cascade tag (R97, R100, R208). -/
def execCascadeTag (s : State) : Host.Outcome State Fault Refusal :=
  .next (runOp .cascadeTag 97 (setFrameByte 2 cascadeTagByte) s)

/-- `NVB_FULL`: `FB[1]` of a full-select frame (R97, R212). -/
def execNvbFull (s : State) : Host.Outcome State Fault Refusal :=
  .next (runOp .nvbFull 99 (setFrameByte 1 nvbFullByte) s)

/-- `NVB_ANTICOLL`: `FB[1]` of an anti-collision frame (R99, R213). -/
def execNvbAnticoll (byteCount : BitVec 4) (bitCount : BitVec 3) (s : State) : Host.Outcome State Fault Refusal :=
  .next (runOp (.nvbAnticoll byteCount bitCount) 99 (setFrameByte 1 (nvbByte byteCount bitCount)) s)

end Sys2Proof.Machine
end

