-- ==== Sys2Proof/Machine/Lifecycle.lean ====
section
/-! DEFINITION. Reset and teardown as host operations (70_reset_and_hazards.md R310 to R315). -/

namespace Sys2Proof.Machine

/-- `RESET` is accepted in IDLE, FATAL and TORN_DOWN (R310). -/
def acceptsReset : OpState → Bool
  | .idle | .fatal | .tornDown => true
  | .busy _ _ => false

/-- `RESET` (R310, R311). -/
def execReset (s : State) : Host.Outcome State Fault Refusal :=
  .next (if acceptsReset s.opState then s.resetSequence else s)

/-- `TEARDOWN` (R315): accepted in IDLE; every register keeps its value. -/
def execTeardown (s : State) : Host.Outcome State Fault Refusal :=
  .next (if s.opState = .idle then { s with opState := .tornDown } else s)

end Sys2Proof.Machine
end

