-- ==== Sys2Proof/Machine/Register.lean ====
section
/-! DEFINITION. The six register operations as host operations (40_register_transceiver.md R137 to R142): the engine's loads
and stores. None has an outcome (R130). -/

namespace Sys2Proof.Machine

/-- `REG_READ a` (R137): the byte goes to `RXB[0]`. -/
def execRegRead (a : Addr) (s : State) : Host.Outcome State Fault Refusal :=
  .next (runOp (.regRead a) 137 (do setRxb [← regRead a]) s)

/-- `REG_READ_N a n` (R138): the bytes go to `RXB[0..n-1]`. -/
def execRegReadN (a : Addr) (n : BitVec 7) (s : State) : Host.Outcome State Fault Refusal :=
  .next (runOp (.regReadN a n) 138 (do setRxb (← regReadN a n.toNat)) s)

/-- `REG_WRITE a v` (R140). -/
def execRegWrite (a : Addr) (v : Byte) (s : State) : Host.Outcome State Fault Refusal :=
  .next (runOp (.regWrite a v) 140 (regWrite a v) s)

/-- `REG_WRITE_N a` (R139): the data are `TXB[0..tx_len-1]`. -/
def execRegWriteN (a : Addr) (s : State) : Host.Outcome State Fault Refusal :=
  .next (runOp (.regWriteN a) 139 (regWriteN a (txData s)) s)

/-- `REG_SET_BITS a v` (R141). -/
def execRegSetBits (a : Addr) (v : Byte) (s : State) : Host.Outcome State Fault Refusal :=
  .next (runOp (.regSetBits a v) 141 (regSetBits a v) s)

/-- `REG_CLEAR_BITS a v` (R142). -/
def execRegClearBits (a : Addr) (v : Byte) (s : State) : Host.Outcome State Fault Refusal :=
  .next (runOp (.regClearBits a v) 142 (regClearBits a v) s)

end Sys2Proof.Machine
end

