-- ==== Sys2Proof/Machine/Transaction.lean ====
section
/-! DEFINITION. The six transaction primitives as host operations (40_register_transceiver.md R131 to R136). None has an
outcome (R130). -/

namespace Sys2Proof.Machine

/-- `BEGIN` (R131). -/
def execBegin (s : State) : Host.Outcome State Fault Refusal := .next (runOp .beginTxn 131 begin_ s)

/-- `WRITE_BYTE b` (R132). -/
def execWriteByte (b : Byte) (s : State) : Host.Outcome State Fault Refusal :=
  .next (runOp (.writeByte b) 132 (writeByte b) s)

/-- `WRITE_BYTES` (R133): the slice is `TXB[0..tx_len-1]`. -/
def execWriteBytes (s : State) : Host.Outcome State Fault Refusal :=
  .next (runOp .writeBytes 133 (writeBytes (txData s)) s)

/-- `END` (R134). -/
def execEnd (s : State) : Host.Outcome State Fault Refusal := .next (runOp .endTxn 134 end_ s)

/-- `READ_BYTE` (R135): the byte goes to `RXB[0]`. -/
def execReadByte (s : State) : Host.Outcome State Fault Refusal :=
  .next (runOp .readByte 135 (do setRxb [← readByte]) s)

/-- `READ_BYTES n` (R136): the bytes go to `RXB[0..n-1]`. -/
def execReadBytes (n : BitVec 7) (s : State) : Host.Outcome State Fault Refusal :=
  .next (runOp (.readBytes n) 136 (do setRxb (← readBytes n.toNat)) s)

end Sys2Proof.Machine
end

