-- ==== Sys2Proof/Machine/Dispatch.lean ====
section
/-! DEFINITION. The dispatch: one arm per constructor of Instr, each one direct call of its meaning. -/

namespace Sys2Proof.Machine

/-- The meaning of an instruction in a state. -/
def exec (i : Instr) (s : State) : Host.Outcome State Fault Refusal :=
  match i with
  | .beginTxn => Sys2Proof.Machine.execBegin s
  | .writeByte b => Sys2Proof.Machine.execWriteByte b s
  | .writeBytes => Sys2Proof.Machine.execWriteBytes s
  | .endTxn => Sys2Proof.Machine.execEnd s
  | .readByte => Sys2Proof.Machine.execReadByte s
  | .readBytes n => Sys2Proof.Machine.execReadBytes n s
  | .regRead a => Sys2Proof.Machine.execRegRead a s
  | .regReadN a n => Sys2Proof.Machine.execRegReadN a n s
  | .regWrite a v => Sys2Proof.Machine.execRegWrite a v s
  | .regWriteN a => Sys2Proof.Machine.execRegWriteN a s
  | .regSetBits a v => Sys2Proof.Machine.execRegSetBits a v s
  | .regClearBits a v => Sys2Proof.Machine.execRegClearBits a v s
  | .computeCrc => Sys2Proof.Machine.execComputeCrc s
  | .communicate cmd waitMask validBits rxAlign checkCrc recvPresent recvCap => Sys2Proof.Machine.execCommunicate cmd waitMask validBits rxAlign checkCrc recvPresent recvCap s
  | .transceive validBits rxAlign checkCrc recvPresent recvCap => Sys2Proof.Machine.execTransceive validBits rxAlign checkCrc recvPresent recvCap s
  | .requestOrWakeup sel => Sys2Proof.Machine.execRequestOrWakeup sel s
  | .select kvb => Sys2Proof.Machine.execSelect kvb s
  | .isNewCardPresent => Sys2Proof.Machine.execIsNewCardPresent s
  | .readCardUid => Sys2Proof.Machine.execReadCardUid s
  | .reset => Sys2Proof.Machine.execReset s
  | .teardown => Sys2Proof.Machine.execTeardown s
  | .addrRead a => Sys2Proof.Machine.execAddrRead a s
  | .addrWrite a => Sys2Proof.Machine.execAddrWrite a s
  | .cmdIdle => Sys2Proof.Machine.execCmdIdle s
  | .cmdMem => Sys2Proof.Machine.execCmdMem s
  | .cmdGenRandomId => Sys2Proof.Machine.execCmdGenRandomId s
  | .cmdCalcCrc => Sys2Proof.Machine.execCmdCalcCrc s
  | .cmdTransmit => Sys2Proof.Machine.execCmdTransmit s
  | .cmdNoCmdChange => Sys2Proof.Machine.execCmdNoCmdChange s
  | .cmdReceive => Sys2Proof.Machine.execCmdReceive s
  | .cmdTransceive => Sys2Proof.Machine.execCmdTransceive s
  | .cmdMfAuthent => Sys2Proof.Machine.execCmdMfAuthent s
  | .cmdSoftReset => Sys2Proof.Machine.execCmdSoftReset s
  | .reqa => Sys2Proof.Machine.execReqa s
  | .wupa => Sys2Proof.Machine.execWupa s
  | .selCl1 => Sys2Proof.Machine.execSelCl1 s
  | .selCl2 => Sys2Proof.Machine.execSelCl2 s
  | .selCl3 => Sys2Proof.Machine.execSelCl3 s
  | .cascadeTag => Sys2Proof.Machine.execCascadeTag s
  | .nvbFull => Sys2Proof.Machine.execNvbFull s
  | .nvbAnticoll byteCount bitCount => Sys2Proof.Machine.execNvbAnticoll byteCount bitCount s

end Sys2Proof.Machine
end

