-- ==== Sys2Proof/Machine/HostPort.lean ====
section
/-! DEFINITION. The host operation port (00_scope.md R6, 10_state.md R24, R29, 30_encoding.md R108): the host's next action,
its register writes, and the request whose `op` is unassigned. -/

namespace Sys2Proof.Machine

/-- A write of the host to a register: only in IDLE (R24, R318, D23). -/
def hostWrite (w : HostWrite) (s : State) : State :=
  if s.opState = .idle then
    match w with
    | .uidByte i v => { s with uid := { s.uid with b := s.uid.b.set i v } }
    | .uidSize v => { s with uid := { s.uid with size := v } }
    | .uidSak v => { s with uid := { s.uid with sak := v } }
    | .txByte i v => { s with hostBuf := { s.hostBuf with txb := s.hostBuf.txb.set i v } }
    | .txLen n => { s with hostBuf := { s.hostBuf with txLen := n } }
    | .rxByte i v => { s with hostBuf := { s.hostBuf with rxb := s.hostBuf.rxb.set i v } }
  else s

/-- A request whose `op` is unassigned: `return Invalid`, nothing else (R108, R279); not accepted outside IDLE. -/
def invalidRequest (s : State) : State :=
  if s.opState = .idle then { s with flags := { s.flags with outcome := .invalid } } else s

/-- The state with the host's next action taken from its port. A request that is not accepted is taken all the same: it
has no effect (R315, V70-3, V70-4). -/
def State.popHost (s : State) : State := { s with inp := { s.inp with host := s.inp.host.tail } }

/-- The state in which the host's next action is this one, before all the others. -/
def State.pushHost (a : HostAction) (s : State) : State := { s with inp := { s.inp with host := a :: s.inp.host } }

/-- A code that is nothing on its layer: a host word is the request with the unassigned `op` (R108); a bare byte that is no
code of layers 2 to 4 is refused. -/
def noInstruction (c : Code) (s : State) : Host.Outcome State Fault Refusal :=
  match c with
  | .host _ => .next (invalidRequest s)
  | .address _ | .command _ | .short _ | .frame _ => .refused .noSuchCode

end Sys2Proof.Machine
end

