-- ==== Sys2Proof/Machine/Step.lean ====
section
/-! DEFINITION. One step of the engine: it takes the host's next action at the host operation port and carries it out whole
(00_scope.md R6, 10_state.md R24, decision D30). There is no program counter and no fetch from memory (R24, R72). -/

namespace Sys2Proof.Machine

/-- One step. With nothing at the host port the engine does nothing (R313). -/
def step (s : State) : Host.Outcome State Fault Refusal :=
  match s.inp.host with
  | [] => .next s
  | .write w :: _ => .next (hostWrite w s.popHost)
  | .issue c :: _ =>
    match decode s.cfg c with
    | some i => exec i s.popHost
    | none => noInstruction c s.popHost

/-- The state in which the host's next action is to issue this word of the opcode table, on the layer
`codeOfTableWord` gives it. Nothing else changes. -/
def State.withFetchWord (s : State) (nbits w : Nat) : State := s.pushHost (.issue (codeOfTableWord s.cfg nbits w))

end Sys2Proof.Machine
end

