-- ==== Sys2Proof/Safety.lean ====
section
/-! DEFINITION. The terms claims use: an engine ready for a register access, the state after one whole transaction, the
invariant of every step, and what is unchanged when the command sequencer has worked. -/

namespace Sys2Proof.Machine

/-- The host may issue a request (R24) and has left no transaction open (R47, R316). -/
structure Ready (s : State) : Prop where
  idle : s.opState = .idle
  closed : s.txn.isOpen = false

/-- The state after `begin`, the bytes `w` written, `end` (R131 to R134), when no transaction was open: one exchange of
`w` on the bus, the answers in the read buffer, `txn_open = 0`, `txn_done = 1`. -/
def State.exchanged (w : List Byte) (s : State) : State :=
  { s with
    txn := { wb := writeAt s.txn.wb 0 w, rb := writeAt s.txn.rb 0 (s.inp.answer w.length),
             pos := Fin.ofNat 66 w.length, isOpen := false, done := true },
    inp := s.inp.afterAnswer w.length,
    out := { s.out with bus := s.out.bus ++ [⟨w, s.inp.answer w.length⟩] } }

/-- The bytes of a read frame of `n` data bytes from `a` (R92). -/
def readFrame (c : Config) (a : Addr) (n : Nat) : List Byte := List.replicate n (encodeRead a) ++ [c.dummy]

/-- The bytes of a write frame (R92). -/
def writeFrame (a : Addr) (data : List Byte) : List Byte := encodeWrite a :: data

/-- The state after whole transactions, one after the other (R69). -/
def State.exchangedAll (ws : List (List Byte)) (s : State) : State := ws.foldl (fun t w => t.exchanged w) s

/-- The frames of `reg_write_n(a, data)`: none when there is nothing to write (R139). -/
def dataFrames (a : Addr) (data : List Byte) : List (List Byte) := if data = [] then [] else [writeFrame a data]

/-- The data byte the next single-register read will bring back (R137). -/
def State.nextRead (s : State) : Byte := (s.inp.answer 2).getD 1 0

/-- The data byte that a single-register read brought back (R137). -/
def Exchange.data (e : Exchange) : Byte := e.received.getD 1 0

/-- The frames that start a `compute_crc` (R161). -/
def crcFrames (c : Config) (data : List Byte) : List (List Byte) :=
  [writeFrame c.aCommand [commandByte c.cmdIdle], writeFrame c.aDivIrq [c.divIrqCrc],
      writeFrame c.aFifoLevel [c.fifoFlush]]
    ++ dataFrames c.aFifoData data ++ [writeFrame c.aCommand [commandByte c.cmdCalcCrc]]

/-- The frames that read a CRC (R162, R163). -/
def crcResultFrames (c : Config) : List (List Byte) :=
  [writeFrame c.aCommand [commandByte c.cmdIdle], readFrame c c.aCrcResultL 1, readFrame c c.aCrcResultH 1]

/-- The frames of step 2 of a `communicate` (R168). -/
def commFrames (c : Config) (cmd : BitVec 4) (framing : Byte) (send : List Byte) : List (List Byte) :=
  [writeFrame c.aCommand [commandByte c.cmdIdle], writeFrame c.aComIrq [c.irqClearAll],
      writeFrame c.aFifoLevel [c.fifoFlush]]
    ++ dataFrames c.aFifoData send
    ++ [writeFrame c.aBitFraming [framing], writeFrame c.aCommand [commandByte cmd]]

/-- The frames of step 3, given the byte that its read brings back (R169). -/
def startFrames (c : Config) (cmd : BitVec 4) (v : Byte) : List (List Byte) :=
  if cmd = c.cmdTransceive then [readFrame c c.aBitFraming 1, writeFrame c.aBitFraming [v ||| c.startSend]] else []

/-- The exchanges of a poll loop (R162, R170, R286): reads of one register, at least one and at most one more than
`poll_expired()` is false for; every one but the last says "again"; the loop proceeds exactly when the last one says so, and
if the last one says "again" too then the budget has run out. -/
structure PollRun (c : Config) (a : Addr) (verdict : Byte → Poll) (granted : Nat) (proceed : Bool)
    (x : List Exchange) : Prop where
  sent : ∀ e ∈ x, e.sent = readFrame c a 1
  again : ∀ e ∈ x.dropLast, verdict e.data = .again
  last : ∃ e, x.getLast? = some e ∧ (proceed = true ↔ verdict e.data = .proceed) ∧
    (verdict e.data = .again → x.length = granted + 1)
  atMost : x.length ≤ granted + 1

/-- Between the two states exactly these exchanges were made, and the PCD's answers were taken in order, one for each byte
sent, none skipped (R60, R63, R69). -/
structure Made (s t : State) (x : List Exchange) : Prop where
  bus : t.out.bus = s.out.bus ++ x
  answers : x.flatMap Exchange.received = s.inp.answer (x.flatMap Exchange.sent).length
  lengths : ∀ e ∈ x, e.received.length = e.sent.length ∧ e.sent.length ≤ txnCap
  pcd : t.inp.pcd = s.inp.pcd.drop (x.flatMap Exchange.sent).length
  drawn : t.inp.pcdDrawn = s.inp.pcdDrawn + ((x.flatMap Exchange.sent).length - s.inp.pcd.length)

/-- Between the two states exactly these whole transactions were made, and nothing else was done: the time base was not asked,
no action of the host taken, the reset line not driven, no budget started, and no register but the transaction buffer (and
`op_state`) written. -/
structure Transacted (s t : State) (x : List Exchange) : Prop where
  made : Made s t x
  closed : t.txn.isOpen = false
  inputs : t.inp = { s.inp with pcd := t.inp.pcd, pcdDrawn := t.inp.pcdDrawn }
  record : t.out = { s.out with bus := t.out.bus }
  rest : t = { s with opState := t.opState, txn := t.txn, inp := t.inp, out := t.out }

/-- Exactly one answer of the time base was taken (R286). -/
def OneGrant (e f : Inputs) : Prop :=
  f.polls = e.polls.drop 1 ∧ f.pollsDrawn = e.pollsDrawn + (1 - e.polls.length) ∧ f.host = e.host

/-- The exchanges of a `compute_crc` over `d` that returned `Ok`, and the result that its last two brought back, low byte first
(R161 to R163). -/
def CrcExchanges (c : Config) (d : List Byte) (crc : Vector Byte 2) (x : List Exchange) : Prop :=
  ∃ setup polls e l h granted, x = setup ++ polls ++ [e, l, h]
    ∧ setup.map Exchange.sent = crcFrames c d
    ∧ PollRun c c.aDivIrq (crcPoll c) granted true polls
    ∧ [e, l, h].map Exchange.sent = crcResultFrames c
    ∧ crc = #v[l.data, h.data]

/-- What a `compute_crc` has done when it ends (R161 to R164). -/
structure CrcDone (d : List Byte) (s : State) (o : OpOutcome) (t : State) (x : List Exchange) : Prop where
  ends : o = .ok ∨ o = .timeout
  made : Made s t x
  exchanges : ∃ setup polls result, x = setup ++ polls ++ result
    ∧ setup.map Exchange.sent = crcFrames s.cfg d
    ∧ PollRun s.cfg s.cfg.aDivIrq (crcPoll s.cfg) s.inp.granted (o == .ok) polls
    ∧ polls.getLast?.map Exchange.data = some t.com.irqSample
    ∧ (o = .ok → ∃ e l h, result = [e, l, h] ∧ result.map Exchange.sent = crcResultFrames s.cfg
        ∧ t.buf.crc = #v[l.data, h.data])
    ∧ (o = .timeout → result = [] ∧ t.buf.crc = s.buf.crc)
  closed : t.txn.isOpen = false
  rest : t = { s with
    opState := t.opState, txn := t.txn, inp := t.inp, out := t.out, buf := ⟨s.buf.fb, s.buf.rsp, s.buf.atqa, t.buf.crc⟩,
    com := { s.com with irqSample := t.com.irqSample, budget := none } }
  grant : OneGrant s.inp t.inp
  line : t.out.line = s.out.line
  budgets : t.out.budgets = s.out.budgets ++ [tCrcMs]

/-- Steps 2 to 4 of a `communicate` (R168 to R170): the setup, the start of the transmission, the polls, of which the last is in
`irq_sample`; `proceed` says how the wait ended. -/
def CommWaited (a : CommArgs) (s t : State) (proceed : Bool) (x : List Exchange) : Prop :=
  ∃ setup start polls, x = setup ++ start ++ polls
    ∧ setup.map Exchange.sent = commFrames s.cfg a.cmd (framingByte a.rxAlign a.validBits) a.send
    ∧ start.map Exchange.sent = startFrames s.cfg a.cmd ((start.map Exchange.data).headD 0)
    ∧ PollRun s.cfg s.cfg.aComIrq (commPoll s.cfg a.waitMask) s.inp.granted proceed polls
    ∧ polls.getLast?.map Exchange.data = some t.com.irqSample

/-- Steps 5 to 9 of a `communicate` (R171 to R176, R283): the exchanges after the poll loop, the registers they leave, and
the bytes `data` that were received, by the outcome. A sample that no exchange of the outcome brings keeps its value. -/
def CommVerdict (a : CommArgs) (s : State) (o : OpOutcome) (t : State) (tail : List Exchange) (data : List Byte) : Prop :=
  match o with
  | .timeout => tail = [] ∧ t.com.errSample = s.com.errSample ∧ t.com.fifoN = s.com.fifoN
      ∧ data = [] ∧ t.com.bytesWritten = 0 ∧ t.com.validBits = a.validBits
  | .error => ∃ e, tail = [e] ∧ e.sent = readFrame s.cfg s.cfg.aError 1 ∧ t.com.errSample = e.data
      ∧ isErrorSample s.cfg e.data = true ∧ t.com.fifoN = s.com.fifoN
      ∧ data = [] ∧ t.com.bytesWritten = 0 ∧ t.com.validBits = a.validBits
  | .noRoom => ∃ e l, tail = [e, l] ∧ e.sent = readFrame s.cfg s.cfg.aError 1 ∧ t.com.errSample = e.data
      ∧ isErrorSample s.cfg e.data = false
      ∧ a.recvPresent = true ∧ l.sent = readFrame s.cfg s.cfg.aFifoLevel 1 ∧ t.com.fifoN = l.data
      ∧ a.recvCap.toNat < l.data.toNat
      ∧ data = [] ∧ t.com.bytesWritten = 0 ∧ t.com.validBits = a.validBits
  | .ok | .collision => ∃ e rest, tail = e :: rest ∧ e.sent = readFrame s.cfg s.cfg.aError 1 ∧ t.com.errSample = e.data
      ∧ isErrorSample s.cfg e.data = false ∧ isCollisionSample s.cfg e.data = (o == .collision)
      ∧ if a.recvPresent then
          ∃ l d c, rest = l :: d ++ [c] ∧ l.sent = readFrame s.cfg s.cfg.aFifoLevel 1 ∧ t.com.fifoN = l.data
            ∧ l.data.toNat ≤ a.recvCap.toNat ∧ l.data.toNat ≤ maxData
            ∧ d.map Exchange.sent = (if l.data.toNat = 0 then [] else [readFrame s.cfg s.cfg.aFifoData l.data.toNat])
            ∧ data = d.flatMap (fun e => e.received.drop 1) ∧ data.length = l.data.toNat
            ∧ t.com.bytesWritten.toNat = l.data.toNat
            ∧ c.sent = readFrame s.cfg s.cfg.aControl 1
            ∧ t.com.validBits = (c.data &&& s.cfg.rxLastBitsMask).setWidth 3
        else rest = [] ∧ t.com.fifoN = s.com.fifoN ∧ data = [] ∧ t.com.bytesWritten = 0 ∧ t.com.validBits = a.validBits
  | _ => False

/-- What a `communicate` has done when it ends (R165 to R177). -/
structure CommDone (a : CommArgs) (s : State) (o : OpOutcome) (t : State) (x : List Exchange) (data : List Byte) :
    Prop where
  made : Made s t x
  exchanges : ∃ waited tail, x = waited ++ tail ∧ CommWaited a s t (o != .timeout) waited ∧ CommVerdict a s o t tail data
  closed : t.txn.isOpen = false
  /-- nothing else changed than the receive window, and the sequencer's scalars -/
  rest : t = { a.recv.store (mergeFirst (a.recv.first s) a.rxAlign data) s with
    opState := t.opState, txn := t.txn, inp := t.inp, out := t.out, com := t.com }
  com : t.com = { s.com with
    cmd := a.cmd, waitMask := a.waitMask, rxAlign := a.rxAlign, checkCrc := a.checkCrc, recvPresent := a.recvPresent,
    recvCap := a.recvCap, bitFraming := framingByte a.rxAlign a.validBits, budget := none, validBits := t.com.validBits,
    bytesWritten := t.com.bytesWritten, irqSample := t.com.irqSample, errSample := t.com.errSample,
    fifoN := t.com.fifoN }
  grant : OneGrant s.inp t.inp
  line : t.out.line = s.out.line
  budgets : t.out.budgets = s.out.budgets ++ [tCommMs]

/-- What a `communicate` has done when it dies of `Overflow` (R138, R172): its last exchange is the read of the FIFO level, which is
above 64 and within the caller's capacity; no byte of the FIFO is read. -/
structure CommOverflow (a : CommArgs) (s t : State) (x : List Exchange) : Prop where
  made : Made s t x
  exchanges : ∃ waited e l, x = waited ++ [e, l] ∧ CommWaited a s t true waited
    ∧ e.sent = readFrame s.cfg s.cfg.aError 1 ∧ t.com.errSample = e.data ∧ isErrorSample s.cfg e.data = false
    ∧ l.sent = readFrame s.cfg s.cfg.aFifoLevel 1 ∧ t.com.fifoN = l.data
  present : a.recvPresent = true
  level : 64 < t.com.fifoN.toNat ∧ t.com.fifoN.toNat ≤ a.recvCap.toNat
  closed : t.txn.isOpen = false
  rest : t = { s with
    opState := .fatal, txn := t.txn, inp := t.inp, out := t.out, com := t.com,
    flags := { s.flags with fatal := true, fatalReason := .overflow } }
  com : t.com = { s.com with
    cmd := a.cmd, waitMask := a.waitMask, rxAlign := a.rxAlign, checkCrc := a.checkCrc, recvPresent := a.recvPresent,
    recvCap := a.recvCap, bitFraming := framingByte a.rxAlign a.validBits, budget := none, validBits := a.validBits,
    bytesWritten := 0, irqSample := t.com.irqSample, errSample := t.com.errSample, fifoN := t.com.fifoN }
  grant : OneGrant s.inp t.inp
  line : t.out.line = s.out.line
  budgets : t.out.budgets = s.out.budgets ++ [tCommMs]

/-- The operands with which `transceive` calls `communicate` (R178). -/
def CommArgs.transceive (c : Config) (a : CommArgs) : CommArgs :=
  { a with cmd := c.cmdTransceive, waitMask := c.irqRx ||| c.irqIdle }

/-- The operands of the exchange of a short frame (R202). -/
def shortArgs (c : Config) (op : BitVec 7) : CommArgs :=
  (innerArgs [op.setWidth 8] .atqa (BitVec.ofNat 7 atqaLen) (BitVec.ofNat 3 shortFrameBits) 0).transceive c

/-- What a `request_or_wakeup` has done when it ends (R200 to R203): two transactions on the collision register and nothing
else, then the exchange of the short frame, then the classification. -/
def RequestDone (op : BitVec 7) (s : State) (o : OpOutcome) (t : State) (x : List Exchange) : Prop :=
  ∃ u r w y data inner, x = r :: w :: y
    ∧ r.sent = readFrame s.cfg s.cfg.aColl 1
    ∧ w.sent = writeFrame s.cfg.aColl [r.data &&& ~~~s.cfg.collClearMask]
    ∧ Transacted s u [r, w]
    ∧ CommDone (shortArgs s.cfg op) u inner t y data
    ∧ (inner ≠ .ok → o = inner)
    ∧ (inner = .ok → o = if t.com.bytesWritten.toNat = 2 ∧ t.com.validBits = 0 then .ok else .error)

/-- The operands of the exchange of a round: the frame `send`, the reply window, its capacity, and the bits of the last byte,
which are also where the first received byte is joined (R214, R215, with the command and the wait mask of R178). -/
def roundArgs (c : Config) (send : List Byte) (recv : Window) (cap : Nat) (txLast : BitVec 3) : CommArgs :=
  ⟨c.cmdTransceive, c.irqRx ||| c.irqIdle, send, true, recv, BitVec.ofNat 7 cap, txLast, txLast, false⟩

/-- Level `n` of a select was completed, by the exchanges `x`, and its UID bytes stand in `u` (R212, R219 to R222): a whole
full-select frame `f` of the level was loaded into the FIFO; the level's bytes are `f[3..5]` after a cascade tag below level 3, else
`f[2..4]`, at level 3 also `f[5]` (below it the next level begins at the fourth byte's place); and the PCD computed the CRC of a SAK
with the cascade bit. -/
def LevelCompleted (c : Config) (n : Nat) (u : Vector Byte 10) (x : List Exchange) : Prop :=
  ∃ f : List Byte, f.length = 9 ∧ writeFrame c.aFifoData f ∈ x.map Exchange.sent
    ∧ f.getD 0 0 = (if n = 1 then c.piccSelCl1 else if n = 2 then c.piccSelCl2 else c.piccSelCl3)
    ∧ f.getD 1 0 = 0x70
    ∧ f.getD 6 0 = f.getD 2 0 ^^^ f.getD 3 0 ^^^ f.getD 4 0 ^^^ f.getD 5 0
    ∧ (∀ j, j < (if n = 3 then 4 else 3) →
        byteAt u (3 * (n - 1) + j) = f.getD ((if n < 3 ∧ f.getD 2 0 = 0x88 then 3 else 2) + j) 0)
    ∧ ∃ sak crc y, sak &&& 0x04 ≠ 0 ∧ y <:+: x ∧ CrcExchanges c [sak] crc y

/-- `SELECT` with a legal claim, or `READ_CARD_UID`, which is `SELECT` with the claim 0 (R206, R227). -/
def RunsSelect (i : Instr) (kvb : Byte) : Prop := (i = .select kvb ∧ kvb.toNat ≤ kvbMax) ∨ (i = .readCardUid ∧ kvb = 0)

/-- The rounds of a level, from a state to the end of the level's rounds (R211, R216, R218): a full-select round when all 32 bits are
known, which ends them; else an anti-collision round, which ends them with an outcome, or goes on to the next round. The contents of
the two rounds: `AnticollisionRound`, `FullSelectRound`. -/
inductive RoundsRun : State → Option OpOutcome → State → Prop where
  | full {s r t} : 32 ≤ s.sel.knownBits.toNat → fullRound.run s = .ok r t → RoundsRun s r t
  | stop {s o t} : s.sel.knownBits.toNat < 32 → anticollRound.run s = .ok (some o) t → RoundsRun s (some o) t
  | again {s r t u} : s.sel.knownBits.toNat < 32 → anticollRound.run s = .ok none t → RoundsRun t r u → RoundsRun s r u

/-- The copy of a level's UID bytes (R219): after a cascade tag below level 3 the three bytes behind it, else all four, to the
level's place in `U.b`; nothing else changes. -/
def LevelCopied (level : Nat) (s t : State) : Prop :=
  let tag := level < 3 ∧ byteAt s.buf.fb 2 = 0x88
  let off := 3 * (level - 1)
  t = { s with opState := t.opState, uid := { s.uid with b := t.uid.b } }
    ∧ ∀ j, byteAt t.uid.b j =
      if off ≤ j ∧ j < off + (if tag then 3 else 4) then byteAt s.buf.fb ((if tag then 3 else 2) + (j - off))
      else byteAt s.uid.b j

/-- A level whose rounds brought a response: the setup (R207 to R210), the rounds (R211 to R218), the copy (R219). -/
def LevelResolved (level : Nat) (s t : State) : Prop :=
  ∃ u v, (levelSetup level).run s = .ok () u ∧ RoundsRun u none v ∧ LevelCopied level v t

/-- `select` from the beginning of a level (R207 to R224): a fourth level is `InternalError`, with nothing done (R223); else the level
ends with an outcome of its rounds (R216, R217, R212), or of the verification of the response (R220, R221; its content:
`SelectVerifiesTheResponse`), or its SAK has the cascade bit and the next level follows (R222), or the UID is complete, `Ok`. -/
inductive LevelsRun : Nat → State → OpOutcome → State → Prop where
  | fourth {s} : LevelsRun 4 s .internalError s
  | rounds {level s u o t} : level ≤ 3 → (levelSetup level).run s = .ok () u → RoundsRun u (some o) t → LevelsRun level s o t
  | response {level s u o t} : level ≤ 3 → LevelResolved level s u → verifyResponse.run u = .ok (some o) t →
      LevelsRun level s o t
  | next {level s u v w o t} : level ≤ 3 → LevelResolved level s u → verifyResponse.run u = .ok none v →
      byteAt v.buf.rsp 0 &&& 0x04 ≠ 0 →
      w = { v with opState := w.opState, sel := { v.sel with level := BitVec.ofNat 3 (level + 1) } } →
      LevelsRun (level + 1) w o t → LevelsRun level s o t
  | complete {level s u v t} : level ≤ 3 → LevelResolved level s u → verifyResponse.run u = .ok none v →
      byteAt v.buf.rsp 0 &&& 0x04 = 0 →
      t = { v with
        opState := t.opState, uid := { v.uid with sak := byteAt v.buf.rsp 0, size := BitVec.ofNat 4 (3 * level + 1) } } →
      LevelsRun level s .ok t

/-- The requests that reach their first register operation, with operands that pass the checks at entry
(R138, R139, R164, R166, R206). -/
def ReachesTransport (i : Instr) (s : State) : Prop :=
  match i with
  | .regRead _ | .regWrite _ _ | .regSetBits _ _ | .regClearBits _ _ => True
  | .regReadN _ n => 1 ≤ n.toNat ∧ n.toNat ≤ maxData
  | .regWriteN _ => 1 ≤ s.hostBuf.txLen.val ∧ s.hostBuf.txLen.val ≤ maxData
  | .computeCrc => s.hostBuf.txLen.val ≤ maxData
  | .communicate _ _ _ _ checkCrc _ _ | .transceive _ _ checkCrc _ _ =>
    checkCrc = false ∧ s.hostBuf.txLen.val ≤ maxData
  | .select kvb => kvb.toNat ≤ kvbMax
  | .requestOrWakeup _ | .isNewCardPresent | .readCardUid => True
  | .cmdIdle | .cmdMem | .cmdGenRandomId | .cmdCalcCrc | .cmdTransmit | .cmdNoCmdChange | .cmdReceive | .cmdTransceive
  | .cmdMfAuthent | .cmdSoftReset | .reqa | .wupa => True
  | .beginTxn | .writeByte _ | .writeBytes | .endTxn | .readByte | .readBytes _ | .reset | .teardown | .addrRead _
  | .addrWrite _ | .selCl1 | .selCl2 | .selCl3 | .cascadeTag | .nvbFull | .nvbAnticoll _ _ => False

/-- The opcode that a code of the PCD's command set stands for (R94). -/
def commandOpcode (c : Config) : Instr → Option (BitVec 4)
  | .cmdIdle => some c.cmdIdle
  | .cmdMem => some c.cmdMem
  | .cmdGenRandomId => some c.cmdGenRandomId
  | .cmdCalcCrc => some c.cmdCalcCrc
  | .cmdTransmit => some c.cmdTransmit
  | .cmdNoCmdChange => some c.cmdNoCmdChange
  | .cmdReceive => some c.cmdReceive
  | .cmdTransceive => some c.cmdTransceive
  | .cmdMfAuthent => some c.cmdMfAuthent
  | .cmdSoftReset => some c.cmdSoftReset
  | _ => none

/-- The place in `FB` and the byte that a code of a SELECT frame stands for (R97, R99, R100). -/
def frameByte (c : Config) : Instr → Option (Fin 9 × Byte)
  | .selCl1 => some (0, c.piccSelCl1)
  | .selCl2 => some (0, c.piccSelCl2)
  | .selCl3 => some (0, c.piccSelCl3)
  | .cascadeTag => some (2, 0x88)
  | .nvbFull => some (1, 0x70)
  | .nvbAnticoll byteCount bitCount => some (1, BitVec.ofNat 8 (16 * byteCount.toNat + bitCount.toNat))
  | _ => none

/-- Bit `p` (1 to 32) of a level's four data bytes (R205). -/
def levelBit (fb : Vector Byte 9) (p : Nat) : Bool := (byteAt fb (2 + (p - 1) / 8)).getLsbD ((p - 1) % 8)

/-- Bit `k` of the UID file, counted from bit 0 of `U.b[0]` (R64, R65). -/
def uidBit (u : Vector Byte 10) (k : Nat) : Bool := (byteAt u (k / 8)).getLsbD (k % 8)

/-- `return o` (R270): the state after a sequence that ended in the state `u`. -/
def State.returned (o : OpOutcome) (u : State) : State :=
  { u with opState := .idle, flags := { u.flags with outcome := o } }

/-- The operand bits that the format of an operation has (R106); an unassigned `op` has none. -/
def operandMask (op : BitVec 5) : BitVec 27 :=
  match op.toNat with
  | 0x01 | 0x19 => 0xFF
  | 0x05 => 0x7F
  | 0x08 | 0x0B => 0x3F
  | 0x09 => 0x7F3F
  | 0x0A | 0x0C | 0x0D => 0xFF3F
  | 0x11 => 0x7FFFFFF
  | 0x12 => 0x7FFF000
  | 0x18 => 0x1
  | _ => 0

/-- The values of `op` that are unassigned (R106, R108). -/
def unassignedOps : List Nat := [0x06, 0x07, 0x0E, 0x0F, 0x13, 0x14, 0x15, 0x16, 0x17, 0x1C, 0x1D]

/-- Every register of the engine has its reset value, row by row of the table of R45. -/
structure AtReset (t : State) : Prop where
  uid : (∀ j, byteAt t.uid.b j = 0) ∧ t.uid.size = 0 ∧ t.uid.sak = 0
  buffers : ∀ j, byteAt t.buf.fb j = 0 ∧ byteAt t.buf.rsp j = 0 ∧ byteAt t.buf.atqa j = 0 ∧ byteAt t.buf.crc j = 0
  data : ∀ j, byteAt t.txn.wb j = 0 ∧ byteAt t.txn.rb j = 0 ∧ byteAt t.hostBuf.txb j = 0 ∧ byteAt t.hostBuf.rxb j = 0
  lengths : t.txn.pos.val = 0 ∧ t.hostBuf.txLen.val = 0
  txn : t.txn.isOpen = false ∧ t.txn.done = false
  opState : t.opState = .idle
  sel : t.sel.kvb = 0 ∧ t.sel.level = 0 ∧ t.sel.off = 0 ∧ t.sel.useCt = false ∧ t.sel.knownBits = 0 ∧ t.sel.txLast = 0
    ∧ t.sel.idx = 0 ∧ t.sel.sendLen = 0
  com : t.com.cmd = 0 ∧ t.com.waitMask = 0 ∧ t.com.rxAlign = 0 ∧ t.com.validBits = 0 ∧ t.com.bitFraming = 0
    ∧ t.com.checkCrc = false ∧ t.com.recvPresent = false ∧ t.com.recvCap = 0 ∧ t.com.bytesWritten = 0
    ∧ t.com.irqSample = 0 ∧ t.com.errSample = 0 ∧ t.com.fifoN = 0 ∧ t.com.budget = none
  col : t.col.sample = 0 ∧ t.col.pos = 0
  flags : t.flags.outcome = .ok ∧ t.flags.fatal = false ∧ t.flags.fatalReason = .none ∧ t.flags.present = false
  line : t.resetLine = true

/-- Registers that have the same writers (the "written by" of 10_state.md R21 to R30). -/
inductive Group where
  | uid | fb | rsp | atqa | crc | txn | sel | com | col | outcome | present | fatal | operands | rxb | line
deriving DecidableEq, Repr

/-- The registers of the group have the same values in both states. -/
def Group.same (g : Group) (s t : State) : Prop :=
  match g with
  | .uid => t.uid = s.uid
  | .fb => t.buf.fb = s.buf.fb
  | .rsp => t.buf.rsp = s.buf.rsp
  | .atqa => t.buf.atqa = s.buf.atqa
  | .crc => t.buf.crc = s.buf.crc
  | .txn => t.txn = s.txn
  | .sel => t.sel = s.sel
  | .com => t.com = s.com
  | .col => t.col = s.col
  | .outcome => t.flags.outcome = s.flags.outcome
  | .present => t.flags.present = s.flags.present
  | .fatal => t.flags.fatal = s.flags.fatal ∧ t.flags.fatalReason = s.flags.fatalReason
  | .operands => t.hostBuf.txb = s.hostBuf.txb ∧ t.hostBuf.txLen = s.hostBuf.txLen
  | .rxb => t.hostBuf.rxb = s.hostBuf.rxb
  | .line => t.resetLine = s.resetLine ∧ t.out.line = s.out.line

/-- The groups an instruction may write (R21 to R30, R278; for the codes of layers 2 to 4 the model's choice, assumption 8). `RESET`
writes all of them. -/
def writes : Instr → List Group
  | .beginTxn | .writeByte _ | .writeBytes | .endTxn | .addrRead _ | .addrWrite _ => [.txn, .fatal]
  | .readByte | .readBytes _ => [.rxb, .fatal]
  | .regRead _ | .regReadN _ _ => [.txn, .rxb, .fatal]
  | .regWrite _ _ | .regWriteN _ | .regSetBits _ _ | .regClearBits _ _ => [.txn, .fatal]
  | .computeCrc => [.txn, .com, .crc, .outcome, .fatal]
  | .communicate _ _ _ _ _ _ _ | .transceive _ _ _ _ _ => [.txn, .com, .rxb, .outcome, .fatal]
  | .requestOrWakeup _ | .reqa | .wupa => [.txn, .com, .atqa, .outcome, .fatal]
  | .isNewCardPresent => [.txn, .com, .atqa, .present, .outcome, .fatal]
  | .select _ => [.txn, .com, .uid, .fb, .rsp, .crc, .sel, .col, .outcome, .fatal]
  | .readCardUid => [.txn, .com, .uid, .fb, .rsp, .crc, .sel, .col, .present, .outcome, .fatal]
  | .reset =>
    [.uid, .fb, .rsp, .atqa, .crc, .txn, .sel, .com, .col, .outcome, .present, .fatal, .operands, .rxb, .line]
  | .teardown => []
  | .cmdIdle | .cmdMem | .cmdGenRandomId | .cmdCalcCrc | .cmdTransmit | .cmdNoCmdChange | .cmdReceive | .cmdTransceive
  | .cmdMfAuthent | .cmdSoftReset => [.txn, .fatal]
  | .selCl1 | .selCl2 | .selCl3 | .cascadeTag | .nvbFull | .nvbAnticoll _ _ => [.fb]

/-- What holds in every state between two steps, whatever the host and the PCD do: the relations and ranges of
10_state.md R23, R25 to R27, R47, of the fatal flag (R278), of the reset line (R311), of the outcomes ever produced
(R273), and of the transport (R60, R75). -/
structure Inv (s : State) : Prop where
  /-- `txn_open = 1` implies `txn_done = 0` (R23) -/
  openNotDone : s.txn.isOpen = true → s.txn.done = false
  /-- no operation is half done between steps (decision D30) -/
  notBusy : ∀ i r, s.opState ≠ .busy i r
  /-- the flag `fatal` is the state `FATAL` (R278) -/
  fatalState : s.flags.fatal = true ↔ s.opState = .fatal
  /-- and then it has a reason (R107) -/
  fatalReason : s.flags.fatal = true ↔ s.flags.fatalReason ≠ .none
  /-- `MifareNack` is never produced (R273) -/
  noMifareNack : s.flags.outcome ≠ .mifareNack
  /-- `known_bits <= 32` (R25, R47) -/
  knownBits : s.sel.knownBits.toNat ≤ levelBits
  /-- `level` is 0 before the first select, then 1 to 4 (R25) -/
  level : s.sel.level.toNat ≤ 4
  /-- `off` is 0, 3 or 6 (R25) -/
  off : s.sel.off.toNat = 0 ∨ s.sel.off.toNat = 3 ∨ s.sel.off.toNat = 6
  /-- `idx` is 2 to 5, and 0 from reset to the first anti-collision round (R25, R45) -/
  idx : s.sel.idx.toNat = 0 ∨ 2 ≤ s.sel.idx.toNat ∧ s.sel.idx.toNat ≤ 5
  /-- `send_len` is 2 to 6 or 9, and 0 from reset to the first round (R25, R45) -/
  sendLen : s.sel.sendLen.toNat = 0 ∨ 2 ≤ s.sel.sendLen.toNat ∧ s.sel.sendLen.toNat ≤ 6 ∨ s.sel.sendLen.toNat = 9
  /-- `coll_pos <= 32` (R27) -/
  collPos : s.col.pos.toNat ≤ levelBits
  /-- `bytes_written <= 64` (R26) -/
  bytesWritten : s.com.bytesWritten.toNat ≤ maxData
  /-- bits 7 and 3 of `bit_framing` are 0 (R98) -/
  bitFraming : s.com.bitFraming &&& 0x88 = 0
  /-- no budget runs while the engine is idle (R286) -/
  budget : s.opState = .idle → s.com.budget = none
  /-- the reset line is high (R311) -/
  lineHigh : s.resetLine = true
  /-- every exchange brings back as many bytes as it sends, at most 65 (R60, R75) -/
  bus : ∀ e ∈ s.out.bus, e.received.length = e.sent.length ∧ e.sent.length ≤ txnCap
  /-- there are two budgets, 26 and 89 milliseconds (R286) -/
  budgets : ∀ ms ∈ s.out.budgets, ms = 26 ∨ ms = 89

/-- Outcomes a `communicate` can return (R165). -/
def commOutcomes : List OpOutcome := [.ok, .timeout, .error, .noRoom, .collision]

end Sys2Proof.Machine
end

