-- ==== Sys2Proof/Certificates/Slice0/Obligations.lean ====
section
/-! DEFINITION. The statements. Each is a proposition over the model; its docstring names the rules of spec/ it formalises.
`Ready s` is an engine that is idle with no transaction left open; every statement under it holds for every register
content, every configuration and every list of the PCD's answers. Where a statement speaks of the model's own choice it
says so and names the log entry. -/

section
open Sys2Proof Sys2Proof.Machine

/-! ### Encodings -/

/-- Decoding an encoded instruction gives it back, for every well-formed instruction with every operand value, in every
configuration whose codes are distinct (R90, R91, R94, R96, R97, R99, R106). -/
def Obligations.DecodeEncodeRoundTrip : Prop :=
  ∀ (c : Config) (i : Instr), c.codesDistinct = true → i.wf = true → decode c (encode c i) = some i

/-- What decodes is well formed and is the instruction's own code: on layers 2 to 4 bit for bit, on layer 1 in the bits of
`op` (the operand bits: `UnusedOperandBitsAreIgnored` and the round trip). -/
def Obligations.EncodeDecodeRoundTrip : Prop :=
  ∀ (c : Config) (k : Code) (i : Instr), decode c k = some i →
    i.wf = true ∧ match k with
      | .host w => ∃ x, encode c i = .host (hostWord (w.extractLsb' 27 5) x)
      | k => encode c i = k

/-- Operand bits that an operation's format does not use are ignored (R106). -/
def Obligations.UnusedOperandBitsAreIgnored : Prop :=
  ∀ (op : BitVec 5) (x y : BitVec 27), x &&& operandMask op = y &&& operandMask op →
    decodeHost (hostWord op x) = decodeHost (hostWord op y)

/-- The address byte (R91): the number of both encodings for every 6-bit address, and what decoding reads. -/
def Obligations.AddressByte : Prop :=
  ∀ a : Addr,
    (encodeRead a).toNat = 2 * a.toNat + 0x80 ∧ (encodeWrite a).toNat = 2 * a.toNat
    ∧ addrField (encodeRead a) = a ∧ addrField (encodeWrite a) = a
    ∧ modeField (encodeRead a) = true ∧ modeField (encodeWrite a) = false
    ∧ decodeAddress (encodeRead a) = some (.addrRead a) ∧ decodeAddress (encodeWrite a) = some (.addrWrite a)

/-- The bit-framing byte (R98): its number, its two fields, and its two zero bits. -/
def Obligations.BitFramingByte : Prop :=
  ∀ rxAlign validBits : BitVec 3,
    (framingByte rxAlign validBits).toNat = 16 * rxAlign.toNat + validBits.toNat
    ∧ (framingByte rxAlign validBits).extractLsb' 4 3 = rxAlign
    ∧ (framingByte rxAlign validBits).extractLsb' 0 3 = validBits
    ∧ (framingByte rxAlign validBits).getLsbD 7 = false ∧ (framingByte rxAlign validBits).getLsbD 3 = false

/-- Words written out from the tables of R91, R94, R96, R97, R99 and R106 decode to the instructions they stand for. -/
def Obligations.SampleWordsDecode : Prop :=
  decode Config.mfrc522 (.host 0x00000000) = some .beginTxn
  ∧ decode Config.mfrc522 (.host 0x08000082) = some (.writeByte 0x82)
  ∧ decode Config.mfrc522 (.host 0x48000209) = some (.regReadN 0x09 2)
  ∧ decode Config.mfrc522 (.host 0x6000800D) = some (.regSetBits 0x0D 0x80)
  ∧ decode Config.mfrc522 (.host 0x8828730C) = some (.communicate 0xC 0x30 7 0 false true 2)
  ∧ decode Config.mfrc522 (.host 0xC8000050) = some (.select 80)
  ∧ decode Config.mfrc522 (.host 0xF8000000) = some .teardown
  ∧ decode Config.mfrc522 (.address 0x92) = some (.addrRead 0x09)
  ∧ decode Config.mfrc522 (.command 0x0C) = some .cmdTransceive
  ∧ decode Config.mfrc522 (.short 0x52) = some .wupa
  ∧ decode Config.mfrc522 (.frame 0x41) = some (.nvbAnticoll 4 1)

/-- The outcome codes (R105) and the fatal reason codes (R107). -/
def Obligations.OutcomeAndReasonCodes : Prop :=
  [OpOutcome.ok, .noRoom, .mifareNack, .collision, .crcMismatch, .timeout, .error, .invalid, .internalError].map
      OpOutcome.code = [0, 1, 2, 3, 4, 5, 6, 7, 8]
  ∧ [FatalReason.none, .beginWhileOpen, .writeWhileClosed, .endWhileClosed, .readBeforeEnd, .overflow, .readTooLong,
      .unsupported].map FatalReason.code = [0, 1, 2, 3, 4, 5, 6, 7]

/-! ### The step and the host port -/

/-- A step runs the decoded instruction, on the state whose host queue has lost the code just issued. The queue is the
model's form of the host operation port (assumption 10). -/
def Obligations.StepRunsTheDecodedInstruction : Prop :=
  ∀ (s : State) (k : Code) (rest : List HostAction) (i : Instr), s.inp.host = .issue k :: rest →
    decode s.cfg k = some i → step s = exec i { s with inp := { s.inp with host := rest } }

/-- The engine does nothing until the host issues a request (R313). -/
def Obligations.NothingWithoutARequest : Prop := ∀ s : State, s.inp.host = [] → step s = .next s

/-- The word in the fetch place is what the next step runs: `withFetchWord` and `decodeTableWord` agree, in every state with
the default configuration (assumption 10). -/
def Obligations.FetchWordRuns : Prop :=
  ∀ (s : State) (nbits w : Nat) (i : Instr), s.cfg = Config.mfrc522 → decodeTableWord nbits w = some i →
    step (s.withFetchWord nbits w) = exec i s

/-- Every host request word, assigned or not (R106, R108), has a step with a next state. Two clauses of this are the model's
choice: that a fatal failure (R278: the run ends there) is a next state, in `FATAL` (assumption 5), and that the request,
accepted or not, leaves the host's queue (assumption 6). -/
def Obligations.EveryRequestHasAStep : Prop :=
  ∀ (s : State) (w : HostWord) (rest : List HostAction), s.inp.host = .issue (.host w) :: rest →
    ∃ t, step s = .next t ∧ t.inp.host = rest

/-- A byte that is no code of its layer is refused by name; this is the only refusal (R91, R94, R96, R97, R99; assumption 8). -/
def Obligations.OnlyUnknownBytesAreRefused : Prop :=
  ∀ (s : State) (r : Refusal), step s = .refused r →
    r = .noSuchCode ∧ ∃ k rest, s.inp.host = .issue k :: rest ∧ decode s.cfg k = none ∧ ∀ w, k ≠ .host w

/-- A host write in `IDLE` writes the register it names and nothing else (R21, R29, R318). -/
def Obligations.HostWritesInIdle : Prop :=
  ∀ (s : State) (w : HostWrite) (rest : List HostAction), s.opState = .idle → s.inp.host = .write w :: rest →
    step s = .next (match w with
      | .uidByte i v => { s with inp := { s.inp with host := rest }, uid := { s.uid with b := s.uid.b.set i v } }
      | .uidSize v => { s with inp := { s.inp with host := rest }, uid := { s.uid with size := v } }
      | .uidSak v => { s with inp := { s.inp with host := rest }, uid := { s.uid with sak := v } }
      | .txByte i v =>
        { s with inp := { s.inp with host := rest }, hostBuf := { s.hostBuf with txb := s.hostBuf.txb.set i v } }
      | .txLen n => { s with inp := { s.inp with host := rest }, hostBuf := { s.hostBuf with txLen := n } }
      | .rxByte i v =>
        { s with inp := { s.inp with host := rest }, hostBuf := { s.hostBuf with rxb := s.hostBuf.rxb.set i v } })

/-- Outside `IDLE` a host write has no effect (R24, R318); it is taken from the queue (assumption 6). -/
def Obligations.HostWritesOnlyInIdle : Prop :=
  ∀ (s : State) (w : HostWrite) (rest : List HostAction), s.opState ≠ .idle → s.inp.host = .write w :: rest →
    step s = .next { s with inp := { s.inp with host := rest } }

/-- Outside `IDLE` no request but `RESET` has any effect (R106, R278, R315, R318). -/
def Obligations.RequestsOnlyInIdle : Prop :=
  ∀ (i : Instr) (s : State), s.opState ≠ .idle → i ≠ .reset → exec i s = .next s

/-- `Invalid` (R279): `SELECT` with `kvb > 80`, and every request word with one of the eleven unassigned `op` values: only
`outcome` changes, and no transaction is made. -/
def Obligations.InvalidRequests : Prop :=
  (∀ (s : State) (kvb : Byte), s.opState = .idle → 80 < kvb.toNat →
    exec (.select kvb) s = .next { s with flags := { s.flags with outcome := .invalid } })
  ∧ (∀ (s : State) (op : BitVec 5) (x : BitVec 27) (rest : List HostAction), s.opState = .idle → op.toNat ∈ unassignedOps →
    s.inp.host = .issue (.host (hostWord op x)) :: rest →
    step s = .next { s with inp := { s.inp with host := rest }, flags := { s.flags with outcome := .invalid } })

/-! ### Reset and teardown -/

/-- `RESET` in `IDLE`, `FATAL` and `TORN_DOWN` leaves every register at the value of R45. That no budget runs after it, of which R45 says
nothing, is the model's choice (assumption 11). -/
def Obligations.ResetValues : Prop :=
  AtReset State.reset
  ∧ ∀ s : State, s.opState = .idle ∨ s.opState = .fatal ∨ s.opState = .tornDown →
    ∃ t, exec .reset s = .next t ∧ AtReset t

/-- The reset sequence drives the line low, then high, and makes no transport transaction (R310, R311; the durations are not
modelled, assumption 12). The configuration, the inputs still to come and the record are no registers and stay; in `BUSY` a
`RESET` has no effect. -/
def Obligations.ResetPulse : Prop :=
  (∀ s : State, s.opState = .idle ∨ s.opState = .fatal ∨ s.opState = .tornDown →
    ∃ t, exec .reset s = .next t ∧ t.cfg = s.cfg ∧ t.inp = s.inp
      ∧ t.out = { s.out with line := s.out.line ++ [false, true] })
  ∧ ∀ (s : State) (i : Instr) (r : Nat), s.opState = .busy i r → exec .reset s = .next s

/-- `TEARDOWN` (R315): in `IDLE` it keeps every register and the level of the reset line, and makes no transaction; after it
no request word but `RESET` has any effect (it is taken from the host's queue, assumption 6). -/
def Obligations.Teardown : Prop :=
  (∀ s : State, s.opState = .idle → exec .teardown s = .next { s with opState := .tornDown })
  ∧ (∀ (s : State) (w : HostWord) (rest : List HostAction), s.opState = .tornDown →
    s.inp.host = .issue (.host w) :: rest → decode s.cfg (.host w) ≠ some .reset →
    step s = .next { s with inp := { s.inp with host := rest } })
  ∧ (∀ s : State, s.opState = .tornDown → ∃ t, exec .reset s = .next t ∧ t.opState = .idle)

/-! ### The transaction primitives -/

/-- `BEGIN` (R131). -/
def Obligations.BeginOpensATransaction : Prop :=
  ∀ s : State, s.opState = .idle →
    exec .beginTxn s = .next (if s.txn.isOpen then s.fatalState .beginWhileOpen
      else { s with txn := { s.txn with pos := 0, isOpen := true, done := false } })

/-- `WRITE_BYTE` (R132). -/
def Obligations.WriteByteAppends : Prop :=
  ∀ (s : State) (b : Byte), s.opState = .idle →
    (s.txn.isOpen = false → exec (.writeByte b) s = .next (s.fatalState .writeWhileClosed))
    ∧ (s.txn.isOpen = true → s.txn.pos.val = 65 → exec (.writeByte b) s = .next (s.fatalState .overflow))
    ∧ (s.txn.isOpen = true → s.txn.pos.val < 65 → ∃ wb pos,
        exec (.writeByte b) s = .next { s with txn := { s.txn with wb := wb, pos := pos } }
        ∧ pos.val = s.txn.pos.val + 1
        ∧ ∀ j, byteAt wb j = if j = s.txn.pos.val then b else byteAt s.txn.wb j)

/-- `WRITE_BYTES` of the `tx_len` bytes of `TXB` (R133). -/
def Obligations.WriteBytesAppends : Prop :=
  ∀ s : State, s.opState = .idle →
    (s.txn.isOpen = false → exec .writeBytes s = .next (s.fatalState .writeWhileClosed))
    ∧ (s.txn.isOpen = true → 65 < s.txn.pos.val + s.hostBuf.txLen.val → exec .writeBytes s = .next (s.fatalState .overflow))
    ∧ (s.txn.isOpen = true → s.txn.pos.val + s.hostBuf.txLen.val ≤ 65 → ∃ wb pos,
        exec .writeBytes s = .next { s with txn := { s.txn with wb := wb, pos := pos } }
        ∧ pos.val = s.txn.pos.val + s.hostBuf.txLen.val
        ∧ ∀ j, byteAt wb j = if s.txn.pos.val ≤ j ∧ j < s.txn.pos.val + s.hostBuf.txLen.val
            then byteAt s.hostBuf.txb (j - s.txn.pos.val) else byteAt s.txn.wb j)

/-- `END` (R134): exactly one exchange, of the `pos` bytes written, also when `pos = 0`. -/
def Obligations.EndMakesOneExchange : Prop :=
  ∀ s : State, s.opState = .idle →
    (s.txn.isOpen = false → exec .endTxn s = .next (s.fatalState .endWhileClosed))
    ∧ (s.txn.isOpen = true → ∃ rb inp out e,
        exec .endTxn s = .next { s with
          txn := { s.txn with rb := rb, isOpen := false, done := true }, inp := inp, out := out }
        ∧ Made s { s with inp := inp, out := out } [e]
        ∧ inp = { s.inp with pcd := inp.pcd, pcdDrawn := inp.pcdDrawn }
        ∧ e.sent = slice s.txn.wb 0 s.txn.pos.val
        ∧ out = { s.out with bus := s.out.bus ++ [e] }
        ∧ ∀ j, byteAt rb j = if j < s.txn.pos.val then e.received.getD j 0 else byteAt s.txn.rb j)

/-- `READ_BYTE` (R135): the last byte exchanged, to `RXB[0]`; nothing is consumed. -/
def Obligations.ReadByteReadsTheLast : Prop :=
  ∀ s : State, s.opState = .idle →
    (s.txn.done = false → exec .readByte s = .next (s.fatalState .readBeforeEnd))
    ∧ (s.txn.done = true → s.txn.pos.val = 0 → exec .readByte s = .next (s.fatalState .readTooLong))
    ∧ (s.txn.done = true → 1 ≤ s.txn.pos.val → ∃ rxb,
        exec .readByte s = .next { s with hostBuf := { s.hostBuf with rxb := rxb } }
        ∧ ∀ j, byteAt rxb j = if j = 0 then byteAt s.txn.rb (s.txn.pos.val - 1) else byteAt s.hostBuf.rxb j)

/-- `READ_BYTES n` (R136): the final `n` positions of the exchange, to `RXB[0..n-1]`; nothing is consumed. -/
def Obligations.ReadBytesReadsTheTail : Prop :=
  ∀ (s : State) (n : BitVec 7), s.opState = .idle →
    (s.txn.done = false → exec (.readBytes n) s = .next (s.fatalState .readBeforeEnd))
    ∧ (s.txn.done = true → s.txn.pos.val < n.toNat → exec (.readBytes n) s = .next (s.fatalState .readTooLong))
    ∧ (s.txn.done = true → n.toNat ≤ s.txn.pos.val → ∃ rxb,
        exec (.readBytes n) s = .next { s with hostBuf := { s.hostBuf with rxb := rxb } }
        ∧ ∀ j, byteAt rxb j =
            if j < n.toNat then byteAt s.txn.rb (s.txn.pos.val - n.toNat + j) else byteAt s.hostBuf.rxb j)

/-- The round trip through an echoing transport (R143 item 1): `begin`, `write_bytes`, `end`, `read_bytes` of as many bytes
give the payload back, for every length from 0 to 65. -/
def Obligations.EchoRoundTrip : Prop :=
  ∀ s : State, Ready s → s.inp.answer (txData s).length = txData s →
    ∃ s1 s2 s3 s4, exec .beginTxn s = .next s1 ∧ exec .writeBytes s1 = .next s2 ∧ exec .endTxn s2 = .next s3
      ∧ exec (.readBytes (BitVec.ofNat 7 s.hostBuf.txLen.val)) s3 = .next s4
      ∧ slice s4.hostBuf.rxb 0 s.hostBuf.txLen.val = txData s

/-- A fatal failure (R278): the reason, the sticky flag and `op_state`; every other register as it stood. -/
def Obligations.FatalFailure : Prop :=
  ∀ (i : Instr) (s t : State), s.opState = .idle → exec i s = .next t → t.opState = .fatal →
    t.flags.fatal = true ∧ t.flags.fatalReason ≠ .none ∧ t.flags.outcome = s.flags.outcome
    ∧ t.flags.present = s.flags.present
    ∧ ∀ j, j ≠ .reset → exec j t = .next t

/-! ### The register operations -/

/-- `REG_READ` and `REG_READ_N` (R137, R138): with no transaction open, one exchange of the read frame, the data of which
go to `RXB`; none for `n = 0`; `Overflow` for `n > 64`; `BeginWhileOpen` where the host left a transaction open. -/
def Obligations.RegisterReads : Prop :=
  (∀ (s : State) (a : Addr), Ready s → exec (.regRead a) s = .next { s.exchanged (readFrame s.cfg a 1) with
    hostBuf := { s.hostBuf with rxb := writeAt s.hostBuf.rxb 0 ((s.inp.answer 2).drop 1) } })
  ∧ (∀ (s : State) (a : Addr) (n : BitVec 7), Ready s → 1 ≤ n.toNat → n.toNat ≤ 64 →
    exec (.regReadN a n) s = .next { s.exchanged (readFrame s.cfg a n.toNat) with
      hostBuf := { s.hostBuf with rxb := writeAt s.hostBuf.rxb 0 ((s.inp.answer (n.toNat + 1)).drop 1) } })
  ∧ (∀ (s : State) (a : Addr), s.opState = .idle → exec (.regReadN a 0) s = .next s)
  ∧ (∀ (s : State) (a : Addr) (n : BitVec 7), s.opState = .idle → 64 < n.toNat →
    exec (.regReadN a n) s = .next (s.fatalState .overflow))
  ∧ (∀ (s : State) (a : Addr) (n : BitVec 7), s.opState = .idle → s.txn.isOpen = true → 1 ≤ n.toNat → n.toNat ≤ 64 →
    exec (.regRead a) s = .next (s.fatalState .beginWhileOpen)
    ∧ exec (.regReadN a n) s = .next (s.fatalState .beginWhileOpen))

/-- `REG_WRITE` and `REG_WRITE_N` (R139, R140): with no transaction open, one exchange of the write frame; none when there is
nothing to write; `Overflow` for more than 64 bytes; `BeginWhileOpen` where the host left a transaction open. -/
def Obligations.RegisterWrites : Prop :=
  (∀ (s : State) (a : Addr) (v : Byte), Ready s → exec (.regWrite a v) s = .next (s.exchanged (writeFrame a [v])))
  ∧ (∀ (s : State) (a : Addr), Ready s → 1 ≤ s.hostBuf.txLen.val → s.hostBuf.txLen.val ≤ 64 →
    exec (.regWriteN a) s = .next (s.exchanged (writeFrame a (txData s))))
  ∧ (∀ (s : State) (a : Addr), s.opState = .idle → s.hostBuf.txLen.val = 0 → exec (.regWriteN a) s = .next s)
  ∧ (∀ (s : State) (a : Addr), s.opState = .idle → 64 < s.hostBuf.txLen.val →
    exec (.regWriteN a) s = .next (s.fatalState .overflow))
  ∧ (∀ (s : State) (a : Addr) (v : Byte), s.opState = .idle → s.txn.isOpen = true →
    exec (.regWrite a v) s = .next (s.fatalState .beginWhileOpen)
    ∧ (1 ≤ s.hostBuf.txLen.val → s.hostBuf.txLen.val ≤ 64 →
      exec (.regWriteN a) s = .next (s.fatalState .beginWhileOpen)))

/-- `REG_SET_BITS` and `REG_CLEAR_BITS` (R141, R142): a read, then a write of the byte that came back with the mask's bits
set or cleared, always both; `BeginWhileOpen` where the host left a transaction open. -/
def Obligations.RegisterModifies : Prop :=
  (∀ (s : State) (a : Addr) (m : Byte), Ready s →
    exec (.regSetBits a m) s = .next (s.exchangedAll [readFrame s.cfg a 1, writeFrame a [s.nextRead ||| m]])
    ∧ exec (.regClearBits a m) s = .next (s.exchangedAll [readFrame s.cfg a 1, writeFrame a [s.nextRead &&& ~~~m]]))
  ∧ (∀ (s : State) (a : Addr) (m : Byte), s.opState = .idle → s.txn.isOpen = true →
    exec (.regSetBits a m) s = .next (s.fatalState .beginWhileOpen)
    ∧ exec (.regClearBits a m) s = .next (s.fatalState .beginWhileOpen))

/-- An operation that the host starts with a transaction left open dies of `BeginWhileOpen` at its first register operation,
before any transport activity (R143 item 4, R316). `ReachesTransport` also counts the ten command codes and the codes REQA and
WUPA, which no host can issue: that each stands alone as a step is the model's choice (assumption 8), and of them the rules say
nothing here. -/
def Obligations.OpenTransactionIsFatal : Prop :=
  ∀ (i : Instr) (s : State), s.opState = .idle → s.txn.isOpen = true → ReachesTransport i s →
    ∃ t, exec i s = .next t ∧ t.opState = .fatal ∧ t.flags.fatal = true ∧ t.flags.fatalReason = .beginWhileOpen
      ∧ t.out = s.out ∧ t.inp = s.inp ∧ t.txn = s.txn ∧ t.uid = s.uid ∧ t.hostBuf = s.hostBuf
      ∧ t.flags.outcome = s.flags.outcome

/-! ### compute_crc, communicate, transceive -/

/-- `COMPUTE_CRC` (R161 to R164): with no transaction open and at most 64 bytes it returns `Ok` or `Timeout`, after the
exchanges of its rules and no others; more than 64 bytes is `Overflow` before any transport activity. -/
def Obligations.ComputeCrcCompletes : Prop :=
  (∀ s : State, Ready s → s.hostBuf.txLen.val ≤ 64 →
    ∃ o u x, exec .computeCrc s = .next (u.returned o) ∧ CrcDone (txData s) s o u x)
  ∧ ∀ s : State, s.opState = .idle → 64 < s.hostBuf.txLen.val → exec .computeCrc s = .next (s.fatalState .overflow)

/-- `COMMUNICATE` past its entry checks (R167 to R177, R283): it returns one of its five outcomes after the exchanges of its
rules and no others, or dies of `Overflow` at the read of a FIFO level above 64 that the host's capacity lets pass; with no receive
buffer, or a capacity of at most 64, it always returns. -/
def Obligations.CommunicateCompletes : Prop :=
  ∀ (cmd : BitVec 4) (waitMask : Byte) (validBits rxAlign : BitVec 3) (recvPresent : Bool) (recvCap : BitVec 7)
    (s : State), Ready s → s.hostBuf.txLen.val ≤ 64 →
    let i : Instr := .communicate cmd waitMask validBits rxAlign false recvPresent recvCap
    let a : CommArgs := ⟨cmd, waitMask, txData s, recvPresent, .rxb, recvCap, validBits, rxAlign, false⟩
    ((∃ o u x data, exec i s = .next (u.returned o) ∧ CommDone a s o u x data ∧ o ∈ commOutcomes)
      ∨ (∃ t x, exec i s = .next t ∧ CommOverflow a s t x))
    ∧ (recvPresent = false ∨ recvCap.toNat ≤ 64 →
      ∃ o u x data, exec i s = .next (u.returned o) ∧ CommDone a s o u x data)

/-- `TRANSCEIVE` is `COMMUNICATE` with the Transceive command and the wait mask `IRQ_RX | IRQ_IDLE` (R178). -/
def Obligations.TransceiveCompletes : Prop :=
  ∀ (validBits rxAlign : BitVec 3) (recvPresent : Bool) (recvCap : BitVec 7) (s : State), Ready s →
    s.hostBuf.txLen.val ≤ 64 →
    let a : CommArgs := ⟨s.cfg.cmdTransceive, s.cfg.irqRx ||| s.cfg.irqIdle, txData s, recvPresent, .rxb, recvCap, validBits,
      rxAlign, false⟩
    ((∃ o u x data, exec (.transceive validBits rxAlign false recvPresent recvCap) s = .next (u.returned o)
        ∧ CommDone a s o u x data ∧ o ∈ commOutcomes)
      ∨ (∃ t x, exec (.transceive validBits rxAlign false recvPresent recvCap) s = .next t ∧ CommOverflow a s t x))
    ∧ (recvPresent = false ∨ recvCap.toNat ≤ 64 →
      ∃ o u x data, exec (.transceive validBits rxAlign false recvPresent recvCap) s = .next (u.returned o)
        ∧ CommDone a s o u x data)

/-- The entry checks of `communicate` (R166): `check_crc` is `Unsupported`, more than 64 bytes to send is `Overflow`, both
before any transport activity, whatever else is asked for; for both host operations. Nothing else is changed (R278) than the seven
operand registers: that these already hold the operands, those of R178 for `TRANSCEIVE`, is the model's choice (assumption 7). -/
def Obligations.CommunicateEntryChecks : Prop :=
  ∀ (cmd : BitVec 4) (waitMask : Byte) (validBits rxAlign : BitVec 3) (recvPresent : Bool) (recvCap : BitVec 7) (s : State),
    s.opState = .idle →
    let latched := fun (cmd : BitVec 4) (waitMask : Byte) (checkCrc : Bool) => { s with com := { s.com with
      cmd := cmd, waitMask := waitMask, rxAlign := rxAlign, validBits := validBits, checkCrc := checkCrc,
      recvPresent := recvPresent, recvCap := recvCap } }
    exec (.communicate cmd waitMask validBits rxAlign true recvPresent recvCap) s
      = .next ((latched cmd waitMask true).fatalState .unsupported)
    ∧ exec (.transceive validBits rxAlign true recvPresent recvCap) s
      = .next ((latched s.cfg.cmdTransceive (s.cfg.irqRx ||| s.cfg.irqIdle) true).fatalState .unsupported)
    ∧ (64 < s.hostBuf.txLen.val →
      exec (.communicate cmd waitMask validBits rxAlign false recvPresent recvCap) s
        = .next ((latched cmd waitMask false).fatalState .overflow)
      ∧ exec (.transceive validBits rxAlign false recvPresent recvCap) s
        = .next ((latched s.cfg.cmdTransceive (s.cfg.irqRx ||| s.cfg.irqIdle) false).fatalState .overflow))

/-- The merge (R173): the low `rx_align` bits are the old byte's, the others the received byte's; only the first byte is
merged; with `rx_align = 0` it is overwritten. -/
def Obligations.MergeLaw : Prop :=
  (∀ (old new : Byte) (rxAlign : BitVec 3) (i : Nat), i < 8 →
    (merge old new rxAlign).getLsbD i = if i < rxAlign.toNat then old.getLsbD i else new.getLsbD i)
  ∧ (∀ (old d : Byte) (ds : List Byte) (rxAlign : BitVec 3), mergeFirst old rxAlign (d :: ds) = merge old d rxAlign :: ds)
  ∧ ∀ old new : Byte, merge old new 0 = new

/-- `RXB` beyond the bytes received keeps its content (R172). -/
def Obligations.ReceiveBufferTail : Prop :=
  ∀ (cmd : BitVec 4) (waitMask : Byte) (validBits rxAlign : BitVec 3) (checkCrc recvPresent : Bool) (recvCap : BitVec 7)
    (s t : State), Ready s →
    exec (.communicate cmd waitMask validBits rxAlign checkCrc recvPresent recvCap) s = .next t
      ∨ exec (.transceive validBits rxAlign checkCrc recvPresent recvCap) s = .next t →
    ∀ j, t.com.bytesWritten.toNat ≤ j → byteAt t.hostBuf.rxb j = byteAt s.hostBuf.rxb j

/-! ### Activation -/

/-- `REQUEST_OR_WAKEUP` (R200 to R203): with no transaction open it returns, after the two transactions on the collision
register and the exchange of the short frame, with the classification of R203. -/
def Obligations.RequestCompletes : Prop :=
  ∀ (sel : Bool) (s : State), Ready s →
    ∃ o u x, exec (.requestOrWakeup sel) s = .next (u.returned o)
      ∧ RequestDone (if sel then s.cfg.piccWupa else s.cfg.piccReqa) s o u x
      ∧ o ∈ commOutcomes

/-- `IS_NEW_CARD_PRESENT` (R226): three register writes, then `request_or_wakeup` with REQA; `present` is whether its outcome is
`Ok` or `Collision`. -/
def Obligations.IsNewCardPresentCompletes : Prop :=
  ∀ s : State, Ready s →
    ∃ o u t w x, exec .isNewCardPresent s = .next { t.returned o with
        flags := { s.flags with outcome := o, present := decide (o = .ok ∨ o = .collision) } }
      ∧ w.map Exchange.sent = [writeFrame s.cfg.aTxMode [s.cfg.txModeDefault], writeFrame s.cfg.aRxMode [s.cfg.rxModeDefault],
          writeFrame s.cfg.aModWidth [s.cfg.modWidthDefault]]
      ∧ Transacted s u w
      ∧ RequestDone s.cfg.piccReqa u o t x

/-- The codes `REQA` and `WUPA` standing alone: the exchange of the short frame (R101, R202). That they stand alone as a step is
the model's choice (assumption 8). -/
def Obligations.ShortFrameCodes : Prop :=
  ∀ s : State, Ready s →
    (∃ o u x data, exec .reqa s = .next (u.returned o) ∧ CommDone (shortArgs s.cfg s.cfg.piccReqa) s o u x data)
    ∧ ∃ o u x data, exec .wupa s = .next (u.returned o) ∧ CommDone (shortArgs s.cfg s.cfg.piccWupa) s o u x data

/-! ### select -/

/-- `SELECT` with a legal claim, and `READ_CARD_UID`, return with one of `select`'s outcomes, with no transaction open, having
made only whole transactions (R204, R206, R224, R227). The next state is the one that the levels lead to (`LevelsRun`, R207 to R223)
from level 1 on the state with the claim and the level latched, with `outcome`, and for `READ_CARD_UID` `present`, written. -/
def Obligations.SelectCompletes : Prop :=
  ∀ (i : Instr) (kvb : Byte) (s : State), RunsSelect i kvb → Ready s →
    ∃ t x o u b, exec i s = .next t ∧ Ready t ∧ Made s t x ∧ t.sel.kvb = kvb
      ∧ t.flags.outcome ∈ [.ok, .internalError, .collision, .crcMismatch, .timeout, .error, .noRoom]
      ∧ LevelsRun 1 { s with opState := b, sel := { s.sel with kvb := kvb, level := 1 } } o u
      ∧ t = { u.returned o with flags := { s.flags with
          outcome := o, present := if i = .readCardUid then decide (o = .ok) else s.flags.present } }

/-- What `select` records of the UID (R111, R212, R219 to R222). Whatever it returns with: of every level below the one it ended
at, the bytes of the full-select frame that it sent, three of them (at level 3 four), stand in `U.b` at the level's place. On `Ok` also:
the SAK of the last level, which has no cascade bit; the size of the level the cascade ended at; that level's bytes, three after
a cascade tag below level 3, else four. -/
def Obligations.SelectRecordsTheUid : Prop :=
  ∀ (i : Instr) (kvb : Byte) (s t : State), RunsSelect i kvb → Ready s → exec i s = .next t →
    (∃ x, Made s t x ∧ ∀ n, 1 ≤ n → n < t.sel.level.toNat → LevelCompleted s.cfg n t.uid.b x)
    ∧ (t.flags.outcome = .ok →
      (t.sel.level = 1 ∨ t.sel.level = 2 ∨ t.sel.level = 3)
      ∧ t.uid.size.toNat = 3 * t.sel.level.toNat + 1
      ∧ t.uid.sak = byteAt t.buf.rsp 0 ∧ t.uid.sak &&& 0x04 = 0
      ∧ (t.sel.level.toNat < 3 → byteAt t.buf.fb 2 = 0x88 →
        ∀ j, j < 3 → byteAt t.uid.b (3 * (t.sel.level.toNat - 1) + j) = byteAt t.buf.fb (3 + j))
      ∧ (t.sel.level.toNat = 3 ∨ byteAt t.buf.fb 2 ≠ 0x88 →
        ∀ j, j < 4 → byteAt t.uid.b (3 * (t.sel.level.toNat - 1) + j) = byteAt t.buf.fb (2 + j)))

/-- After any other outcome `U.size` and `U.sak` are the old values (R222, R229); no byte above those of the level it ended at is
touched (R111, R219). -/
def Obligations.SelectFailureKeepsSizeAndSak : Prop :=
  ∀ (i : Instr) (kvb : Byte) (s t : State), RunsSelect i kvb → Ready s → exec i s = .next t →
    (t.flags.outcome ≠ .ok → t.uid.size = s.uid.size ∧ t.uid.sak = s.uid.sak)
    ∧ ∀ j, 3 * t.sel.level.toNat + 1 ≤ j → byteAt t.uid.b j = byteAt s.uid.b j

/-- The verification of a response (R220 to R223, R275, R283). On its own: of any other length than three whole bytes it is
`InternalError`, with no exchange; else the CRC of `RSP[0]` is computed, its `Timeout` is returned, a CRC that is not `RSP[1..2]` is
`CrcMismatch`, one that is lets the select go on. For the whole select: `Ok` and `CrcMismatch` only after a response of three whole
bytes, when the last exchanges are those of a `compute_crc` over `RSP[0]` that returned `Ok`, and `CRC` holds what its two result reads
brought back: `RSP[1..2]` for `Ok`, another value for `CrcMismatch`. A fourth level comes only after a response that agrees and has the
cascade bit; it is `InternalError`, with no further exchange. -/
def Obligations.SelectVerifiesTheResponse : Prop :=
  (∀ s : State, s.txn.isOpen = false →
    (s.com.bytesWritten ≠ 3 ∨ s.com.validBits ≠ 0 →
      ∃ b, verifyResponse.run s = .ok (some .internalError) { s with opState := b })
    ∧ (s.com.bytesWritten = 3 → s.com.validBits = 0 →
      ∃ o t x, CrcDone [byteAt s.buf.rsp 0] s o t x
        ∧ (o = .timeout → verifyResponse.run s = .ok (some .timeout) t)
        ∧ (o = .ok → byteAt t.buf.crc 0 ≠ byteAt t.buf.rsp 1 ∨ byteAt t.buf.crc 1 ≠ byteAt t.buf.rsp 2 →
          verifyResponse.run s = .ok (some .crcMismatch) t)
        ∧ (o = .ok → byteAt t.buf.crc 0 = byteAt t.buf.rsp 1 → byteAt t.buf.crc 1 = byteAt t.buf.rsp 2 →
          verifyResponse.run s = .ok none t)))
  ∧ ∀ (i : Instr) (kvb : Byte) (s t : State), RunsSelect i kvb → Ready s → exec i s = .next t →
    let checked := t.com.bytesWritten = 3 ∧ t.com.validBits = 0
      ∧ ∃ x y, Made s t (x ++ y) ∧ CrcExchanges s.cfg [byteAt t.buf.rsp 0] t.buf.crc y
    let agrees := byteAt t.buf.crc 0 = byteAt t.buf.rsp 1 ∧ byteAt t.buf.crc 1 = byteAt t.buf.rsp 2
    (t.flags.outcome = .ok → checked ∧ agrees)
    ∧ (t.flags.outcome = .crcMismatch → checked ∧ ¬agrees)
    ∧ (t.sel.level = 4 → t.flags.outcome = .internalError ∧ checked ∧ agrees ∧ byteAt t.buf.rsp 0 &&& 0x04 ≠ 0)

/-- On `Ok` the frame of the last full select stands in `FB` and was loaded into the PCD's FIFO whole (R100, R207, R212): the
level's SELECT opcode, NVB 0x70, the four data bytes, their exclusive or, and the two bytes that a `compute_crc` of this select over
the seven before them brought back. -/
def Obligations.SelectSendsTheFullFrame : Prop :=
  ∀ (i : Instr) (kvb : Byte) (s t : State), RunsSelect i kvb → Ready s → exec i s = .next t → t.flags.outcome = .ok →
    (t.sel.level = 1 → byteAt t.buf.fb 0 = s.cfg.piccSelCl1) ∧ (t.sel.level = 2 → byteAt t.buf.fb 0 = s.cfg.piccSelCl2)
    ∧ (t.sel.level = 3 → byteAt t.buf.fb 0 = s.cfg.piccSelCl3)
    ∧ byteAt t.buf.fb 1 = 0x70
    ∧ byteAt t.buf.fb 6 = byteAt t.buf.fb 2 ^^^ byteAt t.buf.fb 3 ^^^ byteAt t.buf.fb 4 ^^^ byteAt t.buf.fb 5
    ∧ ∃ x, Made s t x ∧ writeFrame s.cfg.aFifoData (slice t.buf.fb 0 9) ∈ x.map Exchange.sent
      ∧ ∃ y, y <:+: x ∧ CrcExchanges s.cfg (slice t.buf.fb 0 7) #v[byteAt t.buf.fb 7, byteAt t.buf.fb 8] y

/-- `select` terminates within its bound (R225): at most 99 `transceive` calls and 6 `compute_crc` calls, each of which starts one
budget, of 26 and of 89 milliseconds. -/
def Obligations.SelectIsBounded : Prop :=
  ∀ (i : Instr) (kvb : Byte) (s : State), RunsSelect i kvb → Ready s →
    ∃ t l, exec i s = .next t ∧ t.opState = .idle ∧ t.out.budgets = s.out.budgets ++ l
      ∧ l.count 26 ≤ 99 ∧ l.count 89 ≤ 6 ∧ ∀ ms ∈ l, ms = 26 ∨ ms = 89

/-- `READ_CARD_UID` says in `present` whether the select was `Ok` (R227); `SELECT` leaves `present` (R28). -/
def Obligations.ReadCardUidSaysPresent : Prop :=
  ∀ s : State, Ready s →
    (∃ t, exec .readCardUid s = .next t ∧ t.sel.kvb = 0 ∧ (t.flags.present = true ↔ t.flags.outcome = .ok))
    ∧ ∀ kvb t, exec (.select kvb) s = .next t → t.flags.present = s.flags.present

/-- The start of a level (R205, R207 to R210): the SELECT opcode, the offset, the cascade tag, `known_bits`, and, bit by bit, the
level's 32 data bits: the tag, then the claimed bits of the UID, then zeros. -/
def Obligations.LevelStart : Prop :=
  ∀ (s : State) (level : Nat), 1 ≤ level → level ≤ 3 → s.sel.kvb.toNat ≤ 80 →
    let off := 3 * (level - 1)
    let tag := decide (level < 3 ∧ s.sel.kvb.toNat > 8 * off + 32)
    let cap := if tag then 3 else 4
    let known := min (s.sel.kvb.toNat - 8 * off) (8 * cap) + if tag then 8 else 0
    ∃ t, (levelSetup level).run s = .ok () t
      ∧ t = { s with
        opState := t.opState, buf := { s.buf with fb := t.buf.fb },
        sel := { s.sel with off := t.sel.off, useCt := t.sel.useCt, knownBits := t.sel.knownBits } }
      ∧ t.sel.off.toNat = off ∧ t.sel.useCt = tag ∧ t.sel.knownBits.toNat = known
      ∧ byteAt t.buf.fb 0
          = (if level = 1 then s.cfg.piccSelCl1 else if level = 2 then s.cfg.piccSelCl2 else s.cfg.piccSelCl3)
      ∧ byteAt t.buf.fb 1 = 0
      ∧ (∀ p, 1 ≤ p → p ≤ 32 → levelBit t.buf.fb p =
          if tag ∧ p ≤ 8 then (0x88#8).getLsbD (p - 1)
          else if p ≤ known then uidBit s.uid.b (8 * off + (p - 1) - if tag then 8 else 0) else false)
      ∧ ∀ j, 6 ≤ j → byteAt t.buf.fb j = 0

/-- The frames of a round (R99, R212, R213): of an anti-collision round `FB[1]`, `tx_last`, `idx` and `send_len` from
`known_bits`; of a full-select round NVB 0x70, the BCC and the CRC bytes; nothing else changes. -/
def Obligations.RoundFrames : Prop :=
  ∀ s : State,
    (s.sel.knownBits.toNat < 32 →
      let k := s.sel.knownBits.toNat
      let t := anticollFrame s
      t.sel.txLast.toNat = k % 8 ∧ t.sel.idx.toNat = 2 + k / 8
      ∧ t.sel.sendLen.toNat = 2 + k / 8 + (if k % 8 > 0 then 1 else 0)
      ∧ (byteAt t.buf.fb 1).toNat = 16 * (2 + k / 8) + k % 8 ∧ (∀ j, j ≠ 1 → byteAt t.buf.fb j = byteAt s.buf.fb j)
      ∧ t = { s with
        sel := { s.sel with txLast := t.sel.txLast, idx := t.sel.idx, sendLen := t.sel.sendLen },
        buf := { s.buf with fb := t.buf.fb } })
    ∧ (let t := fullFrameCrc (fullFrame s)
      byteAt t.buf.fb 1 = 0x70
      ∧ byteAt t.buf.fb 6 = byteAt s.buf.fb 2 ^^^ byteAt s.buf.fb 3 ^^^ byteAt s.buf.fb 4 ^^^ byteAt s.buf.fb 5
      ∧ byteAt t.buf.fb 7 = byteAt s.buf.crc 0 ∧ byteAt t.buf.fb 8 = byteAt s.buf.crc 1
      ∧ (∀ j, j = 0 ∨ 2 ≤ j ∧ j ≤ 5 → byteAt t.buf.fb j = byteAt s.buf.fb j)
      ∧ t.sel.txLast = 0 ∧ t.sel.sendLen = 9
      ∧ t = { s with
        sel := { s.sel with txLast := t.sel.txLast, sendLen := t.sel.sendLen }, buf := { s.buf with fb := t.buf.fb } })

/-! ### The collision detector -/

/-- The collision step (R250 to R255): one read of the collision register; bit 0x20 is `Collision`; a position not above
`known_bits` is `InternalError`; else the search is narrowed to it and the round is retried. -/
def Obligations.CollisionStep : Prop :=
  ∀ s : State, s.txn.isOpen = false →
    ∃ r t e, onCollision.run s = .ok r t ∧ Made s t [e] ∧ e.sent = readFrame s.cfg s.cfg.aColl 1
      ∧ t.txn.isOpen = false ∧ t.inp = { s.inp with pcd := t.inp.pcd, pcdDrawn := t.inp.pcdDrawn }
      ∧ t.out = { s.out with bus := t.out.bus } ∧
      let c := e.data
      let p := if (c &&& 0x1F).toNat = 0 then 32 else (c &&& 0x1F).toNat
      if c &&& 0x20 ≠ 0 then
        r = some .collision ∧ t = { s with
          opState := t.opState, txn := t.txn, inp := t.inp, out := t.out, col := { s.col with sample := c } }
      else if p ≤ s.sel.knownBits.toNat then
        r = some .internalError ∧ t.col.pos.toNat = p ∧ t = { s with
          opState := t.opState, txn := t.txn, inp := t.inp, out := t.out, col := { sample := c, pos := t.col.pos } }
      else
        r = none ∧ t.col.pos.toNat = p ∧ t = { narrow p s with
          opState := t.opState, txn := t.txn, inp := t.inp, out := t.out, col := { sample := c, pos := t.col.pos } }

/-- Narrowing (R254, R257): `known_bits` is the position, the bit at the position is 1, every other bit of the frame is as it
was. -/
def Obligations.NarrowSetsOneBit : Prop :=
  ∀ (s : State) (p : Nat), 1 ≤ p → p ≤ 32 →
    (narrow p s).sel.knownBits.toNat = p
    ∧ (∀ q, 1 ≤ q → q ≤ 32 → levelBit (narrow p s).buf.fb q = (decide (q = p) || levelBit s.buf.fb q))
    ∧ (∀ j, j < 2 ∨ 6 ≤ j → byteAt (narrow p s).buf.fb j = byteAt s.buf.fb j)
    ∧ narrow p s = { s with
      sel := { s.sel with knownBits := (narrow p s).sel.knownBits }, buf := { s.buf with fb := (narrow p s).buf.fb } }

/-! ### The codes of layers 2 to 4 -/

/-- `ADDR_READ` and `ADDR_WRITE` append the address byte of R91 to an open transaction, as R132 appends a byte. That they stand
alone as a step is the model's choice (assumption 8). -/
def Obligations.AddressCodesAppend : Prop :=
  ∀ (s : State) (a : Addr) (i : Instr) (b : Byte), s.opState = .idle →
    i = .addrRead a ∧ b.toNat = 2 * a.toNat + 128 ∨ i = .addrWrite a ∧ b.toNat = 2 * a.toNat →
    (s.txn.isOpen = false → exec i s = .next (s.fatalState .writeWhileClosed))
    ∧ (s.txn.isOpen = true → s.txn.pos.val = 65 → exec i s = .next (s.fatalState .overflow))
    ∧ (s.txn.isOpen = true → s.txn.pos.val < 65 → ∃ wb pos,
        exec i s = .next { s with txn := { s.txn with wb := wb, pos := pos } }
        ∧ pos.val = s.txn.pos.val + 1
        ∧ ∀ j, byteAt wb j = if j = s.txn.pos.val then b else byteAt s.txn.wb j)

/-- A PCD command opcode is written to `A_COMMAND` as one byte with bits 7:4 zero (R32, R94). That the ten codes stand alone as
a step is the model's choice (assumption 8). -/
def Obligations.CommandCodesWriteTheRegister : Prop :=
  ∀ (i : Instr) (s : State) (op : BitVec 4), commandOpcode s.cfg i = some op →
    (Ready s → exec i s = .next (s.exchanged [encodeWrite s.cfg.aCommand, BitVec.ofNat 8 op.toNat]))
    ∧ (s.opState = .idle → s.txn.isOpen = true → exec i s = .next (s.fatalState .beginWhileOpen))

/-- A code of a SELECT frame is written where the frame has it, and nothing else changes (R97, R99, R100). That the six codes
stand alone as a step is the model's choice (assumption 8). -/
def Obligations.FrameCodesWriteTheFrame : Prop :=
  ∀ (i : Instr) (s : State) (k : Fin 9) (b : Byte), s.opState = .idle → frameByte s.cfg i = some (k, b) →
    exec i s = .next { s with buf := { s.buf with fb := s.buf.fb.set k b } }

/-! ### All instructions -/

/-- The frame of every instruction: a group of registers outside its list `writes` keeps its values. For the 21 host operations the
list is what the tables of 10_state.md let it write (R21 to R30, and the fatal registers by R278); for the 20 codes of layers 2 to 4,
which no host can issue, it is the model's choice (assumption 8), as is that they stand alone as a step. The configuration is never
changed (R44), nor the host's queue, which is the model's own (assumption 10). -/
def Obligations.EveryInstructionKeepsTheRest : Prop :=
  ∀ (i : Instr) (s t : State), exec i s = .next t →
    (∀ g, g ∉ writes i → g.same s t) ∧ t.cfg = s.cfg ∧ t.inp.host = s.inp.host

/-- What a step does on the transport is whole exchanges appended to the record, with the PCD's answers taken in order, one for
each byte sent (R60, R63, R69); it never changes the configuration (R44). -/
def Obligations.StepKeepsTheHistory : Prop :=
  ∀ s t : State, step s = .next t → t.cfg = s.cfg ∧ ∃ x, Made s t x

/-- The invariant holds after reset. The registers have the values of R45, which lie in the ranges of R25 to R27 and R47. The record and
the inputs are no registers: that the record holds no exchange and no budget after reset, and that no budget runs, is the model's choice
(assumption 11). -/
def Obligations.InvariantAtReset : Prop := Inv State.reset

/-- Every step keeps the invariant (R23, R25, R26, R27, R47, R60, R75, R98, R273, R278, R286, R311). -/
def Obligations.StepKeepsTheInvariant : Prop := ∀ s t : State, Inv s → step s = .next t → Inv t

/-! ### The rounds of select -/

/-- An anti-collision round (R213 to R218), with `k` bits known: one write of the bit-framing register with `rx_align = tx_last`,
then one `transceive` of the frame's `send_len` bytes into the window `FB[2 + k div 8 .. 6]` of capacity `5 - k div 8`. `Ok` makes
all 32 bits known and nothing else; `Collision` runs the detector (`CollisionStep`); any other outcome is returned as it is. -/
def Obligations.AnticollisionRound : Prop :=
  ∀ s : State, s.txn.isOpen = false → s.sel.knownBits.toNat < 32 →
    let k := s.sel.knownBits.toNat
    let bits := BitVec.ofNat 3 (k % 8)
    let f := anticollFrame s
    ∃ o u v e x data,
      e.sent = writeFrame s.cfg.aBitFraming [framingByte bits bits] ∧ Transacted f u [e]
      ∧ CommDone (roundArgs s.cfg (slice f.buf.fb 0 (2 + k / 8 + if k % 8 > 0 then 1 else 0)) (.fb (2 + k / 8)) (5 - k / 8) bits)
        u o v x data
      ∧ (o = .ok → anticollRound.run s = .ok none { v with sel := { v.sel with knownBits := 32 } })
      ∧ (o = .collision → anticollRound.run s = onCollision.run v)
      ∧ (o ≠ .ok → o ≠ .collision → anticollRound.run s = .ok (some o) v)

/-- A full-select round (R212, R214 to R217, R228): a `compute_crc` over the first seven bytes of the frame, whose `Timeout` is
returned; then one write of the bit-framing register with 0 and one `transceive` of the nine bytes into `RSP[0..2]`. On `Ok` the response
has come; after `Collision` the detector always ends the select; any other outcome is returned as it is. -/
def Obligations.FullSelectRound : Prop :=
  ∀ s : State, s.txn.isOpen = false → s.sel.knownBits = 32 →
    let f := fullFrame s
    ∃ oc c xc, CrcDone (slice f.buf.fb 0 7) f oc c xc
      ∧ (oc ≠ .ok → fullRound.run s = .ok (some oc) c)
      ∧ (oc = .ok →
        let g := fullFrameCrc c
        ∃ o u v e x data,
          e.sent = writeFrame s.cfg.aBitFraming [0] ∧ Transacted g u [e]
          ∧ CommDone (roundArgs s.cfg (slice g.buf.fb 0 9) .rsp 3 0) u o v x data
          ∧ (o = .ok → fullRound.run s = .ok none v)
          ∧ (o = .collision → ∃ r t, onCollision.run v = .ok (some r) t ∧ fullRound.run s = .ok (some r) t
            ∧ (r = .collision ∨ r = .internalError))
          ∧ (o ≠ .ok → o ≠ .collision → fullRound.run s = .ok (some o) v))

end
end

