-- ==== Sys2Proof/Laws/Buffers.lean ====
section
/-! SUPPORT. The laws of the buffers: reading a byte after a write, writing lists, slices; the merge of a received byte
bit by bit. -/

namespace Sys2Proof.Machine

variable {n : Nat}

theorem byteAt_of_lt (v : Vector Byte n) {j : Nat} (h : j < n) : byteAt v j = v[j] := by simp [byteAt, h]

/-- Two buffers with the same bytes are the same. -/
theorem eq_of_byteAt {v w : Vector Byte n} (h : ∀ j, j < n → byteAt v j = byteAt w j) : v = w := by
  ext j hj : 1
  simpa [byteAt_of_lt _ hj] using h j hj

theorem byteAt_set (v : Vector Byte n) (i j : Nat) (b : Byte) :
    byteAt (v.setIfInBounds i b) j = if i = j ∧ j < n then b else byteAt v j := by
  by_cases hj : j < n
  · simp [byteAt_of_lt _ hj, Vector.getElem_setIfInBounds, hj]
  · simp [byteAt, hj]

theorem byteAt_set_self (v : Vector Byte n) {i : Nat} (b : Byte) (h : i < n) : byteAt (v.setIfInBounds i b) i = b := by
  simp [byteAt_set, h]

theorem byteAt_set_ne (v : Vector Byte n) {i j : Nat} (b : Byte) (h : i ≠ j) :
    byteAt (v.setIfInBounds i b) j = byteAt v j := by
  simp [byteAt_set, h]

@[simp] theorem byteAt_replicate (b : Byte) {j : Nat} (h : j < n) : byteAt (Vector.replicate n b) j = b := by
  simp [byteAt_of_lt _ h]

@[simp] theorem writeAt_nil (v : Vector Byte n) (i : Nat) : writeAt v i [] = v := rfl

theorem writeAt_cons (v : Vector Byte n) (i : Nat) (b : Byte) (bs : List Byte) :
    writeAt v i (b :: bs) = writeAt (v.setIfInBounds i b) (i + 1) bs := rfl

theorem writeAt_append (v : Vector Byte n) (i : Nat) (l l' : List Byte) :
    writeAt v i (l ++ l') = writeAt (writeAt v i l) (i + l.length) l' := by
  induction l generalizing v i with
  | nil => simp
  | cons b l ih =>
    simp only [List.cons_append, writeAt_cons, ih, List.length_cons]
    congr 1
    omega

/-- Reading after a list was written: the list's byte inside, the old byte outside. -/
theorem byteAt_writeAt (v : Vector Byte n) (i j : Nat) (l : List Byte) :
    byteAt (writeAt v i l) j = if i ≤ j ∧ j < i + l.length ∧ j < n then l.getD (j - i) 0 else byteAt v j := by
  induction l generalizing v i with
  | nil =>
    rw [writeAt_nil, if_neg (by simp; omega)]
  | cons b l ih =>
    rw [writeAt_cons, ih, byteAt_set]
    by_cases hij : i = j
    · subst hij
      simp
    · have hl : (b :: l).length = l.length + 1 := rfl
      by_cases hc : i ≤ j ∧ j < i + (b :: l).length ∧ j < n
      · rw [if_pos (by omega), if_pos hc]
        obtain ⟨k, rfl⟩ : ∃ k, j = i + 1 + k := ⟨j - (i + 1), by omega⟩
        have e1 : i + 1 + k - (i + 1) = k := by omega
        have e2 : i + 1 + k - i = k + 1 := by omega
        rw [e1, e2, List.getD_cons_succ]
      · rw [if_neg (by omega), if_neg hc, if_neg (by simp [hij])]

theorem byteAt_writeAt_out (v : Vector Byte n) {i j : Nat} (l : List Byte) (h : j < i ∨ i + l.length ≤ j) :
    byteAt (writeAt v i l) j = byteAt v j := by
  rw [byteAt_writeAt, if_neg (by omega)]

theorem byteAt_writeAt_in (v : Vector Byte n) {i k : Nat} (l : List Byte) (hk : k < l.length) (h : i + k < n) :
    byteAt (writeAt v i l) (i + k) = l[k] := by
  rw [byteAt_writeAt, if_pos ⟨by omega, by omega, h⟩]
  simp [hk]

@[simp] theorem length_slice (v : Vector Byte n) (i len : Nat) : (slice v i len).length = min len (n - i) := by
  simp [slice]

@[simp] theorem slice_zero_len (v : Vector Byte n) (i : Nat) : slice v i 0 = [] := by simp [slice]

theorem getElem_slice (v : Vector Byte n) (i len k : Nat) (h : k < (slice v i len).length) :
    (slice v i len)[k] = byteAt v (i + k) := by
  have hk : i + k < n := by
    rw [length_slice] at h
    omega
  simp [slice, byteAt_of_lt _ hk]

/-- A slice is a function of the bytes it takes. -/
theorem slice_congr {v w : Vector Byte n} {i len : Nat} (h : ∀ j, i ≤ j → j < i + len → byteAt v j = byteAt w j) :
    slice v i len = slice w i len := by
  apply List.ext_getElem
  · simp
  · intro k hk hk'
    rw [getElem_slice, getElem_slice]
    rw [length_slice] at hk
    exact h _ (by omega) (by omega)

/-- The whole buffer as a list, by its elements. -/
theorem getD_slice_whole (v : Vector Byte n) (j : Nat) : (slice v 0 n).getD j 0 = byteAt v j := by
  by_cases hj : j < n
  · rw [List.getD_eq_getElem _ _ (by simpa using hj), getElem_slice, Nat.zero_add]
  · rw [List.getD_eq_default _ _ (by simpa using hj)]
    simp [byteAt, hj]

/-- A slice is the bytes it covers. -/
theorem slice_eq_of_byteAt {v : Vector Byte n} {i : Nat} {l : List Byte} (hn : i + l.length ≤ n)
    (h : ∀ k (hk : k < l.length), byteAt v (i + k) = l[k]) : slice v i l.length = l := by
  apply List.ext_getElem
  · rw [length_slice]
    omega
  · intro k hk hk'
    rw [getElem_slice, h k hk']

/-- What was written is read back. -/
theorem slice_writeAt (v : Vector Byte n) (i : Nat) (l : List Byte) (h : i + l.length ≤ n) :
    slice (writeAt v i l) i l.length = l :=
  slice_eq_of_byteAt h fun _ hk => byteAt_writeAt_in v l hk (by omega)

/-- A slice inside what was written at the start of a buffer. -/
theorem slice_writeAt_zero (v : Vector Byte n) (l : List Byte) (i len : Nat) (h : l.length ≤ n) (hi : i + len ≤ l.length) :
    slice (writeAt v 0 l) i len = (l.drop i).take len := by
  apply List.ext_getElem
  · simp
    omega
  · intro k hk hk'
    rw [length_slice] at hk
    have := byteAt_writeAt_in v (i := 0) (k := i + k) l (by omega) (by omega)
    rw [getElem_slice]
    simpa using this

theorem writeAt_replicate_succ (v : Vector Byte n) (i k : Nat) (b : Byte) :
    writeAt v i (List.replicate (k + 1) b) = writeAt (v.setIfInBounds i b) (i + 1) (List.replicate k b) := rfl

/-- The merge, bit by bit: the low `rx_align` bits are the old byte's, the others the received one's (R173). -/
theorem getLsbD_merge (old new : Byte) (r : BitVec 3) (i : Nat) :
    (merge old new r).getLsbD i = if i < r.toNat then old.getLsbD i else new.getLsbD i := by
  have h255 : ∀ k, k < 8 → (0xFF#8).getLsbD k = true := by decide
  by_cases h8 : i < 8
  · simp only [merge, mergeMask, BitVec.getLsbD_or, BitVec.getLsbD_and, BitVec.getLsbD_not, BitVec.getLsbD_shiftLeft, h8]
    by_cases hi : i < r.toNat
    · simp [hi]
    · simp [hi, h255 (i - r.toNat) (by omega)]
  · simp [BitVec.getLsbD_of_ge (w := 8) _ i (by omega)]

@[simp] theorem mergeFirst_nil (old : Byte) (r : BitVec 3) : mergeFirst old r [] = [] := rfl

@[simp] theorem length_mergeFirst (old : Byte) (r : BitVec 3) (l : List Byte) : (mergeFirst old r l).length = l.length := by
  cases l <;> rfl

/-- With `rx_align = 0` the first byte is simply overwritten (R173). -/
theorem merge_zero (old new : Byte) : merge old new 0 = new := by
  apply BitVec.eq_of_getLsbD_eq
  intro i _
  simp [getLsbD_merge]

@[simp] theorem length_txData (s : State) : (txData s).length = s.hostBuf.txLen.val := by
  simp [txData]
  omega

end Sys2Proof.Machine
end

