-- ==== Sys2Proof/Laws/Eng.lean ====
section
/-! SUPPORT. The laws of engine sequences: how a sequence runs on a state, and what holds after it (`Eng.Post`). -/

namespace Sys2Proof.Machine

variable {α β : Type}

/-- Running a sequence: the first part, then the rest on its result; a fatal failure ends it. -/
theorem Eng.run_bind (m : Eng α) (f : α → Eng β) (s : State) :
    (m >>= f).run s = match m.run s with
      | .ok a t => (f a).run t
      | .error r t => .error r t := by
  change EStateM.bind m f s = _
  unfold EStateM.bind EStateM.run
  cases m s <;> rfl

@[simp] theorem Eng.run_pure (a : α) (s : State) : (pure a : Eng α).run s = .ok a s := rfl

@[simp] theorem Eng.run_get (s : State) : (get : Eng State).run s = .ok s s := rfl

@[simp] theorem Eng.run_modify (f : State → State) (s : State) : (modify f : Eng PUnit).run s = .ok ⟨⟩ (f s) := rfl

@[simp] theorem Eng.run_raiseFatal (r : FatalReason) (s : State) :
    (raiseFatal r).run s = .error r (s.fatalState r) := rfl

/-- The rest of a sequence after a part that ended. -/
theorem Eng.bind_ok {m : Eng α} {f : α → Eng β} {s t : State} {a : α} (h : m.run s = .ok a t) :
    (m >>= f).run s = (f a).run t := by
  rw [Eng.run_bind, h]

/-- A sequence dies where its first part dies. -/
theorem Eng.bind_error {m : Eng α} {f : α → Eng β} {s t : State} {r : FatalReason} (h : m.run s = .error r t) :
    (m >>= f).run s = .error r t := by
  rw [Eng.run_bind, h]

@[simp] theorem Eng.run_bind_get (f : State → Eng β) (s : State) : (get >>= f).run s = (f s).run s := rfl

@[simp] theorem Eng.run_bind_modify (g : State → State) (f : PUnit → Eng β) (s : State) :
    (modify g >>= f).run s = (f ⟨⟩).run (g s) := rfl

@[simp] theorem Eng.run_bind_pure (a : α) (f : α → Eng β) (s : State) :
    ((pure a : Eng α) >>= f).run s = (f a).run s := rfl

@[simp] theorem Eng.run_bind_raiseFatal (r : FatalReason) (f : Unit → Eng β) (s : State) :
    (raiseFatal r >>= f).run s = .error r (s.fatalState r) := rfl

@[simp] theorem Eng.run_map (f : α → β) (m : Eng α) (s : State) :
    (f <$> m).run s = match m.run s with
      | .ok a t => .ok (f a) t
      | .error r t => .error r t := by
  change EStateM.map f m s = _
  unfold EStateM.map EStateM.run
  cases m s <;> rfl

@[simp] theorem Eng.run_ite (p : Prop) [Decidable p] (x y : Eng α) (s : State) :
    (if p then x else y).run s = if p then x.run s else y.run s := by
  split <;> rfl

/-- After the sequence from `s`: `Q` of its result and state where it ended, `E` of the reason and state where it died. -/
def Eng.Post (m : Eng α) (s : State) (Q : α → State → Prop) (E : FatalReason → State → Prop) : Prop :=
  match m.run s with
  | .ok a t => Q a t
  | .error r t => E r t

variable {Q Q' : α → State → Prop} {E E' : FatalReason → State → Prop} {s : State}

theorem Eng.Post.of_ok {m : Eng α} {a : α} {t : State} (h : m.run s = .ok a t) (hq : Q a t) : Eng.Post m s Q E := by
  rw [Eng.Post, h]
  exact hq

theorem Eng.Post.of_error {m : Eng α} {r : FatalReason} {t : State} (h : m.run s = .error r t) (he : E r t) :
    Eng.Post m s Q E := by
  rw [Eng.Post, h]
  exact he

theorem Eng.Post.ok {m : Eng α} {a : α} {t : State} (h : Eng.Post m s Q E) (hm : m.run s = .ok a t) : Q a t := by
  rwa [Eng.Post, hm] at h

theorem Eng.Post.error {m : Eng α} {r : FatalReason} {t : State} (h : Eng.Post m s Q E) (hm : m.run s = .error r t) :
    E r t := by
  rwa [Eng.Post, hm] at h

/-- Where a sequence cannot die, it ends. -/
theorem Eng.Post.exists_ok {m : Eng α} (h : Eng.Post m s Q fun _ _ => False) : ∃ a t, m.run s = .ok a t ∧ Q a t := by
  cases hm : m.run s with
  | ok a t => exact ⟨a, t, rfl, h.ok hm⟩
  | error r t => exact (h.error hm).elim

theorem Eng.Post.mono {m : Eng α} (h : Eng.Post m s Q E) (hq : ∀ a t, Q a t → Q' a t) (he : ∀ r t, E r t → E' r t) :
    Eng.Post m s Q' E' := by
  cases hm : m.run s with
  | ok a t => exact .of_ok hm (hq a t (h.ok hm))
  | error r t => exact .of_error hm (he r t (h.error hm))

theorem Eng.Post.and {m : Eng α} (h : Eng.Post m s Q E) (h' : Eng.Post m s Q' E') :
    Eng.Post m s (fun a t => Q a t ∧ Q' a t) (fun r t => E r t ∧ E' r t) := by
  cases hm : m.run s with
  | ok a t => exact .of_ok hm ⟨h.ok hm, h'.ok hm⟩
  | error r t => exact .of_error hm ⟨h.error hm, h'.error hm⟩

theorem Eng.Post.bind {m : Eng α} {f : α → Eng β} {R : β → State → Prop} (hm : Eng.Post m s Q E)
    (hf : ∀ a t, Q a t → Eng.Post (f a) t R E) : Eng.Post (m >>= f) s R E := by
  cases h : m.run s with
  | ok a t =>
    have := hf a t (hm.ok h)
    rwa [Eng.Post, Eng.bind_ok h]
  | error r t => exact .of_error (Eng.bind_error h) (hm.error h)

theorem Eng.Post.pure {a : α} (h : Q a s) : Eng.Post (pure a : Eng α) s Q E := h

theorem Eng.Post.ite {p : Prop} [Decidable p] {x y : Eng α} (hx : p → Eng.Post x s Q E) (hy : ¬p → Eng.Post y s Q E) :
    Eng.Post (if p then x else y) s Q E := by
  split
  · exact hx ‹_›
  · exact hy ‹_›

theorem Eng.Post.get {R : β → State → Prop} {f : State → Eng β} (h : Eng.Post (f s) s R E) :
    Eng.Post (get >>= f) s R E := h

theorem Eng.Post.modify {R : β → State → Prop} {g : State → State} {f : PUnit → Eng β}
    (h : Eng.Post (f ⟨⟩) (g s) R E) : Eng.Post (modify g >>= f) s R E := h

end Sys2Proof.Machine
end

