-- ==== Sys2Proof/Laws/State.lean ====
section
/-! SUPPORT. The small lemmas of the state: for each named update and each field, what the field is after it, true by rfl. -/

namespace Sys2Proof.Machine

@[simp] theorem State.fatalState_uid (r : FatalReason) (s : State) : (s.fatalState r).uid = s.uid := rfl
@[simp] theorem State.fatalState_buf (r : FatalReason) (s : State) : (s.fatalState r).buf = s.buf := rfl
@[simp] theorem State.fatalState_txn (r : FatalReason) (s : State) : (s.fatalState r).txn = s.txn := rfl
@[simp] theorem State.fatalState_opState (r : FatalReason) (s : State) : (s.fatalState r).opState = .fatal := rfl
@[simp] theorem State.fatalState_sel (r : FatalReason) (s : State) : (s.fatalState r).sel = s.sel := rfl
@[simp] theorem State.fatalState_com (r : FatalReason) (s : State) : (s.fatalState r).com = s.com := rfl
@[simp] theorem State.fatalState_col (r : FatalReason) (s : State) : (s.fatalState r).col = s.col := rfl
@[simp] theorem State.fatalState_flags (r : FatalReason) (s : State) : (s.fatalState r).flags = { s.flags with fatal := true, fatalReason := r } := rfl
@[simp] theorem State.fatalState_hostBuf (r : FatalReason) (s : State) : (s.fatalState r).hostBuf = s.hostBuf := rfl
@[simp] theorem State.fatalState_resetLine (r : FatalReason) (s : State) : (s.fatalState r).resetLine = s.resetLine := rfl
@[simp] theorem State.fatalState_cfg (r : FatalReason) (s : State) : (s.fatalState r).cfg = s.cfg := rfl
@[simp] theorem State.fatalState_inp (r : FatalReason) (s : State) : (s.fatalState r).inp = s.inp := rfl
@[simp] theorem State.fatalState_out (r : FatalReason) (s : State) : (s.fatalState r).out = s.out := rfl

@[simp] theorem State.clearRegisters_uid (s : State) : (s.clearRegisters).uid = State.reset.uid := rfl
@[simp] theorem State.clearRegisters_buf (s : State) : (s.clearRegisters).buf = State.reset.buf := rfl
@[simp] theorem State.clearRegisters_txn (s : State) : (s.clearRegisters).txn = State.reset.txn := rfl
@[simp] theorem State.clearRegisters_opState (s : State) : (s.clearRegisters).opState = State.reset.opState := rfl
@[simp] theorem State.clearRegisters_sel (s : State) : (s.clearRegisters).sel = State.reset.sel := rfl
@[simp] theorem State.clearRegisters_com (s : State) : (s.clearRegisters).com = State.reset.com := rfl
@[simp] theorem State.clearRegisters_col (s : State) : (s.clearRegisters).col = State.reset.col := rfl
@[simp] theorem State.clearRegisters_flags (s : State) : (s.clearRegisters).flags = State.reset.flags := rfl
@[simp] theorem State.clearRegisters_hostBuf (s : State) : (s.clearRegisters).hostBuf = State.reset.hostBuf := rfl
@[simp] theorem State.clearRegisters_resetLine (s : State) : (s.clearRegisters).resetLine = State.reset.resetLine := rfl
@[simp] theorem State.clearRegisters_cfg (s : State) : (s.clearRegisters).cfg = s.cfg := rfl
@[simp] theorem State.clearRegisters_inp (s : State) : (s.clearRegisters).inp = s.inp := rfl
@[simp] theorem State.clearRegisters_out (s : State) : (s.clearRegisters).out = s.out := rfl

@[simp] theorem State.driveLine_uid (l : Bool) (s : State) : (s.driveLine l).uid = s.uid := rfl
@[simp] theorem State.driveLine_buf (l : Bool) (s : State) : (s.driveLine l).buf = s.buf := rfl
@[simp] theorem State.driveLine_txn (l : Bool) (s : State) : (s.driveLine l).txn = s.txn := rfl
@[simp] theorem State.driveLine_opState (l : Bool) (s : State) : (s.driveLine l).opState = s.opState := rfl
@[simp] theorem State.driveLine_sel (l : Bool) (s : State) : (s.driveLine l).sel = s.sel := rfl
@[simp] theorem State.driveLine_com (l : Bool) (s : State) : (s.driveLine l).com = s.com := rfl
@[simp] theorem State.driveLine_col (l : Bool) (s : State) : (s.driveLine l).col = s.col := rfl
@[simp] theorem State.driveLine_flags (l : Bool) (s : State) : (s.driveLine l).flags = s.flags := rfl
@[simp] theorem State.driveLine_hostBuf (l : Bool) (s : State) : (s.driveLine l).hostBuf = s.hostBuf := rfl
@[simp] theorem State.driveLine_resetLine (l : Bool) (s : State) : (s.driveLine l).resetLine = l := rfl
@[simp] theorem State.driveLine_cfg (l : Bool) (s : State) : (s.driveLine l).cfg = s.cfg := rfl
@[simp] theorem State.driveLine_inp (l : Bool) (s : State) : (s.driveLine l).inp = s.inp := rfl
@[simp] theorem State.driveLine_out (l : Bool) (s : State) : (s.driveLine l).out = { s.out with line := s.out.line ++ [l] } := rfl

@[simp] theorem State.popHost_uid (s : State) : (s.popHost).uid = s.uid := rfl
@[simp] theorem State.popHost_buf (s : State) : (s.popHost).buf = s.buf := rfl
@[simp] theorem State.popHost_txn (s : State) : (s.popHost).txn = s.txn := rfl
@[simp] theorem State.popHost_opState (s : State) : (s.popHost).opState = s.opState := rfl
@[simp] theorem State.popHost_sel (s : State) : (s.popHost).sel = s.sel := rfl
@[simp] theorem State.popHost_com (s : State) : (s.popHost).com = s.com := rfl
@[simp] theorem State.popHost_col (s : State) : (s.popHost).col = s.col := rfl
@[simp] theorem State.popHost_flags (s : State) : (s.popHost).flags = s.flags := rfl
@[simp] theorem State.popHost_hostBuf (s : State) : (s.popHost).hostBuf = s.hostBuf := rfl
@[simp] theorem State.popHost_resetLine (s : State) : (s.popHost).resetLine = s.resetLine := rfl
@[simp] theorem State.popHost_cfg (s : State) : (s.popHost).cfg = s.cfg := rfl
@[simp] theorem State.popHost_inp (s : State) : (s.popHost).inp = { s.inp with host := s.inp.host.tail } := rfl
@[simp] theorem State.popHost_out (s : State) : (s.popHost).out = s.out := rfl

@[simp] theorem State.pushHost_uid (a : HostAction) (s : State) : (s.pushHost a).uid = s.uid := rfl
@[simp] theorem State.pushHost_buf (a : HostAction) (s : State) : (s.pushHost a).buf = s.buf := rfl
@[simp] theorem State.pushHost_txn (a : HostAction) (s : State) : (s.pushHost a).txn = s.txn := rfl
@[simp] theorem State.pushHost_opState (a : HostAction) (s : State) : (s.pushHost a).opState = s.opState := rfl
@[simp] theorem State.pushHost_sel (a : HostAction) (s : State) : (s.pushHost a).sel = s.sel := rfl
@[simp] theorem State.pushHost_com (a : HostAction) (s : State) : (s.pushHost a).com = s.com := rfl
@[simp] theorem State.pushHost_col (a : HostAction) (s : State) : (s.pushHost a).col = s.col := rfl
@[simp] theorem State.pushHost_flags (a : HostAction) (s : State) : (s.pushHost a).flags = s.flags := rfl
@[simp] theorem State.pushHost_hostBuf (a : HostAction) (s : State) : (s.pushHost a).hostBuf = s.hostBuf := rfl
@[simp] theorem State.pushHost_resetLine (a : HostAction) (s : State) : (s.pushHost a).resetLine = s.resetLine := rfl
@[simp] theorem State.pushHost_cfg (a : HostAction) (s : State) : (s.pushHost a).cfg = s.cfg := rfl
@[simp] theorem State.pushHost_inp (a : HostAction) (s : State) : (s.pushHost a).inp = { s.inp with host := a :: s.inp.host } := rfl
@[simp] theorem State.pushHost_out (a : HostAction) (s : State) : (s.pushHost a).out = s.out := rfl

@[simp] theorem State.toRule_uid (r : Nat) (s : State) : (s.toRule r).uid = s.uid := rfl
@[simp] theorem State.toRule_buf (r : Nat) (s : State) : (s.toRule r).buf = s.buf := rfl
@[simp] theorem State.toRule_txn (r : Nat) (s : State) : (s.toRule r).txn = s.txn := rfl
@[simp] theorem State.toRule_sel (r : Nat) (s : State) : (s.toRule r).sel = s.sel := rfl
@[simp] theorem State.toRule_com (r : Nat) (s : State) : (s.toRule r).com = s.com := rfl
@[simp] theorem State.toRule_col (r : Nat) (s : State) : (s.toRule r).col = s.col := rfl
@[simp] theorem State.toRule_flags (r : Nat) (s : State) : (s.toRule r).flags = s.flags := rfl
@[simp] theorem State.toRule_hostBuf (r : Nat) (s : State) : (s.toRule r).hostBuf = s.hostBuf := rfl
@[simp] theorem State.toRule_resetLine (r : Nat) (s : State) : (s.toRule r).resetLine = s.resetLine := rfl
@[simp] theorem State.toRule_cfg (r : Nat) (s : State) : (s.toRule r).cfg = s.cfg := rfl
@[simp] theorem State.toRule_inp (r : Nat) (s : State) : (s.toRule r).inp = s.inp := rfl
@[simp] theorem State.toRule_out (r : Nat) (s : State) : (s.toRule r).out = s.out := rfl

@[simp] theorem State.exchanged_uid (w : List Byte) (s : State) : (s.exchanged w).uid = s.uid := rfl
@[simp] theorem State.exchanged_buf (w : List Byte) (s : State) : (s.exchanged w).buf = s.buf := rfl
@[simp] theorem State.exchanged_txn (w : List Byte) (s : State) : (s.exchanged w).txn = ⟨writeAt s.txn.wb 0 w, writeAt s.txn.rb 0 (s.inp.answer w.length), Fin.ofNat 66 w.length, false, true⟩ := rfl
@[simp] theorem State.exchanged_opState (w : List Byte) (s : State) : (s.exchanged w).opState = s.opState := rfl
@[simp] theorem State.exchanged_sel (w : List Byte) (s : State) : (s.exchanged w).sel = s.sel := rfl
@[simp] theorem State.exchanged_com (w : List Byte) (s : State) : (s.exchanged w).com = s.com := rfl
@[simp] theorem State.exchanged_col (w : List Byte) (s : State) : (s.exchanged w).col = s.col := rfl
@[simp] theorem State.exchanged_flags (w : List Byte) (s : State) : (s.exchanged w).flags = s.flags := rfl
@[simp] theorem State.exchanged_hostBuf (w : List Byte) (s : State) : (s.exchanged w).hostBuf = s.hostBuf := rfl
@[simp] theorem State.exchanged_resetLine (w : List Byte) (s : State) : (s.exchanged w).resetLine = s.resetLine := rfl
@[simp] theorem State.exchanged_cfg (w : List Byte) (s : State) : (s.exchanged w).cfg = s.cfg := rfl
@[simp] theorem State.exchanged_inp (w : List Byte) (s : State) : (s.exchanged w).inp = s.inp.afterAnswer w.length := rfl
@[simp] theorem State.exchanged_out (w : List Byte) (s : State) : (s.exchanged w).out = { s.out with bus := s.out.bus ++ [⟨w, s.inp.answer w.length⟩] } := rfl

@[simp] theorem narrow_uid (p : Nat) (s : State) : (narrow p s).uid = s.uid := rfl
@[simp] theorem narrow_txn (p : Nat) (s : State) : (narrow p s).txn = s.txn := rfl
@[simp] theorem narrow_opState (p : Nat) (s : State) : (narrow p s).opState = s.opState := rfl
@[simp] theorem narrow_sel (p : Nat) (s : State) : (narrow p s).sel = { s.sel with knownBits := BitVec.ofNat 6 p } := rfl
@[simp] theorem narrow_com (p : Nat) (s : State) : (narrow p s).com = s.com := rfl
@[simp] theorem narrow_col (p : Nat) (s : State) : (narrow p s).col = s.col := rfl
@[simp] theorem narrow_flags (p : Nat) (s : State) : (narrow p s).flags = s.flags := rfl
@[simp] theorem narrow_hostBuf (p : Nat) (s : State) : (narrow p s).hostBuf = s.hostBuf := rfl
@[simp] theorem narrow_resetLine (p : Nat) (s : State) : (narrow p s).resetLine = s.resetLine := rfl
@[simp] theorem narrow_cfg (p : Nat) (s : State) : (narrow p s).cfg = s.cfg := rfl
@[simp] theorem narrow_inp (p : Nat) (s : State) : (narrow p s).inp = s.inp := rfl
@[simp] theorem narrow_out (p : Nat) (s : State) : (narrow p s).out = s.out := rfl

@[simp] theorem anticollFrame_uid (s : State) : (anticollFrame s).uid = s.uid := rfl
@[simp] theorem anticollFrame_txn (s : State) : (anticollFrame s).txn = s.txn := rfl
@[simp] theorem anticollFrame_opState (s : State) : (anticollFrame s).opState = s.opState := rfl
@[simp] theorem anticollFrame_com (s : State) : (anticollFrame s).com = s.com := rfl
@[simp] theorem anticollFrame_col (s : State) : (anticollFrame s).col = s.col := rfl
@[simp] theorem anticollFrame_flags (s : State) : (anticollFrame s).flags = s.flags := rfl
@[simp] theorem anticollFrame_hostBuf (s : State) : (anticollFrame s).hostBuf = s.hostBuf := rfl
@[simp] theorem anticollFrame_resetLine (s : State) : (anticollFrame s).resetLine = s.resetLine := rfl
@[simp] theorem anticollFrame_cfg (s : State) : (anticollFrame s).cfg = s.cfg := rfl
@[simp] theorem anticollFrame_inp (s : State) : (anticollFrame s).inp = s.inp := rfl
@[simp] theorem anticollFrame_out (s : State) : (anticollFrame s).out = s.out := rfl

@[simp] theorem fullFrame_uid (s : State) : (fullFrame s).uid = s.uid := rfl
@[simp] theorem fullFrame_txn (s : State) : (fullFrame s).txn = s.txn := rfl
@[simp] theorem fullFrame_opState (s : State) : (fullFrame s).opState = s.opState := rfl
@[simp] theorem fullFrame_sel (s : State) : (fullFrame s).sel = s.sel := rfl
@[simp] theorem fullFrame_com (s : State) : (fullFrame s).com = s.com := rfl
@[simp] theorem fullFrame_col (s : State) : (fullFrame s).col = s.col := rfl
@[simp] theorem fullFrame_flags (s : State) : (fullFrame s).flags = s.flags := rfl
@[simp] theorem fullFrame_hostBuf (s : State) : (fullFrame s).hostBuf = s.hostBuf := rfl
@[simp] theorem fullFrame_resetLine (s : State) : (fullFrame s).resetLine = s.resetLine := rfl
@[simp] theorem fullFrame_cfg (s : State) : (fullFrame s).cfg = s.cfg := rfl
@[simp] theorem fullFrame_inp (s : State) : (fullFrame s).inp = s.inp := rfl
@[simp] theorem fullFrame_out (s : State) : (fullFrame s).out = s.out := rfl

@[simp] theorem fullFrameCrc_uid (s : State) : (fullFrameCrc s).uid = s.uid := rfl
@[simp] theorem fullFrameCrc_txn (s : State) : (fullFrameCrc s).txn = s.txn := rfl
@[simp] theorem fullFrameCrc_opState (s : State) : (fullFrameCrc s).opState = s.opState := rfl
@[simp] theorem fullFrameCrc_sel (s : State) : (fullFrameCrc s).sel = { s.sel with txLast := 0, sendLen := 9 } := rfl
@[simp] theorem fullFrameCrc_com (s : State) : (fullFrameCrc s).com = s.com := rfl
@[simp] theorem fullFrameCrc_col (s : State) : (fullFrameCrc s).col = s.col := rfl
@[simp] theorem fullFrameCrc_flags (s : State) : (fullFrameCrc s).flags = s.flags := rfl
@[simp] theorem fullFrameCrc_hostBuf (s : State) : (fullFrameCrc s).hostBuf = s.hostBuf := rfl
@[simp] theorem fullFrameCrc_resetLine (s : State) : (fullFrameCrc s).resetLine = s.resetLine := rfl
@[simp] theorem fullFrameCrc_cfg (s : State) : (fullFrameCrc s).cfg = s.cfg := rfl
@[simp] theorem fullFrameCrc_inp (s : State) : (fullFrameCrc s).inp = s.inp := rfl
@[simp] theorem fullFrameCrc_out (s : State) : (fullFrameCrc s).out = s.out := rfl

@[simp] theorem storeUidBytes_uid (l : Nat) (s : State) : (storeUidBytes l s).uid = { s.uid with b := writeAt s.uid.b (uidOffset l) (levelUidBytes s.buf.fb l) } := rfl
@[simp] theorem storeUidBytes_buf (l : Nat) (s : State) : (storeUidBytes l s).buf = s.buf := rfl
@[simp] theorem storeUidBytes_txn (l : Nat) (s : State) : (storeUidBytes l s).txn = s.txn := rfl
@[simp] theorem storeUidBytes_opState (l : Nat) (s : State) : (storeUidBytes l s).opState = s.opState := rfl
@[simp] theorem storeUidBytes_sel (l : Nat) (s : State) : (storeUidBytes l s).sel = s.sel := rfl
@[simp] theorem storeUidBytes_com (l : Nat) (s : State) : (storeUidBytes l s).com = s.com := rfl
@[simp] theorem storeUidBytes_col (l : Nat) (s : State) : (storeUidBytes l s).col = s.col := rfl
@[simp] theorem storeUidBytes_flags (l : Nat) (s : State) : (storeUidBytes l s).flags = s.flags := rfl
@[simp] theorem storeUidBytes_hostBuf (l : Nat) (s : State) : (storeUidBytes l s).hostBuf = s.hostBuf := rfl
@[simp] theorem storeUidBytes_resetLine (l : Nat) (s : State) : (storeUidBytes l s).resetLine = s.resetLine := rfl
@[simp] theorem storeUidBytes_cfg (l : Nat) (s : State) : (storeUidBytes l s).cfg = s.cfg := rfl
@[simp] theorem storeUidBytes_inp (l : Nat) (s : State) : (storeUidBytes l s).inp = s.inp := rfl
@[simp] theorem storeUidBytes_out (l : Nat) (s : State) : (storeUidBytes l s).out = s.out := rfl

@[simp] theorem finishUid_uid (l : Nat) (s : State) : (finishUid l s).uid = { s.uid with sak := byteAt s.buf.rsp 0, size := BitVec.ofNat 4 (3 * l + 1) } := rfl
@[simp] theorem finishUid_buf (l : Nat) (s : State) : (finishUid l s).buf = s.buf := rfl
@[simp] theorem finishUid_txn (l : Nat) (s : State) : (finishUid l s).txn = s.txn := rfl
@[simp] theorem finishUid_opState (l : Nat) (s : State) : (finishUid l s).opState = s.opState := rfl
@[simp] theorem finishUid_sel (l : Nat) (s : State) : (finishUid l s).sel = s.sel := rfl
@[simp] theorem finishUid_com (l : Nat) (s : State) : (finishUid l s).com = s.com := rfl
@[simp] theorem finishUid_col (l : Nat) (s : State) : (finishUid l s).col = s.col := rfl
@[simp] theorem finishUid_flags (l : Nat) (s : State) : (finishUid l s).flags = s.flags := rfl
@[simp] theorem finishUid_hostBuf (l : Nat) (s : State) : (finishUid l s).hostBuf = s.hostBuf := rfl
@[simp] theorem finishUid_resetLine (l : Nat) (s : State) : (finishUid l s).resetLine = s.resetLine := rfl
@[simp] theorem finishUid_cfg (l : Nat) (s : State) : (finishUid l s).cfg = s.cfg := rfl
@[simp] theorem finishUid_inp (l : Nat) (s : State) : (finishUid l s).inp = s.inp := rfl
@[simp] theorem finishUid_out (l : Nat) (s : State) : (finishUid l s).out = s.out := rfl

/-- The whole reset sequence is the registers at their reset values and the two levels on the line (R311). -/
theorem State.resetSequence_eq (s : State) :
    s.resetSequence =
      { State.reset with
        cfg := s.cfg, inp := s.inp, out := { s.out with line := s.out.line ++ [false, true] } } := by
  simp [State.resetSequence, State.clearRegisters, State.driveLine, State.reset]

end Sys2Proof.Machine
end

