-- ==== Sys2Proof/Laws/Ops.lean ====
section
/-! SUPPORT. The laws of the shared operations: for each transaction primitive and each register operation, everything it
can do. With no transaction open a register operation is one whole exchange (`State.exchanged`), or dies of `Overflow`
before anything happened. -/

namespace Sys2Proof.Machine

variable {s : State}

/-! ### The transport -/

@[simp] theorem length_answer (e : Inputs) (n : Nat) : (e.answer n).length = n := by
  simp [Inputs.answer]
  omega

/-- While the state lists enough answers, they are the ones given. -/
theorem answer_listed {e : Inputs} {n : Nat} (h : n ≤ e.pcd.length) : e.answer n = e.pcd.take n := by
  simp [Inputs.answer, Nat.sub_eq_zero_of_le h]

theorem xfer_run (w : List Byte) : (xfer w).run s = .ok (s.inp.answer w.length)
    { s with inp := s.inp.afterAnswer w.length,
             out := { s.out with bus := s.out.bus ++ [⟨w, s.inp.answer w.length⟩] } } := rfl

@[simp] theorem afterAnswer_polls (e : Inputs) (n : Nat) : (e.afterAnswer n).polls = e.polls := rfl

@[simp] theorem afterAnswer_pollsDrawn (e : Inputs) (n : Nat) : (e.afterAnswer n).pollsDrawn = e.pollsDrawn := rfl

@[simp] theorem afterAnswer_host (e : Inputs) (n : Nat) : (e.afterAnswer n).host = e.host := rfl

@[simp] theorem afterAnswer_pcd (e : Inputs) (n : Nat) : (e.afterAnswer n).pcd = e.pcd.drop n := rfl

@[simp] theorem afterGranted_host (e : Inputs) : e.afterGranted.host = e.host := by
  unfold Inputs.afterGranted
  split <;> rfl

@[simp] theorem afterGranted_pcd (e : Inputs) : e.afterGranted.pcd = e.pcd := by
  unfold Inputs.afterGranted
  split <;> rfl

@[simp] theorem afterGranted_pcdDrawn (e : Inputs) : e.afterGranted.pcdDrawn = e.pcdDrawn := by
  unfold Inputs.afterGranted
  split <;> rfl

/-! ### The transaction primitives -/

theorem begin_open (h : s.txn.isOpen = true) : begin_.run s = .error .beginWhileOpen (s.fatalState .beginWhileOpen) := by
  simp [begin_, h]

theorem begin_closed (h : s.txn.isOpen = false) :
    begin_.run s = .ok () { s with txn := ⟨s.txn.wb, s.txn.rb, 0, true, false⟩ } := by
  simp [begin_, h]

theorem writeByte_closed (b : Byte) (h : s.txn.isOpen = false) :
    (writeByte b).run s = .error .writeWhileClosed (s.fatalState .writeWhileClosed) := by
  simp [writeByte, h]

theorem writeByte_full (b : Byte) (h : s.txn.isOpen = true) (hp : s.txn.pos.val = 65) :
    (writeByte b).run s = .error .overflow (s.fatalState .overflow) := by
  simp [writeByte, h, hp]

theorem writeByte_open (b : Byte) (h : s.txn.isOpen = true) (hp : s.txn.pos.val < 65) :
    (writeByte b).run s = .ok () { s with txn :=
      ⟨writeAt s.txn.wb s.txn.pos [b], s.txn.rb, Fin.ofNat 66 (s.txn.pos + 1), s.txn.isOpen, s.txn.done⟩ } := by
  have : s.txn.pos.val ≠ 65 := by omega
  simp [writeByte, h, this, writeAt]

theorem writeBytes_closed (bs : List Byte) (h : s.txn.isOpen = false) :
    (writeBytes bs).run s = .error .writeWhileClosed (s.fatalState .writeWhileClosed) := by
  simp [writeBytes, h]

theorem writeBytes_overflow (bs : List Byte) (h : s.txn.isOpen = true) (hp : 65 < s.txn.pos.val + bs.length) :
    (writeBytes bs).run s = .error .overflow (s.fatalState .overflow) := by
  simp [writeBytes, h, hp]

theorem writeBytes_open (bs : List Byte) (h : s.txn.isOpen = true) (hp : s.txn.pos.val + bs.length ≤ 65) :
    (writeBytes bs).run s = .ok () { s with txn :=
      ⟨writeAt s.txn.wb s.txn.pos bs, s.txn.rb, Fin.ofNat 66 (s.txn.pos + bs.length), s.txn.isOpen, s.txn.done⟩ } := by
  have : ¬ 65 < s.txn.pos.val + bs.length := by omega
  simp [writeBytes, h, this]

theorem end_closed (h : s.txn.isOpen = false) : end_.run s = .error .endWhileClosed (s.fatalState .endWhileClosed) := by
  simp [end_, h]

theorem end_open (h : s.txn.isOpen = true) :
    end_.run s = .ok () { s with
      txn := ⟨s.txn.wb, writeAt s.txn.rb 0 (s.inp.answer s.txn.pos), s.txn.pos, false, true⟩,
      inp := s.inp.afterAnswer s.txn.pos,
      out := { s.out with bus := s.out.bus ++ [⟨slice s.txn.wb 0 s.txn.pos, s.inp.answer s.txn.pos⟩] } } := by
  have hl : (slice s.txn.wb 0 s.txn.pos).length = s.txn.pos := by
    rw [length_slice]
    omega
  simp only [end_, h, Bool.not_true, Bool.false_eq_true, if_false, Eng.run_bind_get,
    Eng.bind_ok (xfer_run _), Eng.run_modify, hl]

theorem readByte_early (h : s.txn.done = false) :
    readByte.run s = .error .readBeforeEnd (s.fatalState .readBeforeEnd) := by
  simp [readByte, h]

theorem readByte_empty (h : s.txn.done = true) (hp : s.txn.pos.val = 0) :
    readByte.run s = .error .readTooLong (s.fatalState .readTooLong) := by
  have : s.txn.pos = 0 := Fin.ext hp
  simp [readByte, h, this]

theorem readByte_done (h : s.txn.done = true) (hp : s.txn.pos.val ≠ 0) :
    readByte.run s = .ok (byteAt s.txn.rb (s.txn.pos - 1)) s := by
  have : s.txn.pos ≠ 0 := fun e => hp (by simp [e])
  simp [readByte, h, this]

theorem readBytes_early (n : Nat) (h : s.txn.done = false) :
    (readBytes n).run s = .error .readBeforeEnd (s.fatalState .readBeforeEnd) := by
  simp [readBytes, h]

theorem readBytes_tooLong {n : Nat} (h : s.txn.done = true) (hp : s.txn.pos.val < n) :
    (readBytes n).run s = .error .readTooLong (s.fatalState .readTooLong) := by
  simp [readBytes, h, hp]

theorem readBytes_done {n : Nat} (h : s.txn.done = true) (hp : n ≤ s.txn.pos.val) :
    (readBytes n).run s = .ok (slice s.txn.rb (s.txn.pos - n) n) s := by
  have : ¬ s.txn.pos.val < n := by omega
  simp [readBytes, h, this]

/-- `n` copies of a byte, where they fit (R138). -/
theorem writeCopies_open (n : Nat) (b : Byte) (h : s.txn.isOpen = true) (hp : s.txn.pos.val + n ≤ 65) :
    (writeCopies n b).run s = .ok () { s with txn :=
      ⟨writeAt s.txn.wb s.txn.pos (List.replicate n b), s.txn.rb, Fin.ofNat 66 (s.txn.pos + n), s.txn.isOpen,
        s.txn.done⟩ } := by
  induction n generalizing s with
  | zero => simp [writeCopies]
  | succ n ih =>
    have hpos : (Fin.ofNat 66 (s.txn.pos.val + 1)).val = s.txn.pos.val + 1 := Nat.mod_eq_of_lt (by omega)
    rw [writeCopies, Eng.bind_ok (writeByte_open b h (by omega)), ih (by exact h) (by simp only [hpos]; omega)]
    simp only [hpos, List.replicate_succ, writeAt_cons, writeAt_nil]
    congr 4
    omega

/-! ### The register operations -/

/-- `begin`, a list of bytes appended, `end`: one exchange of these bytes. -/
theorem exchanged_of_written (w : List Byte) (h : w.length ≤ 65) :
    end_.run { s with txn := ⟨writeAt s.txn.wb 0 w, s.txn.rb, Fin.ofNat 66 w.length, true, false⟩ }
      = .ok () (s.exchanged w) := by
  have hpos : (Fin.ofNat 66 w.length).val = w.length := Nat.mod_eq_of_lt (by omega)
  rw [end_open rfl]
  simp only [hpos, slice_writeAt _ 0 w (by omega : 0 + w.length ≤ 65), State.exchanged]

theorem regReadN_overflow (a : Addr) {n : Nat} (h : 64 < n) :
    (regReadN a n).run s = .error .overflow (s.fatalState .overflow) := by
  simp [regReadN, h]

theorem regReadN_zero (a : Addr) : (regReadN a 0).run s = .ok [] s := by simp [regReadN]

theorem regReadN_open (a : Addr) {n : Nat} (h : s.txn.isOpen = true) (h0 : 1 ≤ n) (h1 : n ≤ 64) :
    (regReadN a n).run s = .error .beginWhileOpen (s.fatalState .beginWhileOpen) := by
  have h2 : ¬ 64 < n := by omega
  have h3 : n ≠ 0 := by omega
  simp [regReadN, h2, h3, Eng.bind_error (begin_open h)]

/-- A register read is one exchange of the read frame; the data are what came back after the first byte (R92, R138). -/
theorem regReadN_closed (a : Addr) {n : Nat} (h : s.txn.isOpen = false) (h0 : 1 ≤ n) (h1 : n ≤ 64) :
    (regReadN a n).run s = .ok ((s.inp.answer (n + 1)).drop 1) (s.exchanged (readFrame s.cfg a n)) := by
  have h2 : ¬ 64 < n := by omega
  have h3 : n ≠ 0 := by omega
  have hlen : (readFrame s.cfg a n).length = n + 1 := by simp [readFrame]
  have e2 : (Fin.ofNat 66 n).val = n := Nat.mod_eq_of_lt (by omega)
  simp only [regReadN, gt_iff_lt, h2, h3, if_false]
  rw [Eng.bind_ok (begin_closed h), Eng.bind_ok (writeCopies_open n _ rfl (by simp only [Fin.val_zero]; omega)),
    Eng.run_bind_get,
    Eng.bind_ok (writeByte_open _ rfl (by simp only [Fin.val_zero, Nat.zero_add, e2]; omega))]
  have e3 : writeAt (writeAt s.txn.wb 0 (List.replicate n (encodeRead a))) n [s.cfg.dummy]
      = writeAt s.txn.wb 0 (readFrame s.cfg a n) := by
    rw [readFrame, writeAt_append]
    simp
  have key := exchanged_of_written (s := s) (readFrame s.cfg a n) (by omega)
  rw [hlen] at key
  simp only [Fin.val_zero, Nat.zero_add, e2, e3]
  rw [Eng.bind_ok key]
  have e4 : (s.exchanged (readFrame s.cfg a n)).txn.pos.val = n + 1 := by
    simp only [State.exchanged_txn, hlen]
    exact Nat.mod_eq_of_lt (by omega)
  rw [readBytes_done (by simp) (by omega), e4]
  simp only [State.exchanged_txn, hlen]
  rw [slice_writeAt_zero _ _ _ _ (by simp; omega) (by simp; omega)]
  congr 1
  rw [Nat.add_sub_cancel_left, List.take_of_length_le (by simp)]

theorem regRead_open (a : Addr) (h : s.txn.isOpen = true) :
    (regRead a).run s = .error .beginWhileOpen (s.fatalState .beginWhileOpen) :=
  Eng.bind_error (regReadN_open a h (by omega) (by omega))

/-- One register read: the second byte that came back (R137). -/
theorem regRead_closed (a : Addr) (h : s.txn.isOpen = false) :
    (regRead a).run s = .ok (s.nextRead) (s.exchanged (readFrame s.cfg a 1)) := by
  rw [regRead, Eng.bind_ok (regReadN_closed a h (by omega) (by omega)), Eng.run_pure]
  congr 1
  simp [State.nextRead, List.headD_eq_head?_getD, List.getD_eq_getElem?_getD]

theorem regWriteN_overflow (a : Addr) {d : List Byte} (h : 64 < d.length) :
    (regWriteN a d).run s = .error .overflow (s.fatalState .overflow) := by
  simp [regWriteN, h]

theorem regWriteN_nil (a : Addr) : (regWriteN a []).run s = .ok () s := by simp [regWriteN]

theorem regWriteN_open (a : Addr) {d : List Byte} (h : s.txn.isOpen = true) (h0 : d ≠ []) (h1 : d.length ≤ 64) :
    (regWriteN a d).run s = .error .beginWhileOpen (s.fatalState .beginWhileOpen) := by
  have h2 : ¬ 64 < d.length := by omega
  simp [regWriteN, h2, h0, Eng.bind_error (begin_open h)]

/-- A register write is one exchange of the write frame (R92, R139). -/
theorem regWriteN_closed (a : Addr) {d : List Byte} (h : s.txn.isOpen = false) (h0 : d ≠ []) (h1 : d.length ≤ 64) :
    (regWriteN a d).run s = .ok () (s.exchanged (writeFrame a d)) := by
  have h2 : ¬ 64 < d.length := by omega
  have h3 : d.length ≠ 0 := by simpa using h0
  have e1 : (Fin.ofNat 66 1).val = 1 := rfl
  simp only [regWriteN, gt_iff_lt, h2, h3, if_false]
  rw [Eng.bind_ok (begin_closed h), Eng.bind_ok (writeByte_open _ rfl (by simp only [Fin.val_zero]; omega)),
    Eng.bind_ok (writeBytes_open d rfl (by simp only [Fin.val_zero, Nat.zero_add, e1]; omega))]
  have e3 : writeAt (writeAt s.txn.wb 0 [encodeWrite a]) 1 d = writeAt s.txn.wb 0 (writeFrame a d) := by
    rw [writeFrame, show encodeWrite a :: d = [encodeWrite a] ++ d from rfl, writeAt_append]
    simp
  have key := exchanged_of_written (s := s) (writeFrame a d) (by simp [writeFrame]; omega)
  simp only [Fin.val_zero, Nat.zero_add, e1, e3]
  rw [show 1 + d.length = (writeFrame a d).length by simp [writeFrame]; omega]
  exact key

theorem regWrite_open (a : Addr) (v : Byte) (h : s.txn.isOpen = true) :
    (regWrite a v).run s = .error .beginWhileOpen (s.fatalState .beginWhileOpen) :=
  regWriteN_open a h (by simp) (by simp)

/-- One register write (R140). -/
theorem regWrite_closed (a : Addr) (v : Byte) (h : s.txn.isOpen = false) :
    (regWrite a v).run s = .ok () (s.exchanged (writeFrame a [v])) :=
  regWriteN_closed a h (by simp) (by simp)

/-- A read, then a write of what was read with the mask's bits set (R141). -/
theorem regSetBits_closed (a : Addr) (m : Byte) (h : s.txn.isOpen = false) :
    (regSetBits a m).run s = .ok ()
      ((s.exchanged (readFrame s.cfg a 1)).exchanged (writeFrame a [s.nextRead ||| m])) := by
  rw [regSetBits, Eng.bind_ok (regRead_closed a h), regWrite_closed a _ rfl]

/-- A read, then a write of what was read with the mask's bits cleared (R142). -/
theorem regClearBits_closed (a : Addr) (m : Byte) (h : s.txn.isOpen = false) :
    (regClearBits a m).run s = .ok ()
      ((s.exchanged (readFrame s.cfg a 1)).exchanged (writeFrame a [s.nextRead &&& ~~~m])) := by
  rw [regClearBits, Eng.bind_ok (regRead_closed a h), regWrite_closed a _ rfl]

theorem regSetBits_open (a : Addr) (m : Byte) (h : s.txn.isOpen = true) :
    (regSetBits a m).run s = .error .beginWhileOpen (s.fatalState .beginWhileOpen) :=
  Eng.bind_error (regRead_open a h)

theorem regClearBits_open (a : Addr) (m : Byte) (h : s.txn.isOpen = true) :
    (regClearBits a m).run s = .error .beginWhileOpen (s.fatalState .beginWhileOpen) :=
  Eng.bind_error (regRead_open a h)

/-! ### Running an operation -/

theorem runOp_notIdle {i : Instr} {r : Nat} {body : Eng Unit} (h : s.opState ≠ .idle) : runOp i r body s = s := by
  simp [runOp, h]

theorem runOp_ok {i : Instr} {r : Nat} {body : Eng Unit} {t : State} (h : s.opState = .idle)
    (hb : body.run { s with opState := .busy i r } = .ok () t) : runOp i r body s = { t with opState := .idle } := by
  simp [runOp, h, hb]

theorem runOp_error {i : Instr} {r : Nat} {body : Eng Unit} {t : State} {f : FatalReason} (h : s.opState = .idle)
    (hb : body.run { s with opState := .busy i r } = .error f t) : runOp i r body s = t := by
  simp [runOp, h, hb]

theorem runProtocol_notIdle {i : Instr} {r : Nat} {body : Eng OpOutcome} (h : s.opState ≠ .idle) :
    runProtocol i r body s = s := runOp_notIdle h

theorem runProtocol_ok {i : Instr} {r : Nat} {body : Eng OpOutcome} {t : State} {o : OpOutcome} (h : s.opState = .idle)
    (hb : body.run { s with opState := .busy i r } = .ok o t) :
    runProtocol i r body s = { t with opState := .idle, flags := { t.flags with outcome := o } } := by
  rw [runProtocol, runOp_ok (t := { t with flags := { t.flags with outcome := o } }) h]
  rw [Eng.bind_ok hb]
  rfl

theorem runProtocol_error {i : Instr} {r : Nat} {body : Eng OpOutcome} {t : State} {f : FatalReason}
    (h : s.opState = .idle) (hb : body.run { s with opState := .busy i r } = .error f t) : runProtocol i r body s = t :=
  runOp_error h (Eng.bind_error hb)

end Sys2Proof.Machine
end

