-- ==== Sys2Proof/Laws/Made.lean ====
section
/-! SUPPORT. The laws of `exchangedAll` and of `Made`: what a sequence of whole transactions changes, and that the PCD's
answers are taken in order. -/

namespace Sys2Proof.Machine

variable {s t u : State}

/-! ### Sequences of transactions -/

@[simp] theorem exchangedAll_nil (s : State) : s.exchangedAll [] = s := rfl

@[simp] theorem exchangedAll_cons (w : List Byte) (ws : List (List Byte)) (s : State) :
    s.exchangedAll (w :: ws) = (s.exchanged w).exchangedAll ws := rfl

theorem exchangedAll_append (ws ws' : List (List Byte)) (s : State) :
    s.exchangedAll (ws ++ ws') = (s.exchangedAll ws).exchangedAll ws' := List.foldl_append

/-- Transactions change the transaction buffer, the inputs and the record; nothing else. -/
theorem exchangedAll_eq (ws : List (List Byte)) (s : State) :
    s.exchangedAll ws = { s with
      txn := (s.exchangedAll ws).txn, inp := (s.exchangedAll ws).inp, out := (s.exchangedAll ws).out } := by
  induction ws generalizing s with
  | nil => rfl
  | cons w ws ih =>
    rw [exchangedAll_cons, ih (s.exchanged w)]
    rfl

variable (ws : List (List Byte))

@[simp] theorem exchangedAll_uid : (s.exchangedAll ws).uid = s.uid := by rw [exchangedAll_eq]
@[simp] theorem exchangedAll_buf : (s.exchangedAll ws).buf = s.buf := by rw [exchangedAll_eq]
@[simp] theorem exchangedAll_opState : (s.exchangedAll ws).opState = s.opState := by rw [exchangedAll_eq]
@[simp] theorem exchangedAll_sel : (s.exchangedAll ws).sel = s.sel := by rw [exchangedAll_eq]
@[simp] theorem exchangedAll_com : (s.exchangedAll ws).com = s.com := by rw [exchangedAll_eq]
@[simp] theorem exchangedAll_col : (s.exchangedAll ws).col = s.col := by rw [exchangedAll_eq]
@[simp] theorem exchangedAll_flags : (s.exchangedAll ws).flags = s.flags := by rw [exchangedAll_eq]
@[simp] theorem exchangedAll_hostBuf : (s.exchangedAll ws).hostBuf = s.hostBuf := by rw [exchangedAll_eq]
@[simp] theorem exchangedAll_resetLine : (s.exchangedAll ws).resetLine = s.resetLine := by rw [exchangedAll_eq]
@[simp] theorem exchangedAll_cfg : (s.exchangedAll ws).cfg = s.cfg := by rw [exchangedAll_eq]

@[simp] theorem exchangedAll_closed (h : s.txn.isOpen = false) : (s.exchangedAll ws).txn.isOpen = false := by
  induction ws generalizing s with
  | nil => exact h
  | cons w ws ih => exact ih rfl

@[simp] theorem exchangedAll_line : (s.exchangedAll ws).out.line = s.out.line := by
  induction ws generalizing s with
  | nil => rfl
  | cons w ws ih => exact ih

@[simp] theorem exchangedAll_budgets : (s.exchangedAll ws).out.budgets = s.out.budgets := by
  induction ws generalizing s with
  | nil => rfl
  | cons w ws ih => exact ih

@[simp] theorem exchangedAll_host : (s.exchangedAll ws).inp.host = s.inp.host := by
  induction ws generalizing s with
  | nil => rfl
  | cons w ws ih => exact ih

/-! ### The PCD's answers, in order -/

/-- The answers to `m` bytes and then to `n` more are the answers to `m + n`. -/
theorem answer_add (e : Inputs) (m n : Nat) : e.answer (m + n) = e.answer m ++ (e.afterAnswer m).answer n := by
  apply List.ext_getElem
  · simp
  · intro i h h'
    simp only [Inputs.answer, Inputs.afterAnswer, List.length_append, List.length_take, List.length_map,
      List.length_range, List.length_drop] at h h'
    simp only [Inputs.answer, Inputs.afterAnswer, List.getElem_append, List.length_append, List.length_take,
      List.length_map, List.length_range, List.getElem_take, List.getElem_map, List.getElem_range, List.length_drop,
      List.getElem_drop]
    split_ifs <;> first | rfl | omega | (congr 1; omega)

theorem afterAnswer_add (e : Inputs) (m n : Nat) : e.afterAnswer (m + n) = (e.afterAnswer m).afterAnswer n := by
  simp only [Inputs.afterAnswer, List.drop_drop, List.length_drop]
  congr 1
  omega

/-- What is answered depends on the answers to come alone. -/
theorem answer_congr {e f : Inputs} (h : e.pcd = f.pcd) (h' : e.pcdDrawn = f.pcdDrawn) (n : Nat) :
    e.answer n = f.answer n := by
  rw [Inputs.answer, Inputs.answer, h, h']

theorem Made.refl (s : State) : Made s s [] where
  bus := by simp
  answers := by simp [Inputs.answer]
  lengths := by simp
  pcd := by simp
  drawn := by simp

/-- `Made` looks at the bus and the PCD's answers alone. -/
theorem Made.congr {s' t' : State} {x : List Exchange} (h : Made s t x) (hb : s'.out.bus = s.out.bus)
    (hp : s'.inp.pcd = s.inp.pcd) (hd : s'.inp.pcdDrawn = s.inp.pcdDrawn) (hb' : t'.out.bus = t.out.bus)
    (hp' : t'.inp.pcd = t.inp.pcd) (hd' : t'.inp.pcdDrawn = t.inp.pcdDrawn) : Made s' t' x where
  bus := by rw [hb, hb', h.bus]
  answers := by rw [answer_congr hp hd, h.answers]
  lengths := h.lengths
  pcd := by rw [hp, hp', h.pcd]
  drawn := by rw [hp, hd, hd', h.drawn]

theorem Made.left {s' : State} {x : List Exchange} (h : Made s t x) (hb : s'.out.bus = s.out.bus)
    (hp : s'.inp.pcd = s.inp.pcd) (hd : s'.inp.pcdDrawn = s.inp.pcdDrawn) : Made s' t x :=
  h.congr hb hp hd rfl rfl rfl

theorem Made.right {t' : State} {x : List Exchange} (h : Made s t x) (hb : t'.out.bus = t.out.bus)
    (hp : t'.inp.pcd = t.inp.pcd) (hd : t'.inp.pcdDrawn = t.inp.pcdDrawn) : Made s t' x :=
  h.congr rfl rfl rfl hb hp hd

theorem Made.trans {x y : List Exchange} (h : Made s t x) (h' : Made t u y) : Made s u (x ++ y) where
  bus := by rw [h'.bus, h.bus, List.append_assoc]
  answers := by
    rw [List.flatMap_append, List.flatMap_append, List.length_append, answer_add, h.answers, h'.answers,
      answer_congr (f := s.inp.afterAnswer _) h.pcd h.drawn]
  lengths := by
    intro e he
    rcases List.mem_append.mp he with he | he
    · exact h.lengths e he
    · exact h'.lengths e he
  pcd := by
    rw [h'.pcd, h.pcd, List.drop_drop, List.flatMap_append, List.length_append]
  drawn := by
    rw [h'.drawn, h.drawn, h.pcd, List.flatMap_append, List.length_append, List.length_drop]
    omega

theorem Made.exchanged (s : State) {w : List Byte} (h : w.length ≤ 65) :
    Made s (s.exchanged w) [⟨w, s.inp.answer w.length⟩] where
  bus := rfl
  answers := by simp
  lengths := by simpa using h
  pcd := by simp [State.exchanged]
  drawn := by simp [State.exchanged, Inputs.afterAnswer]

/-- A sequence of transactions makes one exchange for each, with these bytes sent. -/
theorem Made.exchangedAll (s : State) {ws : List (List Byte)} (h : ∀ w ∈ ws, w.length ≤ 65) :
    ∃ x, Made s (s.exchangedAll ws) x ∧ x.map Exchange.sent = ws := by
  induction ws generalizing s with
  | nil => exact ⟨[], Made.refl s, rfl⟩
  | cons w ws ih =>
    obtain ⟨x, hx, hm⟩ := ih (s.exchanged w) fun w' hw' => h w' (List.mem_cons_of_mem _ hw')
    exact ⟨_ :: x, (Made.exchanged s (h w List.mem_cons_self)).trans hx, by simp [hm]⟩

/-- One single-register read: the exchange, and the byte it brings back. -/
theorem Made.read (s : State) (a : Addr) :
    ∃ e : Exchange, Made s (s.exchanged (readFrame s.cfg a 1)) [e] ∧ e.sent = readFrame s.cfg a 1 ∧ e.data = s.nextRead :=
  ⟨_, Made.exchanged s (by simp [readFrame]), rfl, by simp [Exchange.data, State.nextRead, readFrame]⟩

/-! ### What a part of a sequence did -/

/-- Whole transactions were made from `s` to `t`, and no transaction is open; the time base's answers, the host's queue, the
reset line, the budgets are as before. -/
structure Did (s t : State) (x : List Exchange) : Prop where
  made : Made s t x
  closed : t.txn.isOpen = false
  inputs : t.inp = { s.inp with pcd := t.inp.pcd, pcdDrawn := t.inp.pcdDrawn }
  record : t.out = { s.out with bus := t.out.bus }

theorem Did.host {x : List Exchange} (h : Did s t x) : t.inp.host = s.inp.host := by rw [h.inputs]

theorem Did.line {x : List Exchange} (h : Did s t x) : t.out.line = s.out.line := by rw [h.record]

theorem Did.budgets {x : List Exchange} (h : Did s t x) : t.out.budgets = s.out.budgets := by rw [h.record]

theorem Did.granted {x : List Exchange} (h : Did s t x) : t.inp.granted = s.inp.granted := by
  rw [h.inputs]
  rfl

/-- Whole transactions do not ask the time base. -/
theorem Did.grant {x : List Exchange} {e : Inputs} (h : Did s t x) (hg : OneGrant e s.inp) : OneGrant e t.inp := by
  rw [h.inputs]
  exact hg

theorem Did.grant_left {x : List Exchange} {f : Inputs} (h : Did s t x) (hg : OneGrant t.inp f) : OneGrant s.inp f := by
  rw [h.inputs] at hg
  exact hg

/-- Nothing but the transaction buffer, the inputs and the record differs. -/
def Only (s t : State) : Prop := t = { s with txn := t.txn, inp := t.inp, out := t.out }

theorem Did.refl (h : s.txn.isOpen = false) : Did s s [] := ⟨Made.refl s, h, rfl, rfl⟩

theorem Did.trans {x y : List Exchange} (h : Did s t x) (h' : Did t u y) : Did s u (x ++ y) :=
  ⟨h.made.trans h'.made, h'.closed, by rw [h'.inputs, h.inputs], by rw [h'.record, h.record]⟩

/-- `Did` does not look at the registers. -/
theorem Did.congr {s' t' : State} {x : List Exchange} (h : Did s t x) (hi : s'.inp = s.inp) (ho : s'.out = s.out)
    (hi' : t'.inp = t.inp) (ho' : t'.out = t.out) (ht' : t'.txn = t.txn) : Did s' t' x :=
  ⟨h.made.congr (by rw [ho]) (by rw [hi]) (by rw [hi]) (by rw [ho']) (by rw [hi']) (by rw [hi']),
    by rw [ht', h.closed], by rw [hi', hi]; exact h.inputs, by rw [ho', ho]; exact h.record⟩

theorem Did.exchanged (s : State) {w : List Byte} (h : w.length ≤ 65) :
    Did s (s.exchanged w) [⟨w, s.inp.answer w.length⟩] :=
  ⟨Made.exchanged s h, rfl, rfl, rfl⟩

/-- A part of a sequence that did nothing but make transactions. -/
theorem Did.transacted {x : List Exchange} (h : Did s t x)
    (ho : t = { s with opState := t.opState, txn := t.txn, inp := t.inp, out := t.out }) : Transacted s t x :=
  ⟨h.made, h.closed, h.inputs, h.record, ho⟩

theorem Transacted.did {x : List Exchange} (h : Transacted s t x) : Did s t x := ⟨h.made, h.closed, h.inputs, h.record⟩

theorem Only.exchanged (s : State) (w : List Byte) : Only s (s.exchanged w) := rfl

theorem regWriteN_did (a : Addr) {d : List Byte} (h : s.txn.isOpen = false) (hd : d.length ≤ 64) :
    ∃ t x, (regWriteN a d).run s = .ok () t ∧ x.map Exchange.sent = dataFrames a d ∧ Did s t x ∧ Only s t := by
  by_cases h0 : d = []
  · subst h0
    exact ⟨s, [], regWriteN_nil a, rfl, .refl h, rfl⟩
  · exact ⟨_, _, regWriteN_closed a h h0 hd, by rw [dataFrames, if_neg h0]; rfl,
      .exchanged s (by simp only [writeFrame, List.length_cons]; omega), .exchanged s _⟩

theorem regWrite_did (a : Addr) (v : Byte) (h : s.txn.isOpen = false) :
    ∃ t e, (regWrite a v).run s = .ok () t ∧ e.sent = writeFrame a [v] ∧ Did s t [e] ∧ Only s t :=
  ⟨_, _, regWrite_closed a v h, rfl, .exchanged s (by simp [writeFrame]), .exchanged s _⟩

theorem regRead_did (a : Addr) (h : s.txn.isOpen = false) :
    ∃ t e, (regRead a).run s = .ok e.data t ∧ e.sent = readFrame s.cfg a 1 ∧ Did s t [e] ∧ Only s t := by
  refine ⟨_, ⟨readFrame s.cfg a 1, s.inp.answer (readFrame s.cfg a 1).length⟩, ?_, rfl,
    .exchanged s (by simp [readFrame]), .exchanged s _⟩
  rw [regRead_closed a h]
  simp [Exchange.data, State.nextRead, readFrame]

/-- A read of `n` bytes: no exchange for `n = 0`, else one, which brings the data back after its first byte (R138). -/
theorem regReadN_did (a : Addr) {n : Nat} (h : s.txn.isOpen = false) (hn : n ≤ 64) :
    ∃ t d x, (regReadN a n).run s = .ok d t ∧ x.map Exchange.sent = (if n = 0 then [] else [readFrame s.cfg a n])
      ∧ d = x.flatMap (fun e => e.received.drop 1) ∧ d.length = n ∧ Did s t x ∧ Only s t := by
  by_cases h0 : n = 0
  · subst h0
    exact ⟨s, [], [], regReadN_zero a, rfl, rfl, rfl, .refl h, rfl⟩
  · have hl : (readFrame s.cfg a n).length = n + 1 := by simp [readFrame]
    refine ⟨_, _, _, regReadN_closed a h (by omega) hn, ?_, ?_, by simp, .exchanged s (by omega), .exchanged s _⟩
    · rw [if_neg h0]
      rfl
    · simp [hl]

end Sys2Proof.Machine
end

