-- ==== Sys2Proof/Laws/Poll.lean ====
section
/-! SUPPORT. The laws of the poll loops: a loop of a sample that is one register read makes a `PollRun` of exchanges, and
changes nothing but the transaction buffer, `irq_sample` and the budget. -/

namespace Sys2Proof.Machine

variable {s t : State}

/-- The state after one poll of register `a` (R162, R170). -/
def State.sampled (a : Addr) (s : State) : State :=
  { s.exchanged (readFrame s.cfg a 1) with com := { s.com with irqSample := s.nextRead } }

theorem crcSample_run (h : s.txn.isOpen = false) :
    crcSample.run s = .ok (crcPoll s.cfg s.nextRead) (s.sampled s.cfg.aDivIrq) := by
  rw [crcSample, Eng.run_bind_get, Eng.bind_ok (regRead_closed _ h)]
  rfl

theorem commSample_run (h : s.txn.isOpen = false) :
    commSample.run s = .ok (commPoll s.cfg s.com.waitMask s.nextRead) (s.sampled s.cfg.aComIrq) := by
  rw [commSample, Eng.run_bind_get, Eng.bind_ok (regRead_closed _ h)]
  rfl

theorem startBudget_run (ms : Nat) : (startBudget ms).run s = .ok s.inp.granted
    { s with inp := s.inp.afterGranted, com := { s.com with budget := some ms },
             out := { s.out with budgets := s.out.budgets ++ [ms] } } := rfl

theorem stopBudget_run : stopBudget.run s = .ok () { s with com := { s.com with budget := none } } := rfl

/-- What a poll loop has done when it ends (R162, R170). -/
structure Polled (a : Addr) (verdict : Byte → Poll) (granted : Nat) (s : State) (proceed : Bool) (t : State)
    (x : List Exchange) : Prop where
  run : PollRun s.cfg a verdict granted proceed x
  did : Did s t x
  sample : ∃ e, x.getLast? = some e ∧ t.com.irqSample = e.data
  rest : t = { s with txn := t.txn, inp := t.inp, out := t.out, com := { s.com with irqSample := t.com.irqSample } }

/-- The exchange of one poll. -/
theorem sampled_did (a : Addr) (s : State) :
    ∃ e : Exchange, Did s (s.sampled a) [e] ∧ e.sent = readFrame s.cfg a 1 ∧ e.data = s.nextRead :=
  ⟨_, (Did.exchanged s (by simp [readFrame])).congr rfl rfl rfl rfl rfl, rfl, by
    simp [Exchange.data, State.nextRead, readFrame]⟩

/-- One poll that ends the loop. -/
theorem Polled.single {a : Addr} {verdict : Byte → Poll} {n : Nat} {b : Bool}
    (hb : b = true ↔ verdict s.nextRead = .proceed) (ha : verdict s.nextRead = .again → 1 = n + 1) :
    ∃ x, Polled a verdict n s b (s.sampled a) x := by
  obtain ⟨e, he, hsent, hdata⟩ := sampled_did a s
  exact ⟨[e],
    { run := ⟨by simp [hsent], by simp, ⟨e, rfl, by rw [hdata]; exact hb, by rw [hdata]; exact ha⟩, by simp⟩
      did := he
      sample := ⟨e, rfl, hdata.symm⟩
      rest := rfl }⟩

/-- One poll that says "again", before the rest of the loop. -/
theorem Polled.cons {a : Addr} {verdict : Byte → Poll} {n : Nat} {b : Bool} {x : List Exchange}
    (hv : verdict s.nextRead = .again) (hx : Polled a verdict n (s.sampled a) b t x) :
    ∃ y, Polled a verdict (n + 1) s b t y := by
  obtain ⟨e, he, hsent, hdata⟩ := sampled_did a s
  obtain ⟨l, hl, hsample⟩ := hx.sample
  have hne : x ≠ [] := by
    rintro rfl
    simp at hl
  have hlast : (e :: x).getLast? = some l := by rw [List.getLast?_cons, hl]; rfl
  exact ⟨e :: x,
    { run :=
        { sent := by
            intro e' he'
            rcases List.mem_cons.mp he' with rfl | he'
            · exact hsent
            · exact hx.run.sent e' he'
          again := by
            intro e' he'
            rw [List.dropLast_cons_of_ne_nil hne] at he'
            rcases List.mem_cons.mp he' with rfl | he'
            · rw [hdata, hv]
            · exact hx.run.again e' he'
          last := by
            obtain ⟨l', h1, h2, h3⟩ := hx.run.last
            obtain rfl : l = l' := by simpa [hl] using h1
            exact ⟨l, hlast, h2, fun h4 => by simp [h3 h4]⟩
          atMost := by simpa using hx.run.atMost }
      did := he.trans hx.did
      sample := ⟨l, hlast, hsample⟩
      rest := by
        rw [hx.rest]
        rfl }⟩

/-- A loop over a poll that is one read of register `a`. -/
theorem pollLoop_run {poll : Eng Poll} {a : Addr} {verdict : Byte → Poll} {c : Config} {m : Byte}
    (hp : ∀ t : State, t.txn.isOpen = false → t.cfg = c → t.com.waitMask = m →
      poll.run t = .ok (verdict t.nextRead) (t.sampled a))
    (n : Nat) (h : s.txn.isOpen = false) (hc : s.cfg = c) (hm : s.com.waitMask = m) :
    ∃ b t x, (pollLoop poll n).run s = .ok b t ∧ Polled a verdict n s b t x := by
  induction n generalizing s with
  | zero =>
    rw [pollLoop, Eng.bind_ok (hp s h hc hm)]
    cases hv : verdict s.nextRead with
    | proceed =>
      obtain ⟨x, hx⟩ := Polled.single (s := s) (a := a) (verdict := verdict) (n := 0) (b := true) (by simp [hv]) (by simp)
      exact ⟨true, _, x, rfl, hx⟩
    | giveUp =>
      obtain ⟨x, hx⟩ := Polled.single (s := s) (a := a) (verdict := verdict) (n := 0) (b := false) (by simp [hv]) (by simp)
      exact ⟨false, _, x, rfl, hx⟩
    | again =>
      obtain ⟨x, hx⟩ := Polled.single (s := s) (a := a) (verdict := verdict) (n := 0) (b := false) (by simp [hv]) (by simp)
      exact ⟨false, _, x, rfl, hx⟩
  | succ n ih =>
    rw [pollLoop, Eng.bind_ok (hp s h hc hm)]
    cases hv : verdict s.nextRead with
    | proceed =>
      obtain ⟨x, hx⟩ := Polled.single (s := s) (a := a) (verdict := verdict) (n := n + 1) (b := true) (by simp [hv]) (by simp [hv])
      exact ⟨true, _, x, rfl, hx⟩
    | giveUp =>
      obtain ⟨x, hx⟩ := Polled.single (s := s) (a := a) (verdict := verdict) (n := n + 1) (b := false) (by simp [hv]) (by simp [hv])
      exact ⟨false, _, x, rfl, hx⟩
    | again =>
      obtain ⟨b, t, x, hr, hx⟩ := ih (s := s.sampled a) rfl hc hm
      obtain ⟨y, hy⟩ := hx.cons hv
      exact ⟨b, t, y, hr, hy⟩

theorem oneGrant_afterGranted (e : Inputs) : OneGrant e e.afterGranted := by
  unfold Inputs.afterGranted
  cases hp : e.polls <;> simp [OneGrant, hp]

/-- What a poll loop under a budget has done when it ends (R286). -/
structure PolledUnder (ms : Nat) (a : Addr) (verdict : Byte → Poll) (s : State) (proceed : Bool) (t : State)
    (x : List Exchange) : Prop where
  run : PollRun s.cfg a verdict s.inp.granted proceed x
  made : Made s t x
  closed : t.txn.isOpen = false
  sample : ∃ e, x.getLast? = some e ∧ t.com.irqSample = e.data
  rest : t = { s with
    txn := t.txn, inp := t.inp, out := t.out, com := { s.com with irqSample := t.com.irqSample, budget := none } }
  grant : OneGrant s.inp t.inp
  line : t.out.line = s.out.line
  budgets : t.out.budgets = s.out.budgets ++ [ms]

theorem pollUnderBudget_run {poll : Eng Poll} {a : Addr} {verdict : Byte → Poll} {c : Config} {m : Byte} (ms : Nat)
    (hp : ∀ t : State, t.txn.isOpen = false → t.cfg = c → t.com.waitMask = m →
      poll.run t = .ok (verdict t.nextRead) (t.sampled a))
    (h : s.txn.isOpen = false) (hc : s.cfg = c) (hm : s.com.waitMask = m) :
    ∃ b t x, (pollUnderBudget ms poll).run s = .ok b t ∧ PolledUnder ms a verdict s b t x := by
  obtain ⟨b, t, x, hr, hx⟩ := pollLoop_run hp s.inp.granted
    (s := { s with inp := s.inp.afterGranted, com := { s.com with budget := some ms },
                   out := { s.out with budgets := s.out.budgets ++ [ms] } }) h hc hm
  refine ⟨b, { t with com := { t.com with budget := none } }, x, ?_, ?_⟩
  · rw [pollUnderBudget, Eng.bind_ok (startBudget_run ms), Eng.bind_ok hr, Eng.bind_ok stopBudget_run, Eng.run_pure]
  · exact
      { run := hx.run
        made := hx.did.made.congr rfl (by simp) (by simp) rfl rfl rfl
        closed := hx.did.closed
        sample := hx.sample
        rest := by rw [hx.rest]
        grant := hx.did.grant (oneGrant_afterGranted _)
        line := hx.did.line
        budgets := hx.did.budgets }

end Sys2Proof.Machine
end

