-- ==== Sys2Proof/Laws/Crc.lean ====
section
/-! SUPPORT. The laws of `compute_crc`: with no transaction open it ends, with the exchanges of R161 to R163. -/

namespace Sys2Proof.Machine

variable {s t : State}

@[simp] theorem Eng.run_bind_atRule {β : Type} (r : Nat) (f : PUnit → Eng β) (s : State) :
    (atRule r >>= f).run s = (f ⟨⟩).run (s.toRule r) := rfl

theorem Did.toRule (r : Nat) {x : List Exchange} (h : Did (s.toRule r) t x) : Did s t x := h.congr rfl rfl rfl rfl rfl

/-- The setup of `compute_crc` is its frames (R161). -/
theorem crcSetup_run {d : List Byte} (h : s.txn.isOpen = false) (hd : d.length ≤ 64) :
    ∃ t x, (crcSetup d).run s = .ok () t ∧ x.map Exchange.sent = crcFrames s.cfg d ∧ Did s t x
      ∧ Only (s.toRule 161) t := by
  obtain ⟨t1, e1, r1, f1, d1, o1⟩ := regWrite_did (s := s.toRule 161) s.cfg.aCommand (commandByte s.cfg.cmdIdle) h
  obtain ⟨t2, e2, r2, f2, d2, o2⟩ := regWrite_did s.cfg.aDivIrq s.cfg.divIrqCrc d1.closed
  obtain ⟨t3, e3, r3, f3, d3, o3⟩ := regWrite_did s.cfg.aFifoLevel s.cfg.fifoFlush d2.closed
  obtain ⟨t4, x4, r4, f4, d4, o4⟩ := regWriteN_did s.cfg.aFifoData d3.closed hd
  obtain ⟨t5, e5, r5, f5, d5, o5⟩ := regWrite_did s.cfg.aCommand (commandByte s.cfg.cmdCalcCrc) d4.closed
  refine ⟨t5, [e1, e2, e3] ++ x4 ++ [e5], ?_, ?_, (d1.trans (d2.trans d3) |>.trans d4 |>.trans d5).toRule, ?_⟩
  · rw [crcSetup, Eng.run_bind_atRule, Eng.run_bind_get]
    dsimp only
    rw [State.toRule_cfg, Eng.bind_ok r1, Eng.bind_ok r2, Eng.bind_ok r3, Eng.bind_ok r4, r5]
  · simp [crcFrames, f1, f2, f3, f4, f5]
  · rw [Only, o5, o4, o3, o2, o1]

/-- The result of `compute_crc`: three exchanges, the last two bring the CRC (R163). -/
theorem crcResult_run (h : s.txn.isOpen = false) :
    ∃ t e l h, crcResult.run s = .ok () t ∧ [e, l, h].map Exchange.sent = crcResultFrames s.cfg
      ∧ t.buf.crc = #v[l.data, h.data] ∧ Did s t [e, l, h]
      ∧ t = { s with opState := t.opState, txn := t.txn, inp := t.inp, out := t.out,
                     buf := ⟨s.buf.fb, s.buf.rsp, s.buf.atqa, t.buf.crc⟩ } := by
  obtain ⟨t1, e1, r1, f1, d1, o1⟩ := regWrite_did (s := s.toRule 163) s.cfg.aCommand (commandByte s.cfg.cmdIdle) h
  obtain ⟨t2, e2, r2, f2, d2, o2⟩ := regRead_did s.cfg.aCrcResultL d1.closed
  obtain ⟨t3, e3, r3, f3, d3, o3⟩ := regRead_did
    (s := { t2 with buf := { t2.buf with crc := t2.buf.crc.setIfInBounds 0 e2.data } }) s.cfg.aCrcResultH d2.closed
  have c1 : t1.cfg = s.cfg := by rw [o1]; rfl
  have c2 : t2.cfg = s.cfg := by rw [o2]; exact c1
  have b2 : t2.buf = s.buf := by rw [o2, o1]; rfl
  refine ⟨{ t3 with buf := { t3.buf with crc := t3.buf.crc.setIfInBounds 1 e3.data } }, e1, e2, e3, ?_, ?_, ?_,
    (d1.trans (d2.trans (d3.congr (s' := t2) (t' := t3) rfl rfl rfl rfl rfl))).toRule.congr rfl rfl rfl rfl rfl, ?_⟩
  · rw [crcResult, Eng.run_bind_atRule, Eng.run_bind_get]
    dsimp only
    rw [State.toRule_cfg, Eng.bind_ok r1, Eng.bind_ok r2, Eng.run_bind_modify, Eng.bind_ok r3, Eng.run_modify]
  · simp only [List.map_cons, List.map_nil, f1, f2, f3, c1, c2]
    rfl
  · rw [o3]
    apply eq_of_byteAt
    intro j hj
    rcases (by omega : j = 0 ∨ j = 1) with rfl | rfl
    · exact (byteAt_set_ne _ _ (by omega)).trans (byteAt_set_self _ _ (by omega))
    · exact byteAt_set_self _ _ (by omega)
  · rw [o3, o2, o1]
    rfl

theorem computeCrc_overflow {d : List Byte} (h : 64 < d.length) :
    (computeCrc d).run s = .error .overflow (s.fatalState .overflow) := by
  simp [computeCrc, h]

theorem computeCrc_open {d : List Byte} (h : s.txn.isOpen = true) (hd : d.length ≤ 64) :
    (computeCrc d).run s = .error .beginWhileOpen ((s.toRule 161).fatalState .beginWhileOpen) := by
  have h2 : ¬ 64 < d.length := by omega
  simp only [computeCrc, gt_iff_lt, h2, if_false]
  refine Eng.bind_error ?_
  rw [crcSetup, Eng.run_bind_atRule, Eng.run_bind_get]
  exact Eng.bind_error (regWrite_open _ _ h)

theorem CrcDone.host {d : List Byte} {o : OpOutcome} {x : List Exchange} (h : CrcDone d s o t x) :
    t.inp.host = s.inp.host := h.grant.2.2

/-- What a `compute_crc` that returned `Ok` did on the bus, and its result. -/
theorem CrcDone.crcExchanges {d : List Byte} {x : List Exchange} (h : CrcDone d s .ok t x) :
    CrcExchanges s.cfg d t.buf.crc x := by
  obtain ⟨setup, polls, result, hx, hs, hp, -, hok, -⟩ := h.exchanges
  obtain ⟨e, l, hi, rfl, hr, hc⟩ := hok rfl
  exact ⟨setup, polls, e, l, hi, s.inp.granted, hx, hs, hp, hr, hc⟩

/-- `compute_crc` of at most 64 bytes ends, if no transaction is open (R164). -/
theorem computeCrc_run {d : List Byte} (h : s.txn.isOpen = false) (hd : d.length ≤ 64) :
    ∃ o t x, (computeCrc d).run s = .ok o t ∧ CrcDone d s o t x := by
  obtain ⟨t1, x1, r1, f1, d1, o1⟩ := crcSetup_run h hd
  have c1 : t1.cfg = s.cfg := by rw [o1]; rfl
  obtain ⟨b, t2, x2, r2, p2⟩ := pollUnderBudget_run (s := t1.toRule 162) (c := s.cfg) (m := t1.com.waitMask)
    (a := s.cfg.aDivIrq) (verdict := crcPoll s.cfg) tCrcMs (fun t ht hc _ => by rw [crcSample_run ht, hc]) d1.closed c1 rfl
  have hrun : (computeCrc d).run s
      = (if b then (do crcResult; return OpOutcome.ok) else pure OpOutcome.timeout : Eng OpOutcome).run t2 := by
    have h2 : ¬ 64 < d.length := by omega
    simp only [computeCrc, gt_iff_lt, h2, if_false]
    rw [Eng.bind_ok r1, Eng.run_bind_atRule, Eng.bind_ok r2]
  have hrest : t2 = { s with
      opState := t2.opState, txn := t2.txn, inp := t2.inp, out := t2.out,
      com := { s.com with irqSample := t2.com.irqSample, budget := none } } := by
    rw [p2.rest, o1]
    rfl
  have c2 : t2.cfg = s.cfg := by rw [hrest]
  have hpr := p2.run
  rw [show (t1.toRule 162).cfg = s.cfg from c1, show (t1.toRule 162).inp.granted = s.inp.granted from d1.granted] at hpr
  have hmade : Made s t2 (x1 ++ x2) := d1.made.trans (p2.made.left rfl rfl rfl)
  have hlast : x2.getLast?.map Exchange.data = some t2.com.irqSample := by
    obtain ⟨e, he, hs⟩ := p2.sample
    rw [he, hs]
    rfl
  cases b with
  | false =>
    exact ⟨.timeout, t2, x1 ++ x2, hrun,
      { ends := .inr rfl
        made := hmade
        exchanges := ⟨x1, x2, [], by simp, f1, hpr, hlast, by simp, fun _ => ⟨rfl, by rw [hrest]⟩⟩
        closed := p2.closed
        rest := by rw [hrest]
        grant := d1.grant_left p2.grant
        line := p2.line.trans d1.line
        budgets := p2.budgets.trans (by rw [State.toRule_out, d1.budgets]) }⟩
  | true =>
    obtain ⟨t3, e, l, h, r3, f3, hcrc, d3, o3⟩ := crcResult_run p2.closed
    exact ⟨.ok, t3, x1 ++ x2 ++ [e, l, h], by rw [hrun, if_pos rfl, Eng.bind_ok r3, Eng.run_pure],
      { ends := .inl rfl
        made := hmade.trans d3.made
        exchanges := ⟨x1, x2, [e, l, h], rfl, f1, hpr, by rw [hlast, o3], fun _ => ⟨e, l, h, rfl, by rw [f3, c2], hcrc⟩, by simp⟩
        closed := d3.closed
        rest := by rw [o3, hrest]
        grant := d3.grant (d1.grant_left p2.grant)
        line := d3.line.trans (p2.line.trans d1.line)
        budgets := d3.budgets.trans (p2.budgets.trans (by rw [State.toRule_out, d1.budgets])) }⟩

end Sys2Proof.Machine
end

