-- ==== Sys2Proof/Laws/Comm.lean ====
section
/-! SUPPORT. The laws of `communicate`: with no transaction open, no CRC check asked for and at most 64 bytes to send it ends,
with the exchanges of R168 to R174, or dies of `Overflow` on a FIFO level above 64 that the caller's capacity lets pass. -/

namespace Sys2Proof.Machine

variable {s t : State}

theorem commSetup_run {send : List Byte} (h : s.txn.isOpen = false) (hd : send.length ≤ 64) :
    ∃ t x, (commSetup send).run s = .ok () t ∧ x.map Exchange.sent = commFrames s.cfg s.com.cmd s.com.bitFraming send
      ∧ Did s t x ∧ Only (s.toRule 168) t := by
  obtain ⟨t1, e1, r1, f1, d1, o1⟩ := regWrite_did (s := s.toRule 168) s.cfg.aCommand (commandByte s.cfg.cmdIdle) h
  obtain ⟨t2, e2, r2, f2, d2, o2⟩ := regWrite_did s.cfg.aComIrq s.cfg.irqClearAll d1.closed
  obtain ⟨t3, e3, r3, f3, d3, o3⟩ := regWrite_did s.cfg.aFifoLevel s.cfg.fifoFlush d2.closed
  obtain ⟨t4, x4, r4, f4, d4, o4⟩ := regWriteN_did s.cfg.aFifoData d3.closed hd
  obtain ⟨t5, e5, r5, f5, d5, o5⟩ := regWrite_did s.cfg.aBitFraming s.com.bitFraming d4.closed
  obtain ⟨t6, e6, r6, f6, d6, o6⟩ := regWrite_did s.cfg.aCommand (commandByte s.com.cmd) d5.closed
  refine ⟨t6, [e1, e2, e3] ++ x4 ++ [e5, e6], ?_, ?_, (d1.trans (d2.trans d3) |>.trans d4 |>.trans (d5.trans d6)).toRule,
    ?_⟩
  · rw [commSetup, Eng.run_bind_atRule, Eng.run_bind_get]
    dsimp only
    rw [State.toRule_cfg, State.toRule_com, Eng.bind_ok r1, Eng.bind_ok r2, Eng.bind_ok r3, Eng.bind_ok r4,
      Eng.bind_ok r5, r6]
  · simp [commFrames, f1, f2, f3, f4, f5, f6]
  · rw [Only, o6, o5, o4, o3, o2, o1]

/-- Step 3: nothing, or a read and a write of the byte it brought back with the start bit set (R169). -/
theorem commStartSend_run (h : s.txn.isOpen = false) :
    ∃ t x, commStartSend.run s = .ok () t
      ∧ x.map Exchange.sent = startFrames s.cfg s.com.cmd ((x.map Exchange.data).headD 0)
      ∧ Did s t x ∧ Only (s.toRule 169) t := by
  by_cases hc : s.com.cmd = s.cfg.cmdTransceive
  · obtain ⟨t1, e1, r1, f1, d1, o1⟩ := regRead_did (s := s.toRule 169) s.cfg.aBitFraming h
    obtain ⟨t2, e2, r2, f2, d2, o2⟩ := regWrite_did s.cfg.aBitFraming (e1.data ||| s.cfg.startSend) d1.closed
    refine ⟨t2, [e1, e2], ?_, ?_, (d1.trans d2).toRule, ?_⟩
    · rw [commStartSend, Eng.run_bind_atRule, Eng.run_bind_get]
      rw [if_pos (show (s.toRule 169).com.cmd = (s.toRule 169).cfg.cmdTransceive from hc), State.toRule_cfg, regSetBits,
        Eng.bind_ok r1, r2]
    · simp [startFrames, hc, f1, f2]
    · rw [Only, o2, o1]
  · refine ⟨s.toRule 169, [], ?_, ?_, (Did.refl h).congr rfl rfl rfl rfl rfl, rfl⟩
    · rw [commStartSend, Eng.run_bind_atRule, Eng.run_bind_get]
      rw [if_neg (show ¬(s.toRule 169).com.cmd = (s.toRule 169).cfg.cmdTransceive from hc), Eng.run_pure]
    · simp [startFrames, hc]

theorem commError_run (h : s.txn.isOpen = false) :
    ∃ t e, commError.run s = .ok (isErrorSample s.cfg e.data) t ∧ e.sent = readFrame s.cfg s.cfg.aError 1
      ∧ Did s t [e] ∧ t.com.errSample = e.data
      ∧ t = { s with opState := t.opState, txn := t.txn, inp := t.inp, out := t.out,
                     com := { s.com with errSample := t.com.errSample } } := by
  obtain ⟨t1, e1, r1, f1, d1, o1⟩ := regRead_did (s := s.toRule 171) s.cfg.aError h
  refine ⟨{ t1 with com := { t1.com with errSample := e1.data } }, e1, ?_, f1, d1.toRule.congr rfl rfl rfl rfl rfl, rfl, ?_⟩
  · rw [commError, Eng.run_bind_atRule, Eng.run_bind_get]
    dsimp only
    rw [State.toRule_cfg, Eng.bind_ok r1, Eng.run_bind_modify, Eng.run_pure]
  · rw [o1]
    rfl

/-- The drain of a FIFO of at most 64 bytes (R172 to R174). -/
theorem commDrain_run (w : Window) {level : Byte} (h : s.txn.isOpen = false) (hl : level.toNat ≤ 64) :
    ∃ t d c data, (commDrain w level).run s = .ok () t ∧ Did s t (d ++ [c])
      ∧ d.map Exchange.sent = (if level.toNat = 0 then [] else [readFrame s.cfg s.cfg.aFifoData level.toNat])
      ∧ data = d.flatMap (fun e => e.received.drop 1) ∧ data.length = level.toNat
      ∧ c.sent = readFrame s.cfg s.cfg.aControl 1
      ∧ t.com.bytesWritten = level.setWidth 7
      ∧ t.com.validBits = (c.data &&& s.cfg.rxLastBitsMask).setWidth 3
      ∧ t = { w.store (mergeFirst (w.first s) s.com.rxAlign data) s with
          opState := t.opState, txn := t.txn, inp := t.inp, out := t.out,
          com := { s.com with bytesWritten := t.com.bytesWritten, validBits := t.com.validBits } } := by
  obtain ⟨t1, data, d, r1, f1, e1, l1, d1, o1⟩ := regReadN_did s.cfg.aFifoData h hl
  have hfirst : w.first t1 = w.first s := by
    rw [o1]
    cases w <;> rfl
  have halign : t1.com.rxAlign = s.com.rxAlign := by rw [o1]
  let t2 := w.store (mergeFirst (w.first s) s.com.rxAlign data) t1
  let t3 : State := ({ t2 with com := { t2.com with bytesWritten := level.setWidth 7 } } : State).toRule 174
  have h3 : t3.txn = t1.txn ∧ t3.inp = t1.inp ∧ t3.out = t1.out ∧ t3.cfg = t1.cfg := by
    cases w <;> exact ⟨rfl, rfl, rfl, rfl⟩
  obtain ⟨t4, c, r4, f4, d4, o4⟩ := regRead_did (s := t3) s.cfg.aControl (by rw [h3.1, d1.closed])
  have hc : t1.cfg = s.cfg := by rw [o1]
  refine ⟨{ t4 with com := { t4.com with validBits := (c.data &&& s.cfg.rxLastBitsMask).setWidth 3 } }, d, c, data, ?_,
    (d1.trans (d4.congr (s' := t1) (t' := t4) h3.2.1.symm h3.2.2.1.symm rfl rfl rfl)).congr rfl rfl rfl rfl rfl,
    f1, e1, l1, ?_, ?_, rfl, ?_⟩
  · rw [commDrain, Eng.run_bind_get]
    dsimp only
    rw [Eng.bind_ok r1, Eng.run_bind_modify, Eng.run_bind_modify, Eng.run_bind_atRule, hfirst, halign, Eng.bind_ok r4,
      Eng.run_modify]
  · rw [f4, h3.2.2.2, hc]
  · rw [o4]
    rfl
  · rw [o4]
    simp only [t3, t2]
    rw [o1]
    cases w <;> rfl

/-- The drain dies of `Overflow` on a FIFO level above 64 (R138, R172). -/
theorem commDrain_overflow (w : Window) {level : Byte} (hl : 64 < level.toNat) :
    (commDrain w level).run s = .error .overflow (s.fatalState .overflow) := by
  rw [commDrain, Eng.run_bind_get]
  exact Eng.bind_error (regReadN_overflow _ hl)

/-- Steps 7 and 9 (R175, R176). -/
theorem commVerdict_run {c : Config} {v : Byte} (hc : s.cfg = c) (hv : s.com.errSample = v) :
    commVerdict.run s = .ok (if isCollisionSample c v then .collision else .ok) (s.toRule 175) := by
  subst hc hv
  rfl

/-- Steps 5 to 9 leave everything but the receive window and the sequencer's scalars. -/
def FinishRest (w : Window) (data : List Byte) (s t : State) : Prop :=
  t = { w.store (mergeFirst (w.first s) s.com.rxAlign data) s with
    opState := t.opState, txn := t.txn, inp := t.inp, out := t.out,
    com := { s.com with validBits := t.com.validBits, bytesWritten := t.com.bytesWritten, errSample := t.com.errSample,
                        fifoN := t.com.fifoN } }

theorem Window.store_nil (w : Window) (s : State) : w.store [] s = s := by cases w <;> rfl

theorem Window.first_congr (w : Window) {s t : State} (hb : t.buf = s.buf) (hh : t.hostBuf = s.hostBuf) :
    w.first t = w.first s := by
  cases w <;> simp [Window.first, hb, hh]

theorem Window.store_congr (w : Window) (bs : List Byte) {s t : State}
    (h : t = { s with opState := t.opState, txn := t.txn, inp := t.inp, out := t.out, com := t.com }) :
    w.store bs t = { w.store bs s with
      opState := t.opState, txn := t.txn, inp := t.inp, out := t.out, com := t.com } := by
  rw [h]
  cases w <;> rfl

/-- Steps 5 to 9 of a `communicate` whose operands are `a` (R171 to R176). -/
theorem commFinish_run {a : CommArgs} (h : s.txn.isOpen = false) (hp : s.com.recvPresent = a.recvPresent)
    (hcap : s.com.recvCap = a.recvCap) (hw : s.com.bytesWritten = 0) (hv : s.com.validBits = a.validBits) :
    (∃ o t tail data, (commFinish a.recv).run s = .ok o t ∧ o ≠ .timeout ∧ CommVerdict a s o t tail data ∧ Did s t tail
        ∧ FinishRest a.recv data s t)
    ∨ (∃ t tail, (commFinish a.recv).run s = .error .overflow (t.fatalState .overflow) ∧ Did s t tail
        ∧ (∃ e l, tail = [e, l] ∧ e.sent = readFrame s.cfg s.cfg.aError 1 ∧ t.com.errSample = e.data
          ∧ isErrorSample s.cfg e.data = false ∧ l.sent = readFrame s.cfg s.cfg.aFifoLevel 1 ∧ t.com.fifoN = l.data)
        ∧ a.recvPresent = true ∧ 64 < t.com.fifoN.toNat ∧ t.com.fifoN.toNat ≤ a.recvCap.toNat
        ∧ FinishRest a.recv [] s t ∧ t.com.bytesWritten = 0 ∧ t.com.validBits = a.validBits) := by
  obtain ⟨t1, e, r1, f1, d1, s1, o1⟩ := commError_run h
  rw [commFinish, Eng.bind_ok r1]
  have c1 : t1.cfg = s.cfg := by rw [o1]
  have w1 : t1.com.bytesWritten = 0 := by rw [o1]; exact hw
  have v1 : t1.com.validBits = a.validBits := by rw [o1]; exact hv
  have rest1 : FinishRest a.recv [] s t1 := by
    rw [FinishRest, mergeFirst_nil, Window.store_nil, o1]
  by_cases he : isErrorSample s.cfg e.data = true
  · rw [if_pos he]
    exact .inl ⟨.error, t1, [e], [], rfl, by simp, ⟨e, rfl, f1, s1, he, by rw [o1], rfl, w1, v1⟩, d1, rest1⟩
  rw [if_neg he]
  rw [Bool.not_eq_true] at he
  by_cases hr : a.recvPresent = true
  · have hr1 : (t1.toRule 172).com.recvPresent = true := by
      rw [State.toRule_com, o1]
      exact hp.trans hr
    obtain ⟨t2, l, r2, f2, d2, o2⟩ := regRead_did (s := t1.toRule 172) s.cfg.aFifoLevel d1.closed
    have hcap1 : t1.com.recvCap = a.recvCap := by rw [o1]; exact hcap
    let t3 : State := { t2 with com := { t2.com with fifoN := l.data } }
    have d3 : Did s t3 [e, l] := d1.trans (d2.toRule.congr (t' := t3) rfl rfl rfl rfl rfl)
    have rest3 : FinishRest a.recv [] s t3 := by
      simp only [FinishRest, mergeFirst_nil, Window.store_nil, t3]
      rw [o2, o1]
      rfl
    have w3 : t3.com.bytesWritten = 0 := by
      simp only [t3]
      rw [o2]
      exact w1
    have v3 : t3.com.validBits = a.validBits := by
      simp only [t3]
      rw [o2]
      exact v1
    have e3 : t3.com.errSample = e.data := by
      simp only [t3]
      rw [o2]
      exact s1
    have c3 : t3.cfg = s.cfg := by
      simp only [t3]
      rw [o2]
      exact c1
    have hrecv : (commReceive a.recv).run t1
        = (if l.data.toNat > a.recvCap.toNat then pure false
            else do commDrain a.recv l.data; return true : Eng Bool).run t3 := by
      rw [commReceive, Eng.run_bind_atRule, Eng.run_bind_get, if_pos hr1]
      rw [State.toRule_cfg, c1, Eng.bind_ok r2, Eng.run_bind_modify, State.toRule_com, hcap1]
    by_cases hroom : l.data.toNat > a.recvCap.toNat
    · rw [if_pos hroom] at hrecv
      rw [Eng.bind_ok hrecv]
      exact .inl ⟨.noRoom, t3, [e, l], [], rfl, by simp,
        ⟨e, l, rfl, f1, e3, he, hr, by rw [f2, State.toRule_cfg, c1], rfl, hroom, rfl, w3, v3⟩, d3, rest3⟩
    · rw [if_neg hroom] at hrecv
      by_cases h64 : 64 < l.data.toNat
      · refine .inr ⟨t3, [e, l], ?_, d3, ⟨e, l, rfl, f1, e3, he, by rw [f2, State.toRule_cfg, c1], rfl⟩, hr, h64, Nat.le_of_not_lt hroom, rest3, w3, v3⟩
        exact Eng.bind_error (hrecv.trans (Eng.bind_error (commDrain_overflow a.recv h64)))
      · obtain ⟨t4, d, c, data, r4, d4, f4, hdata, hlen, fc, w4, v4, o4⟩ :=
          commDrain_run a.recv (s := t3) d3.closed (Nat.le_of_not_lt h64)
        rw [Eng.bind_ok r4, Eng.run_pure] at hrecv
        have e4 : t4.com.errSample = e.data := by rw [o4]; exact e3
        have n4 : t4.com.fifoN = l.data := by rw [o4]
        have c4 : t4.cfg = s.cfg := by
          rw [o4]
          cases a.recv <;> exact c3
        have b4 : t4.com.bytesWritten.toNat = l.data.toNat := by
          rw [w4, BitVec.toNat_setWidth, Nat.mod_eq_of_lt (by omega)]
        have hal : t3.com.rxAlign = s.com.rxAlign := by
          simp only [t3]
          rw [o2, o1]
          rfl
        have hst : t3 = { s with opState := t3.opState, txn := t3.txn, inp := t3.inp, out := t3.out, com := t3.com } := by
          simp only [t3]
          rw [o2, o1]
          rfl
        rw [Eng.bind_ok hrecv, if_pos rfl, commVerdict_run c4 e4]
        refine .inl ⟨_, _, [e, l] ++ (d ++ [c]), data, rfl, by split <;> simp, ?_, (d3.trans d4).congr rfl rfl rfl rfl rfl,
          ?_⟩
        · have key : e.sent = readFrame s.cfg s.cfg.aError 1 ∧ (t4.toRule 175).com.errSample = e.data
              ∧ isErrorSample s.cfg e.data = false := ⟨f1, e4, he⟩
          have key2 : ∃ l' d' c', l :: (d ++ [c]) = l' :: d' ++ [c'] ∧ l'.sent = readFrame s.cfg s.cfg.aFifoLevel 1
            ∧ (t4.toRule 175).com.fifoN = l'.data
            ∧ l'.data.toNat ≤ a.recvCap.toNat ∧ l'.data.toNat ≤ maxData
            ∧ d'.map Exchange.sent = (if l'.data.toNat = 0 then [] else [readFrame s.cfg s.cfg.aFifoData l'.data.toNat])
            ∧ data = d'.flatMap (fun e => e.received.drop 1) ∧ data.length = l'.data.toNat
            ∧ (t4.toRule 175).com.bytesWritten.toNat = l'.data.toNat
            ∧ c'.sent = readFrame s.cfg s.cfg.aControl 1
            ∧ (t4.toRule 175).com.validBits = (c'.data &&& s.cfg.rxLastBitsMask).setWidth 3 :=
            ⟨l, d, c, rfl, by rw [f2, State.toRule_cfg, c1], n4, Nat.le_of_not_lt hroom, Nat.le_of_not_lt h64,
              by rw [f4, c3], hdata, hlen, b4, by rw [fc, c3], by rw [State.toRule_com, v4, c3]⟩
          by_cases hcoll : isCollisionSample s.cfg e.data = true
          · rw [if_pos hcoll]
            exact ⟨e, _, rfl, key.1, key.2.1, key.2.2, by rw [hcoll]; rfl, by rw [if_pos hr]; exact key2⟩
          · rw [if_neg hcoll]
            exact ⟨e, _, rfl, key.1, key.2.1, key.2.2, by rw [Bool.not_eq_true] at hcoll; rw [hcoll]; rfl,
              by rw [if_pos hr]; exact key2⟩
        · rw [FinishRest, o4, Window.store_congr a.recv _ hst, hal, Window.first_congr a.recv (t := t3) (s := s)
            (by rw [hst]) (by rw [hst])]
          simp only [State.toRule]
          have hcom : t3.com = { s.com with
              validBits := t3.com.validBits, bytesWritten := t3.com.bytesWritten, errSample := t3.com.errSample,
              fifoN := t3.com.fifoN } := by
            simp only [t3]
            rw [o2, o1]
            rfl
          rw [hcom]
  · have hr1 : ¬(t1.toRule 172).com.recvPresent = true := by
      rw [State.toRule_com, o1]
      rw [← hp] at hr
      exact hr
    have hrecv : (commReceive a.recv).run t1 = .ok true (t1.toRule 172) := by
      rw [commReceive, Eng.run_bind_atRule, Eng.run_bind_get, if_neg hr1, Eng.run_pure]
    rw [Eng.bind_ok hrecv, if_pos rfl, commVerdict_run (s := t1.toRule 172) c1 s1]
    have n1 : (t1.toRule 172).com.fifoN = s.com.fifoN := by rw [State.toRule_com, o1]
    refine .inl ⟨_, _, [e], [], rfl, by split <;> simp, ?_, d1.congr rfl rfl rfl rfl rfl, ?_⟩
    · by_cases hcoll : isCollisionSample s.cfg e.data = true
      · rw [if_pos hcoll]
        exact ⟨e, _, rfl, f1, s1, he, by rw [hcoll]; rfl, by rw [if_neg hr]; exact ⟨rfl, n1, rfl, w1, v1⟩⟩
      · rw [if_neg hcoll]
        exact ⟨e, _, rfl, f1, s1, he, by rw [Bool.not_eq_true] at hcoll; rw [hcoll]; rfl,
          by rw [if_neg hr]; exact ⟨rfl, n1, rfl, w1, v1⟩⟩
    · rw [FinishRest, mergeFirst_nil, Window.store_nil, o1]
      rfl

/-! ### The whole -/

/-- The operands latched. -/
def CommArgs.latched (a : CommArgs) (s : State) : State :=
  { s with com := { s.com with
      cmd := a.cmd, waitMask := a.waitMask, rxAlign := a.rxAlign, validBits := a.validBits, checkCrc := a.checkCrc,
      recvPresent := a.recvPresent, recvCap := a.recvCap } }

theorem commLatch_run (a : CommArgs) : (commLatch a).run s = .ok ⟨⟩ (a.latched s) := rfl

theorem communicate_unsupported {a : CommArgs} (h : a.checkCrc = true) :
    (communicate a).run s = .error .unsupported (((a.latched s).toRule 166).fatalState .unsupported) := by
  rw [communicate, Eng.bind_ok (commLatch_run a)]
  refine Eng.bind_error ?_
  rw [commEntry, Eng.run_bind_atRule, Eng.run_bind_get, if_pos (by exact h)]
  rfl

theorem commEntry_overflow {send : List Byte} (h : s.com.checkCrc = false) (hd : 64 < send.length) :
    (commEntry send).run s = .error .overflow ((s.toRule 166).fatalState .overflow) := by
  have h' : ¬(s.toRule 166).com.checkCrc = true := by
    rw [State.toRule_com, h]
    simp
  rw [commEntry, Eng.run_bind_atRule, Eng.run_bind_get, if_neg h', if_pos (by exact hd)]
  rfl

theorem commEntry_run {send : List Byte} (h : s.com.checkCrc = false) (hd : send.length ≤ 64) :
    (commEntry send).run s = .ok ⟨⟩ { s.toRule 166 with com := { s.com with bytesWritten := 0 } } := by
  have h' : ¬(s.toRule 166).com.checkCrc = true := by
    rw [State.toRule_com, h]
    simp
  have hd' : ¬ send.length > maxData := by simpa using hd
  rw [commEntry, Eng.run_bind_atRule, Eng.run_bind_get, if_neg h', if_neg hd']
  rfl

theorem communicate_overflow {a : CommArgs} (h : a.checkCrc = false) (hd : 64 < a.send.length) :
    (communicate a).run s = .error .overflow (((a.latched s).toRule 166).fatalState .overflow) := by
  rw [communicate, Eng.bind_ok (commLatch_run a)]
  exact Eng.bind_error (commEntry_overflow h hd)

/-- The state in which step 2 begins. -/
def CommArgs.framed (a : CommArgs) (s : State) : State :=
  { (({ (a.latched s).toRule 166 with com := { (a.latched s).com with bytesWritten := 0 } } : State).toRule 167) with
    com := { (a.latched s).com with bytesWritten := 0, bitFraming := framingByte a.rxAlign a.validBits } }

theorem communicate_framed {a : CommArgs} (h : a.checkCrc = false) (hd : a.send.length ≤ 64) :
    (communicate a).run s = (do
      commSetup a.send
      commStartSend
      atRule 170
      if ← pollUnderBudget tCommMs commSample then
        commFinish a.recv
      else
        return .timeout : Eng OpOutcome).run (a.framed s) := by
  rw [communicate, Eng.bind_ok (commLatch_run a), Eng.bind_ok (commEntry_run h hd)]
  rfl

theorem communicate_open {a : CommArgs} (h : a.checkCrc = false) (hd : a.send.length ≤ 64) (ho : s.txn.isOpen = true) :
    (communicate a).run s = .error .beginWhileOpen (((a.framed s).toRule 168).fatalState .beginWhileOpen) := by
  rw [communicate_framed h hd]
  refine Eng.bind_error ?_
  rw [commSetup, Eng.run_bind_atRule, Eng.run_bind_get]
  exact Eng.bind_error (regWrite_open _ _ ho)

/-- `communicate`, whole (R177). -/
theorem communicate_run {a : CommArgs} (h : s.txn.isOpen = false) (hc : a.checkCrc = false) (hd : a.send.length ≤ 64) :
    (∃ o t x data, (communicate a).run s = .ok o t ∧ CommDone a s o t x data)
    ∨ (∃ t x, (communicate a).run s = .error .overflow t ∧ CommOverflow a s t x) := by
  have h0 : (a.framed s).txn.isOpen = false := h
  obtain ⟨t1, x1, r1, f1, d1, o1⟩ := commSetup_run h0 hd
  obtain ⟨t2, x2, r2, f2, d2, o2⟩ := commStartSend_run d1.closed
  have c2 : t2.cfg = s.cfg := by
    rw [o2, o1]
    rfl
  have m2 : t2.com = (a.framed s).com := by
    rw [o2, o1]
    rfl
  obtain ⟨b, t3, x3, r3, p3⟩ := pollUnderBudget_run (s := t2.toRule 170) (c := s.cfg) (m := a.waitMask)
    (a := s.cfg.aComIrq) (verdict := commPoll s.cfg a.waitMask) tCommMs
    (fun t ht hc hm => by rw [commSample_run ht, hc, hm]) d2.closed c2 (by rw [State.toRule_com, m2]; rfl)
  have hrun : (communicate a).run s = (if b then commFinish a.recv else pure .timeout : Eng OpOutcome).run t3 := by
    rw [communicate_framed hc hd, Eng.bind_ok r1, Eng.bind_ok r2, Eng.run_bind_atRule, Eng.bind_ok r3]
  have d12 : Did s t2 (x1 ++ x2) := (d1.trans d2).congr rfl rfl rfl rfl rfl
  have hmade : Made s t3 (x1 ++ x2 ++ x3) := d12.made.trans (p3.made.left rfl rfl rfl)
  have hpr := p3.run
  rw [show (t2.toRule 170).cfg = s.cfg from c2, show (t2.toRule 170).inp.granted = s.inp.granted from d12.granted] at hpr
  have f1' : x1.map Exchange.sent = commFrames s.cfg a.cmd (framingByte a.rxAlign a.validBits) a.send := f1
  have f2' : x2.map Exchange.sent = startFrames s.cfg a.cmd ((x2.map Exchange.data).headD 0) := by
    rw [f2, o1]
    rfl
  have hcom3 : t3.com = { (a.framed s).com with irqSample := t3.com.irqSample, budget := none } := by
    rw [p3.rest, State.toRule_com, m2]
  have hrest3 : t3 = { s with opState := t3.opState, txn := t3.txn, inp := t3.inp, out := t3.out, com := t3.com } := by
    rw [p3.rest, o2, o1]
    rfl
  have c3 : t3.cfg = s.cfg := by rw [hrest3]
  have herr3 : t3.com.errSample = s.com.errSample := by rw [hcom3]; rfl
  have hfifo3 : t3.com.fifoN = s.com.fifoN := by rw [hcom3]; rfl
  have hgrant : OneGrant s.inp t3.inp := d12.grant_left p3.grant
  have hline : t3.out.line = s.out.line := p3.line.trans d12.line
  have hbud : t3.out.budgets = s.out.budgets ++ [tCommMs] :=
    p3.budgets.trans (by rw [State.toRule_out, d12.budgets])
  have hlast : x3.getLast?.map Exchange.data = some t3.com.irqSample := by
    obtain ⟨e, he, hs⟩ := p3.sample
    rw [he, hs]
    rfl
  cases b with
  | false =>
    refine .inl ⟨.timeout, t3, x1 ++ x2 ++ x3 ++ [], [], hrun, ?_⟩
    exact
      { made := by simpa using hmade
        exchanges := ⟨x1 ++ x2 ++ x3, [], rfl, ⟨x1, x2, x3, rfl, f1', f2', hpr, hlast⟩, rfl, herr3, hfifo3, rfl,
          by rw [hcom3]; rfl, by rw [hcom3]; rfl⟩
        closed := p3.closed
        rest := by rw [mergeFirst_nil, Window.store_nil, hrest3]
        com := by
          rw [hcom3]
          rfl
        grant := hgrant
        line := hline
        budgets := hbud }
  | true =>
    rw [if_pos rfl] at hrun
    rcases commFinish_run (a := a) p3.closed (by rw [hcom3]; rfl) (by rw [hcom3]; rfl) (by rw [hcom3]; rfl)
      (by rw [hcom3]; rfl) with ⟨o, t4, x4, data, r4, ho, v4, d4, o4⟩ |
        ⟨t4, x4, r4, d4, ⟨e, l, rfl, fe, he, hne, fl, hfl⟩, hp, hl, hl', o4, w4, v4⟩
    · have hne : (o != OpOutcome.timeout) = true := by simpa using ho
      have hal : t3.com.rxAlign = a.rxAlign := by
        rw [hcom3]
        rfl
      refine .inl ⟨o, t4, x1 ++ x2 ++ x3 ++ x4, data, hrun.trans r4, ?_⟩
      exact
        { made := hmade.trans d4.made
          exchanges := ⟨x1 ++ x2 ++ x3, x4, rfl, ⟨x1, x2, x3, rfl, f1', f2', by rw [hne]; exact hpr, by rw [hlast, o4]⟩, by
            have key : CommVerdict a t3 o t4 x4 data = CommVerdict a s o t4 x4 data := by
              unfold CommVerdict
              rw [c3, herr3, hfifo3]
            rw [← key]
            exact v4⟩
          closed := d4.closed
          rest := by
            rw [FinishRest] at o4
            rw [o4, Window.store_congr a.recv _ hrest3, Window.first_congr a.recv (t := t3) (s := s) (by rw [hrest3])
              (by rw [hrest3]), hal]
          com := by
            rw [FinishRest] at o4
            rw [o4, hcom3]
            rfl
          grant := d4.grant hgrant
          line := d4.line.trans hline
          budgets := d4.budgets.trans hbud }
    · refine .inr ⟨t4.fatalState .overflow, x1 ++ x2 ++ x3 ++ [e, l], hrun.trans r4, ?_⟩
      rw [FinishRest, mergeFirst_nil, Window.store_nil] at o4
      exact
        { made := (hmade.trans d4.made).right rfl rfl rfl
          exchanges := ⟨x1 ++ x2 ++ x3, e, l, rfl,
            ⟨x1, x2, x3, rfl, f1', f2', hpr, by rw [State.fatalState_com, hlast, o4]⟩,
            by rw [← c3]; exact fe, he, by rw [← c3]; exact hne, by rw [← c3]; exact fl, hfl⟩
          present := hp
          level := ⟨hl, hl'⟩
          closed := d4.closed
          rest := by
            rw [o4, hrest3]
            rfl
          com := by
            rw [State.fatalState_com]
            have hcom4 : t4.com = { t3.com with
                validBits := t4.com.validBits, bytesWritten := t4.com.bytesWritten, errSample := t4.com.errSample,
                fifoN := t4.com.fifoN } := by rw [o4]
            rw [hcom4, w4, v4, hcom3]
            rfl
          grant := d4.grant hgrant
          budgets := d4.budgets.trans hbud
          line := d4.line.trans hline }

end Sys2Proof.Machine
end

