-- ==== Sys2Proof/Laws/Activation.lean ====
section
/-! SUPPORT. The laws of `request_or_wakeup` and `is_new_card_present`, and of the exchange inside a round of `select`. -/

namespace Sys2Proof.Machine

variable {s t : State}

theorem transceive_run (a : CommArgs) (s : State) : (transceive a).run s = (communicate (a.transceive s.cfg)).run s := rfl

/-- A `communicate` whose caller offers at most 64 bytes never dies (R172, R281). -/
theorem communicate_ends {a : CommArgs} (h : s.txn.isOpen = false) (hc : a.checkCrc = false) (hd : a.send.length ≤ 64)
    (hr : a.recvCap.toNat ≤ 64) : ∃ o t x data, (communicate a).run s = .ok o t ∧ CommDone a s o t x data := by
  rcases communicate_run h hc hd with h | ⟨t, x, -, ht⟩
  · exact h
  · have := ht.level
    omega

/-- `CommDone` does not look at what the latch overwrites, nor at `op_state`. -/
theorem CommDone.congr {a : CommArgs} {s' : State} {o : OpOutcome} {x : List Exchange} {data : List Byte}
    (h : CommDone a s' o t x data)
    (hs : s' = { s with opState := s'.opState, com := s'.com })
    (hc : s'.com = { s.com with cmd := s'.com.cmd, waitMask := s'.com.waitMask, rxAlign := s'.com.rxAlign, validBits := s'.com.validBits }) :
    CommDone a s o t x data where
  made := h.made.left (by rw [hs]) (by rw [hs]) (by rw [hs])
  exchanges := by
    obtain ⟨w, x4, h1, ⟨x1, x2, x3, h0, h2, h3, h4, h6⟩, h5⟩ := h.exchanges
    have hcfg : s'.cfg = s.cfg := by rw [hs]
    have hinp : s'.inp = s.inp := by rw [hs]
    refine ⟨w, x4, h1, ⟨x1, x2, x3, h0, by rw [← hcfg]; exact h2, by rw [← hcfg]; exact h3,
      by rw [← hcfg, ← hinp]; exact h4, h6⟩, ?_⟩
    have key : CommVerdict a s' o t x4 data = CommVerdict a s o t x4 data := by
      unfold CommVerdict
      rw [hcfg, show s'.com.errSample = s.com.errSample by rw [hc], show s'.com.fifoN = s.com.fifoN by rw [hc]]
    rw [← key]
    exact h5
  closed := h.closed
  rest := by
    rw [h.rest, Window.first_congr a.recv (t := s') (s := s) (by rw [hs]) (by rw [hs])]
    generalize mergeFirst (a.recv.first s) a.rxAlign data = bs
    rw [hs]
    cases a.recv <;> rfl
  com := by
    rw [h.com, hc]
  grant := by
    have := h.grant
    rw [hs] at this
    exact this
  line := by rw [h.line, hs]
  budgets := by rw [h.budgets, hs]

theorem CommDone.host {a : CommArgs} {o : OpOutcome} {x : List Exchange} {data : List Byte} (h : CommDone a s o t x data) :
    t.inp.host = s.inp.host := h.grant.2.2

/-- The exchange of a short frame ends (R202). -/
theorem shortFrame_run (op : BitVec 7) (h : s.txn.isOpen = false) :
    ∃ o t x data, (shortFrame op).run s = .ok o t ∧ CommDone (shortArgs s.cfg op) s o t x data := by
  obtain ⟨o, t, x, data, hr, hd⟩ := communicate_ends (a := shortArgs s.cfg op)
    (s := { s.toRule 202 with com := { s.com with validBits := BitVec.ofNat 3 shortFrameBits } }) h rfl
    (by simp [shortArgs, innerArgs, CommArgs.transceive]) (show (BitVec.ofNat 7 atqaLen).toNat ≤ 64 by decide)
  refine ⟨o, t, x, data, ?_, hd.congr rfl rfl⟩
  rw [shortFrame, Eng.run_bind_atRule, Eng.run_bind_modify, transceive_run]
  exact hr

theorem regClearBits_did (a : Addr) (m : Byte) (h : s.txn.isOpen = false) :
    ∃ t r w, (regClearBits a m).run s = .ok () t ∧ r.sent = readFrame s.cfg a 1
      ∧ w.sent = writeFrame a [r.data &&& ~~~m] ∧ Did s t [r, w] ∧ Only s t := by
  obtain ⟨t1, r, r1, f1, d1, o1⟩ := regRead_did a h
  obtain ⟨t2, w, r2, f2, d2, o2⟩ := regWrite_did a (r.data &&& ~~~m) d1.closed
  exact ⟨t2, r, w, by rw [regClearBits, Eng.bind_ok r1, r2], f1, f2, d1.trans d2, by rw [Only, o2, o1]⟩

/-- `request_or_wakeup` ends, if no transaction is open (R200). -/
theorem requestOrWakeup_run (sel : Bool) (h : s.txn.isOpen = false) :
    ∃ o t x, (requestOrWakeup sel).run s = .ok o t
      ∧ RequestDone (if sel then s.cfg.piccWupa else s.cfg.piccReqa) s o t x := by
  obtain ⟨u, r, w, r1, f1, f2, d1, o1⟩ := regClearBits_did (s := s.toRule 201) s.cfg.aColl s.cfg.collClearMask h
  obtain ⟨inner, t, y, data, r2, d2⟩ := shortFrame_run (if sel then s.cfg.piccWupa else s.cfg.piccReqa) d1.closed
  have cu : u.cfg = s.cfg := by rw [o1]; rfl
  refine ⟨classifyAtqa inner t.com.bytesWritten t.com.validBits, t, r :: w :: y, ?_, u, r, w, y, data, inner, rfl, f1, f2,
    d1.toRule.transacted (by rw [o1]; rfl), ?_, fun hn => by simp [classifyAtqa, hn], fun ho => ?_⟩
  · rw [requestOrWakeup, Eng.run_bind_get]
    dsimp only
    rw [Eng.run_bind_atRule, Eng.bind_ok r1, Eng.bind_ok r2, Eng.run_bind_get, Eng.run_pure]
  · rw [cu] at d2
    exact d2
  · by_cases h2 : t.com.bytesWritten.toNat = 2 ∧ t.com.validBits = 0
    · simp [classifyAtqa, ho, h2]
    · rw [if_neg h2, classifyAtqa, if_pos ⟨ho, by by_contra hn; simp at hn; exact h2 hn⟩]

/-- The three registers of `is_new_card_present` (R226). -/
theorem modeDefaults_run (h : s.txn.isOpen = false) :
    ∃ t e1 e2 e3, modeDefaults.run s = .ok () t ∧ Did s t [e1, e2, e3] ∧ Only (s.toRule 226) t
      ∧ e1.sent = writeFrame s.cfg.aTxMode [s.cfg.txModeDefault]
      ∧ e2.sent = writeFrame s.cfg.aRxMode [s.cfg.rxModeDefault]
      ∧ e3.sent = writeFrame s.cfg.aModWidth [s.cfg.modWidthDefault] := by
  obtain ⟨t1, e1, r1, f1, d1, o1⟩ := regWrite_did (s := s.toRule 226) s.cfg.aTxMode s.cfg.txModeDefault h
  obtain ⟨t2, e2, r2, f2, d2, o2⟩ := regWrite_did s.cfg.aRxMode s.cfg.rxModeDefault d1.closed
  obtain ⟨t3, e3, r3, f3, d3, o3⟩ := regWrite_did s.cfg.aModWidth s.cfg.modWidthDefault d2.closed
  refine ⟨t3, e1, e2, e3, ?_, (d1.trans (d2.trans d3)).toRule, ?_, f1, f2, f3⟩
  · rw [modeDefaults, Eng.run_bind_atRule, Eng.run_bind_get]
    dsimp only
    rw [State.toRule_cfg, Eng.bind_ok r1, Eng.bind_ok r2, r3]
  · rw [Only, o3, o2, o1]

/-- `is_new_card_present` ends, if no transaction is open (R226). -/
theorem isNewCardPresent_run (h : s.txn.isOpen = false) :
    ∃ o t u e1 e2 e3 x, isNewCardPresent.run s = .ok o { t with flags := { t.flags with present := repliedAtAll o } }
      ∧ Did s u [e1, e2, e3] ∧ Only (s.toRule 226) u
      ∧ e1.sent = writeFrame s.cfg.aTxMode [s.cfg.txModeDefault]
      ∧ e2.sent = writeFrame s.cfg.aRxMode [s.cfg.rxModeDefault]
      ∧ e3.sent = writeFrame s.cfg.aModWidth [s.cfg.modWidthDefault]
      ∧ RequestDone s.cfg.piccReqa u o t x := by
  obtain ⟨u, e1, e2, e3, r1, d1, o1, f1, f2, f3⟩ := modeDefaults_run h
  obtain ⟨o, t, x, r2, d2⟩ := requestOrWakeup_run false d1.closed
  have cu : u.cfg = s.cfg := by rw [o1]; rfl
  refine ⟨o, t, u, e1, e2, e3, x, ?_, d1, o1, f1, f2, f3, by rw [← cu]; exact d2⟩
  rw [isNewCardPresent, Eng.bind_ok r1, Eng.bind_ok r2, setPresent, Eng.run_bind_modify, Eng.run_pure]

/-! ### The exchange of a round -/

/-- The exchange of a round is one write of the bit-framing register and one `transceive` (R215). -/
theorem roundExchange_run (recv : Window) {cap : Nat} (h : s.txn.isOpen = false) (hc : cap ≤ 64) :
    ∃ u o t e x data, (roundExchange recv cap).run s = .ok o t ∧ Transacted s u [e]
      ∧ e.sent = writeFrame s.cfg.aBitFraming [framingByte s.sel.txLast s.sel.txLast]
      ∧ CommDone (roundArgs s.cfg (slice s.buf.fb 0 s.sel.sendLen.toNat) recv cap s.sel.txLast) u o t x data := by
  let a := roundArgs s.cfg (slice s.buf.fb 0 s.sel.sendLen.toNat) recv cap s.sel.txLast
  obtain ⟨u, e, r1, f1, d1, o1⟩ := regWrite_did (s := { s.toRule 215 with com := { s.com with rxAlign := s.sel.txLast } })
    s.cfg.aBitFraming (framingByte s.sel.txLast s.sel.txLast) h
  have hu : u = { s with
      opState := u.opState, txn := u.txn, inp := u.inp, out := u.out,
      com := { s.com with rxAlign := s.sel.txLast } } := by
    rw [o1]
    rfl
  have cu : u.cfg = s.cfg := by rw [hu]
  obtain ⟨o, t, x, data, r2, d2⟩ := communicate_ends (a := a)
    (s := { u with com := { u.com with validBits := s.sel.txLast } }) d1.closed rfl
    (by
      simp only [a, roundArgs, length_slice]
      omega)
    (by
      simp only [a, roundArgs, BitVec.toNat_ofNat]
      omega)
  refine ⟨{ u with com := s.com }, o, t, e, x, data, ?_,
    (d1.congr (s' := s) (t' := { u with com := s.com }) rfl rfl rfl rfl rfl).transacted (by rw [hu]), f1, d2.congr rfl ?_⟩
  · rw [roundExchange, Eng.run_bind_atRule, Eng.run_bind_get, Eng.run_bind_modify, State.toRule_cfg]
    refine (Eng.bind_ok r1).trans ?_
    rw [Eng.run_bind_modify, transceive_run]
    have : (CommArgs.transceive { u with com := { u.com with validBits := s.sel.txLast } }.cfg
        (innerArgs (slice s.buf.fb 0 s.sel.sendLen.toNat) recv (BitVec.ofNat 7 cap) s.sel.txLast s.sel.txLast))
        = a := by
      rw [CommArgs.transceive, cu]
      rfl
    exact (congrArg (fun a => (communicate a).run { u with com := { u.com with validBits := s.sel.txLast } }) this).trans r2
  · rw [hu]

end Sys2Proof.Machine
end

