-- ==== Sys2Proof/Laws/Decode.lean ====
section
/-! SUPPORT. The laws of the encodings: the fields of a host word read back what the encoder put there, and so do the address
byte, the command byte and the NVB byte. -/

namespace Sys2Proof

variable {n w : Nat}

/-! ### Host words -/

theorem field_or (x y : BitVec 27) (lo w : Nat) : field (x ||| y) lo w = field x lo w ||| field y lo w := by
  apply BitVec.eq_of_getLsbD_eq
  intro i hi
  simp [field, hi]

theorem getLsbD_place (v : BitVec n) (lo i : Nat) :
    (place v lo).getLsbD i = (decide (i < 27) && !decide (i < lo) && v.getLsbD (i - lo)) := by
  by_cases h : i < 27
  · simp [place, h]
  · simp [place, h]

/-- A field reads back what was placed there. -/
theorem field_place_self (v : BitVec n) {lo : Nat} (h : lo + n ≤ 27) : field (place v lo) lo n = v := by
  apply BitVec.eq_of_getLsbD_eq
  intro i hi
  rw [field, BitVec.getLsbD_extractLsb', getLsbD_place]
  simp [hi, show lo + i < 27 by omega]

/-- A field above a placed value does not see it. -/
theorem field_place_above (v : BitVec n) {lo lo' : Nat} (h : lo + n ≤ lo') : field (place v lo) lo' w = 0 := by
  apply BitVec.eq_of_getLsbD_eq
  intro i hi
  rw [field, BitVec.getLsbD_extractLsb', getLsbD_place, BitVec.getLsbD_of_ge v _ (by omega)]
  simp

/-- A field below a placed value does not see it. -/
theorem field_place_below (v : BitVec n) {lo lo' : Nat} (h : lo' + w ≤ lo) : field (place v lo) lo' w = 0 := by
  apply BitVec.eq_of_getLsbD_eq
  intro i hi
  rw [field, BitVec.getLsbD_extractLsb', getLsbD_place]
  simp [show lo' + i < lo by omega]

/-- A flag is a field of one bit. -/
theorem flag_eq (x : BitVec 27) (i : Nat) : flag x i = (field x i 1).getLsbD 0 := by simp [flag, field]

/-- The operation of a word put together from an `op` and operand bits (R106). -/
theorem decodeHost_hostWord (op : BitVec 5) (x : BitVec 27) : decodeHost (hostWord op x) = decodeOp op x := by
  have h1 : (hostWord op x).extractLsb' 27 5 = op := by
    apply BitVec.eq_of_getLsbD_eq
    intro i hi
    simp only [hostWord, BitVec.getLsbD_extractLsb', BitVec.getLsbD_or, BitVec.getLsbD_shiftLeft,
      BitVec.getLsbD_setWidth]
    rw [BitVec.getLsbD_of_ge x (27 + i) (by omega)]
    simp [hi, show 27 + i < 32 by omega, show i < 32 by omega]
  have h2 : (hostWord op x).extractLsb' 0 27 = x := by
    apply BitVec.eq_of_getLsbD_eq
    intro i hi
    simp only [hostWord, BitVec.getLsbD_extractLsb', BitVec.getLsbD_or, BitVec.getLsbD_shiftLeft,
      BitVec.getLsbD_setWidth]
    simp [hi, show i < 32 by omega]
  rw [decodeHost, h1, h2]

theorem field_operandsAN (a : Addr) (k : BitVec 7) :
    field (operandsAN a k) 0 6 = a ∧ field (operandsAN a k) 8 7 = k := by
  simp [operandsAN, field_or, field_place_self, field_place_above, field_place_below]

theorem field_operandsAV (a : Addr) (v : Byte) :
    field (operandsAV a v) 0 6 = a ∧ field (operandsAV a v) 8 8 = v := by
  simp [operandsAV, field_or, field_place_self, field_place_above, field_place_below]

/-- The fields of a word of format C. -/
theorem field_operandsC (cmd : BitVec 4) (waitMask : Byte) (validBits rxAlign : BitVec 3)
    (checkCrc recvPresent : Bool) (recvCap : BitVec 7) :
    let x := operandsC cmd waitMask validBits rxAlign checkCrc recvPresent recvCap
    field x 0 4 = cmd ∧ field x 4 8 = waitMask ∧ field x 12 3 = validBits ∧ field x 15 3 = rxAlign ∧ flag x 18 = checkCrc
      ∧ flag x 19 = recvPresent ∧ field x 20 7 = recvCap := by
  simp [operandsC, flag_eq, field_or, field_place_self, field_place_above, field_place_below]

/-! ### Bytes -/

theorem decodeAddress_encodeRead : ∀ a : Addr, decodeAddress (encodeRead a) = some (.addrRead a) := by decide

theorem decodeAddress_encodeWrite : ∀ a : Addr, decodeAddress (encodeWrite a) = some (.addrWrite a) := by decide

/-- The byte written to the command register tells the opcodes apart (R94). -/
theorem commandByte_inj {a b : BitVec 4} : commandByte a = commandByte b ↔ a = b := by
  constructor
  · intro h
    have := congrArg (BitVec.setWidth 4) h
    simpa [commandByte] using this
  · rintro rfl
    rfl

/-- The two fields of an NVB byte of an anti-collision frame, and when it is one (R99). -/
theorem nvbByte_fields : ∀ (b : BitVec 4) (k : BitVec 3),
    (nvbByte b k).extractLsb' 4 4 = b ∧ (nvbByte b k).extractLsb' 0 3 = k
      ∧ Config.isAnticollNvb (nvbByte b k) = anticollByteCount b.toNat := by decide

/-- The byte counts that R99 assembles are those of the anti-collision NVB bytes, and no others. -/
theorem anticollByteCount_iff {n : Nat} : anticollByteCount n = true ↔ ∃ known < 32, n = 2 + known / 8 := by
  rw [anticollByteCount, Bool.and_eq_true, decide_eq_true_iff, decide_eq_true_iff]
  constructor
  · intro h
    exact ⟨8 * (n - 2), by omega, by omega⟩
  · rintro ⟨k, hk, rfl⟩
    omega

end Sys2Proof
end

