-- ==== Sys2Proof/Laws/Keeps.lean ====
section
/-! SUPPORT. The laws of `Keeps`: a relation between the state before and the state after that every sequence of the engine
establishes, however it ends, because each of its parts does. The relation is reflexive and transitive; what it must hold of
is the parts that write the state. -/

namespace Sys2Proof.Machine

variable {α β : Type} {R : State → State → Prop}

/-- From every state, where the sequence ends and where it dies, `R` holds between the states. -/
def Keeps (R : State → State → Prop) (m : Eng α) : Prop :=
  ∀ s, match m.run s with
    | .ok _ t => R s t
    | .error _ t => R s t

/-- What `Keeps` needs of a relation. -/
structure Frames (R : State → State → Prop) : Prop where
  refl : ∀ s, R s s
  trans : ∀ {s t u}, R s t → R t u → R s u

theorem Keeps.ok {m : Eng α} (h : Keeps R m) {s t : State} {a : α} (hm : m.run s = .ok a t) : R s t := by
  have := h s
  rwa [hm] at this

theorem Keeps.error {m : Eng α} (h : Keeps R m) {s t : State} {r : FatalReason} (hm : m.run s = .error r t) : R s t := by
  have := h s
  rwa [hm] at this

theorem Frames.pure (f : Frames R) (a : α) : Keeps R (pure a : Eng α) := f.refl

theorem Frames.get (f : Frames R) : Keeps R (get : Eng State) := f.refl

theorem Keeps.modify {g : State → State} (h : ∀ s, R s (g s)) : Keeps R (modify g : Eng PUnit) := h

theorem Keeps.raiseFatal {r : FatalReason} (h : ∀ s, R s (s.fatalState r)) : Keeps R (raiseFatal r) := h

theorem Frames.bind (f : Frames R) {m : Eng α} {k : α → Eng β} (hm : Keeps R m) (hk : ∀ a, Keeps R (k a)) :
    Keeps R (m >>= k) := by
  intro s
  rw [Eng.run_bind]
  have h := hm s
  cases hr : m.run s with
  | error r t => rwa [hr] at h
  | ok a t =>
    rw [hr] at h
    have h' := hk a t
    cases hr' : (k a).run t <;> rw [hr'] at h' <;> simp only [hr'] <;> exact f.trans h h'

theorem Keeps.ite {p : Prop} [Decidable p] {x y : Eng α} (hx : p → Keeps R x) (hy : ¬p → Keeps R y) :
    Keeps R (if p then x else y) := by
  split
  · exact hx ‹_›
  · exact hy ‹_›

/-- The parts that write the state, and what they must keep. -/
structure Parts (R : State → State → Prop) : Prop extends Frames R where
  fatal : ∀ r s, R s (s.fatalState r)
  rule : ∀ r s, R s (s.toRule r)
  txn : ∀ s x, R s { s with txn := x }
  exchange : ∀ s (w : List Byte), w.length ≤ 65 → R s
    { s with inp := s.inp.afterAnswer w.length,
             out := { s.out with bus := s.out.bus ++ [⟨w, s.inp.answer w.length⟩] } }

namespace Parts

variable (p : Parts R)
include p

theorem keeps_atRule (r : Nat) : Keeps R (atRule r) := .modify (p.rule r)

theorem keeps_begin : Keeps R begin_ := by
  unfold begin_
  repeat' first
    | exact p.get
    | exact p.pure _
    | exact Keeps.raiseFatal (p.fatal _)
    | exact Keeps.modify fun _ => p.txn _ _
    | refine p.bind ?_ fun _ => ?_
    | split

theorem keeps_writeByte (b : Byte) : Keeps R (writeByte b) := by
  unfold writeByte
  repeat' first
    | exact p.get
    | exact p.pure _
    | exact Keeps.raiseFatal (p.fatal _)
    | exact Keeps.modify fun _ => p.txn _ _
    | refine p.bind ?_ fun _ => ?_
    | split

theorem keeps_writeBytes (bs : List Byte) : Keeps R (writeBytes bs) := by
  unfold writeBytes
  repeat' first
    | exact p.get
    | exact p.pure _
    | exact Keeps.raiseFatal (p.fatal _)
    | exact Keeps.modify fun _ => p.txn _ _
    | refine p.bind ?_ fun _ => ?_
    | split

theorem keeps_xfer {w : List Byte} (h : w.length ≤ 65) : Keeps R (Machine.xfer w) := fun s => p.exchange s w h

theorem keeps_end : Keeps R end_ := by
  unfold end_
  repeat' first
    | exact p.get
    | exact p.pure _
    | exact Keeps.raiseFatal (p.fatal _)
    | exact Keeps.modify fun _ => p.txn _ _
    | exact p.keeps_xfer (by rw [length_slice]; omega)
    | refine p.bind ?_ fun _ => ?_
    | split

theorem keeps_readByte : Keeps R readByte := by
  unfold readByte
  repeat' first
    | exact p.get
    | exact p.pure _
    | exact Keeps.raiseFatal (p.fatal _)
    | exact Keeps.modify fun _ => p.txn _ _
    | refine p.bind ?_ fun _ => ?_
    | split

theorem keeps_readBytes (n : Nat) : Keeps R (readBytes n) := by
  unfold readBytes
  repeat' first
    | exact p.get
    | exact p.pure _
    | exact Keeps.raiseFatal (p.fatal _)
    | exact Keeps.modify fun _ => p.txn _ _
    | refine p.bind ?_ fun _ => ?_
    | split

theorem keeps_writeCopies (n : Nat) (b : Byte) : Keeps R (writeCopies n b) := by
  induction n with
  | zero => exact p.pure _
  | succ n ih => exact p.bind (p.keeps_writeByte b) fun _ => ih

theorem keeps_regReadN (a : Addr) (n : Nat) : Keeps R (regReadN a n) := by
  unfold regReadN
  repeat' first
    | exact p.get
    | exact p.pure _
    | exact Keeps.raiseFatal (p.fatal _)
    | exact Keeps.modify fun _ => p.txn _ _
    | exact p.keeps_begin
    | exact p.keeps_writeByte _
    | exact p.keeps_writeBytes _
    | exact p.keeps_end
    | exact p.keeps_readBytes _
    | exact p.keeps_writeCopies _ _
    | refine p.bind ?_ fun _ => ?_
    | split

theorem keeps_regRead (a : Addr) : Keeps R (regRead a) := by
  unfold regRead
  repeat' first
    | exact p.get
    | exact p.pure _
    | exact Keeps.raiseFatal (p.fatal _)
    | exact Keeps.modify fun _ => p.txn _ _
    | exact p.keeps_regReadN _ _
    | refine p.bind ?_ fun _ => ?_

theorem keeps_regWriteN (a : Addr) (d : List Byte) : Keeps R (regWriteN a d) := by
  unfold regWriteN
  repeat' first
    | exact p.get
    | exact p.pure _
    | exact Keeps.raiseFatal (p.fatal _)
    | exact Keeps.modify fun _ => p.txn _ _
    | exact p.keeps_begin
    | exact p.keeps_writeByte _
    | exact p.keeps_writeBytes _
    | exact p.keeps_end
    | exact p.keeps_readBytes _
    | exact p.keeps_writeCopies _ _
    | refine p.bind ?_ fun _ => ?_
    | split

theorem keeps_regWrite (a : Addr) (v : Byte) : Keeps R (regWrite a v) := p.keeps_regWriteN a [v]

theorem keeps_regSetBits (a : Addr) (m : Byte) : Keeps R (regSetBits a m) := by
  unfold regSetBits
  repeat' first
    | exact p.get
    | exact p.pure _
    | exact Keeps.raiseFatal (p.fatal _)
    | exact Keeps.modify fun _ => p.txn _ _
    | exact p.keeps_regRead _
    | exact p.keeps_regWrite _ _
    | exact p.keeps_regReadN _ _
    | exact p.keeps_regWriteN _ _
    | refine p.bind ?_ fun _ => ?_

theorem keeps_regClearBits (a : Addr) (m : Byte) : Keeps R (regClearBits a m) := by
  unfold regClearBits
  repeat' first
    | exact p.get
    | exact p.pure _
    | exact Keeps.raiseFatal (p.fatal _)
    | exact Keeps.modify fun _ => p.txn _ _
    | exact p.keeps_regRead _
    | exact p.keeps_regWrite _ _
    | exact p.keeps_regReadN _ _
    | exact p.keeps_regWriteN _ _
    | refine p.bind ?_ fun _ => ?_

end Parts

/-- The parts of the command sequencer. -/
structure CommandParts (R : State → State → Prop) : Prop extends Parts R where
  com : ∀ s x, R s { s with com := x }
  start : ∀ s ms, ms = 26 ∨ ms = 89 → R s
    { s with inp := s.inp.afterGranted, com := { s.com with budget := some ms },
             out := { s.out with budgets := s.out.budgets ++ [ms] } }

namespace CommandParts

variable (p : CommandParts R)
include p

theorem keeps_startBudget {ms : Nat} (h : ms = 26 ∨ ms = 89) : Keeps R (startBudget ms) := fun s => p.start s ms h

theorem keeps_pollLoop {poll : Eng Poll} (h : Keeps R poll) (n : Nat) : Keeps R (pollLoop poll n) := by
  induction n with
  | zero =>
    unfold pollLoop
    refine p.bind h fun v => ?_
    cases v <;> exact p.pure _
  | succ n ih =>
    unfold pollLoop
    refine p.bind h fun v => ?_
    cases v
    · exact p.pure _
    · exact p.pure _
    · exact ih

theorem keeps_pollUnderBudget {ms : Nat} (hms : ms = 26 ∨ ms = 89) {poll : Eng Poll} (h : Keeps R poll) :
    Keeps R (pollUnderBudget ms poll) := by
  unfold pollUnderBudget
  refine p.bind (p.keeps_startBudget hms) fun n => p.bind (p.keeps_pollLoop h n) fun _ => p.bind ?_ fun _ => p.pure _
  exact Keeps.modify fun _ => p.com _ _

theorem keeps_crcSetup (d : List Byte) : Keeps R (crcSetup d) := by
  unfold crcSetup
  repeat' first
    | exact p.get
    | exact p.pure _
    | exact p.keeps_atRule _
    | exact p.keeps_regWrite _ _
    | exact p.keeps_regWriteN _ _
    | refine p.bind ?_ fun _ => ?_

theorem keeps_crcSample : Keeps R crcSample := by
  unfold crcSample
  repeat' first
    | exact p.get
    | exact p.pure _
    | exact p.keeps_regRead _
    | exact Keeps.modify fun _ => p.com _ _
    | refine p.bind ?_ fun _ => ?_

theorem keeps_crcResult (hc : ∀ s x, R s { s with buf := { s.buf with crc := x } }) : Keeps R crcResult := by
  unfold crcResult
  repeat' first
    | exact p.get
    | exact p.pure _
    | exact p.keeps_atRule _
    | exact p.keeps_regRead _
    | exact p.keeps_regWrite _ _
    | exact Keeps.modify fun _ => hc _ _
    | refine p.bind ?_ fun _ => ?_

theorem keeps_computeCrc (hc : ∀ s x, R s { s with buf := { s.buf with crc := x } }) (d : List Byte) : Keeps R (computeCrc d) := by
  unfold computeCrc
  repeat' first
    | exact p.get
    | exact p.pure _
    | exact p.keeps_atRule _
    | exact Keeps.raiseFatal (p.fatal _)
    | exact p.keeps_crcSetup d
    | exact p.keeps_pollUnderBudget (.inr rfl) p.keeps_crcSample
    | exact p.keeps_crcResult hc
    | refine p.bind ?_ fun _ => ?_
    | split

theorem keeps_commLatch (a : CommArgs) : Keeps R (commLatch a) := by
  unfold commLatch
  exact Keeps.modify fun _ => p.com _ _

theorem keeps_commEntry (d : List Byte) : Keeps R (commEntry d) := by
  unfold commEntry
  repeat' first
    | exact p.get
    | exact p.pure _
    | exact p.keeps_atRule _
    | exact Keeps.raiseFatal (p.fatal _)
    | exact Keeps.modify fun _ => p.com _ _
    | refine p.bind ?_ fun _ => ?_
    | split

theorem keeps_commFraming : Keeps R commFraming := by
  unfold commFraming
  repeat' first
    | exact p.get
    | exact p.pure _
    | exact p.keeps_atRule _
    | exact Keeps.modify fun _ => p.com _ _
    | refine p.bind ?_ fun _ => ?_

theorem keeps_commSetup (d : List Byte) : Keeps R (commSetup d) := by
  unfold commSetup
  repeat' first
    | exact p.get
    | exact p.pure _
    | exact p.keeps_atRule _
    | exact p.keeps_regWrite _ _
    | exact p.keeps_regWriteN _ _
    | refine p.bind ?_ fun _ => ?_

theorem keeps_commStartSend : Keeps R commStartSend := by
  unfold commStartSend
  repeat' first
    | exact p.get
    | exact p.pure _
    | exact p.keeps_atRule _
    | exact p.keeps_regSetBits _ _
    | refine p.bind ?_ fun _ => ?_
    | split

theorem keeps_commSample : Keeps R commSample := by
  unfold commSample
  repeat' first
    | exact p.get
    | exact p.pure _
    | exact p.keeps_regRead _
    | exact Keeps.modify fun _ => p.com _ _
    | refine p.bind ?_ fun _ => ?_

theorem keeps_commError : Keeps R commError := by
  unfold commError
  repeat' first
    | exact p.get
    | exact p.pure _
    | exact p.keeps_atRule _
    | exact p.keeps_regRead _
    | exact Keeps.modify fun _ => p.com _ _
    | refine p.bind ?_ fun _ => ?_

theorem keeps_commDrain {w : Window} (hw : ∀ s l, R s (w.store l s)) (level : Byte) : Keeps R (commDrain w level) := by
  unfold commDrain
  repeat' first
    | exact p.get
    | exact p.pure _
    | exact p.keeps_atRule _
    | exact p.keeps_regRead _
    | exact p.keeps_regReadN _ _
    | exact Keeps.modify fun _ => p.com _ _
    | exact Keeps.modify fun _ => hw _ _
    | refine p.bind ?_ fun _ => ?_

theorem keeps_commReceive {w : Window} (hw : ∀ s l, R s (w.store l s)) : Keeps R (commReceive w) := by
  unfold commReceive
  repeat' first
    | exact p.get
    | exact p.pure _
    | exact p.keeps_atRule _
    | exact p.keeps_regRead _
    | exact Keeps.modify fun _ => p.com _ _
    | exact p.keeps_commDrain hw _
    | refine p.bind ?_ fun _ => ?_
    | split

theorem keeps_commVerdict : Keeps R commVerdict := by
  exact p.bind (p.keeps_atRule _) fun _ => p.bind p.get fun _ => p.pure _

theorem keeps_commFinish {w : Window} (hw : ∀ s l, R s (w.store l s)) : Keeps R (commFinish w) := by
  unfold commFinish
  repeat' first
    | exact p.get
    | exact p.pure _
    | exact p.keeps_commError
    | exact p.keeps_commReceive hw
    | exact p.keeps_commVerdict
    | refine p.bind ?_ fun _ => ?_
    | split

theorem keeps_communicate {a : CommArgs} (hw : ∀ s l, R s (a.recv.store l s)) : Keeps R (communicate a) := by
  unfold communicate
  repeat' first
    | exact p.get
    | exact p.pure _
    | exact p.keeps_atRule _
    | exact p.keeps_commLatch a
    | exact p.keeps_commEntry _
    | exact p.keeps_commFraming
    | exact p.keeps_commSetup _
    | exact p.keeps_commStartSend
    | exact p.keeps_pollUnderBudget (.inl rfl) p.keeps_commSample
    | exact p.keeps_commFinish hw
    | refine p.bind ?_ fun _ => ?_
    | split

theorem keeps_transceive {a : CommArgs} (hw : ∀ s l, R s (a.recv.store l s)) : Keeps R (transceive a) :=
  p.bind p.get fun _ => p.keeps_communicate hw

theorem keeps_shortFrame (hw : ∀ s l, R s (Window.atqa.store l s)) (op : BitVec 7) : Keeps R (shortFrame op) := by
  unfold shortFrame
  repeat' first
    | exact p.get
    | exact p.pure _
    | exact p.keeps_atRule _
    | exact Keeps.modify fun _ => p.com _ _
    | exact p.keeps_transceive hw
    | refine p.bind ?_ fun _ => ?_

theorem keeps_requestOrWakeup (hw : ∀ s l, R s (Window.atqa.store l s)) (sel : Bool) : Keeps R (requestOrWakeup sel) := by
  unfold requestOrWakeup
  repeat' first
    | exact p.get
    | exact p.pure _
    | exact p.keeps_atRule _
    | exact p.keeps_regClearBits _ _
    | exact p.keeps_shortFrame hw _
    | refine p.bind ?_ fun _ => ?_

theorem keeps_modeDefaults : Keeps R modeDefaults := by
  unfold modeDefaults
  repeat' first
    | exact p.get
    | exact p.pure _
    | exact p.keeps_atRule _
    | exact p.keeps_regWrite _ _
    | refine p.bind ?_ fun _ => ?_

end CommandParts

/-- The parts of `select`. -/
structure SelectParts (R : State → State → Prop) : Prop extends CommandParts R where
  buf : ∀ s fb rsp crc, R s { s with buf := ⟨fb, rsp, s.buf.atqa, crc⟩ }
  sel : ∀ s x, R s { s with sel := x }
  col : ∀ s x, R s { s with col := x }
  uid : ∀ s x, R s { s with uid := x }

namespace SelectParts

variable (p : SelectParts R)
include p

/-- A write of the select scalars and of the buffers of `select`. -/
theorem selBuf (s : State) (x : SelectRegs) (fb : Vector Byte 9) (rsp : Vector Byte 3) (crc : Vector Byte 2) :
    R s { s with sel := x, buf := ⟨fb, rsp, s.buf.atqa, crc⟩ } :=
  p.trans (p.sel s x) (p.buf _ fb rsp crc)

theorem keeps_onCollision : Keeps R onCollision := by
  unfold onCollision
  repeat' first
    | exact p.get
    | exact p.pure _
    | exact p.keeps_atRule _
    | exact p.keeps_regRead _
    | exact Keeps.modify fun _ => p.col _ _
    | exact Keeps.modify fun s => p.selBuf s _ _ _ _
    | refine p.bind ?_ fun _ => ?_
    | split

theorem keeps_levelSetup (level : Nat) : Keeps R (levelSetup level) := by
  unfold levelSetup
  repeat' first
    | exact p.get
    | exact p.pure _
    | exact p.keeps_atRule _
    | exact Keeps.modify fun s => p.selBuf s _ _ _ _
    | refine p.bind ?_ fun _ => ?_

theorem store_rsp (s : State) (l : List Byte) : R s (Window.rsp.store l s) := p.buf s _ _ _

theorem store_fb (idx : Nat) (s : State) (l : List Byte) : R s ((Window.fb idx).store l s) := p.buf s _ _ _

theorem keeps_roundExchange {w : Window} (hw : ∀ s l, R s (w.store l s)) (cap : Nat) : Keeps R (roundExchange w cap) := by
  unfold roundExchange
  repeat' first
    | exact p.get
    | exact p.pure _
    | exact p.keeps_atRule _
    | exact p.keeps_regWrite _ _
    | exact Keeps.modify fun _ => p.com _ _
    | exact p.keeps_transceive hw
    | refine p.bind ?_ fun _ => ?_

theorem keeps_anticollRound : Keeps R anticollRound := by
  unfold anticollRound
  repeat' first
    | exact p.get
    | exact p.pure _
    | exact p.keeps_atRule _
    | exact Keeps.modify fun s => p.selBuf s _ _ _ _
    | exact p.keeps_roundExchange (p.store_fb _) _
    | exact p.keeps_onCollision
    | exact Keeps.modify fun _ => p.sel _ _
    | refine p.bind ?_ fun _ => ?_
    | split

theorem keeps_fullRound : Keeps R fullRound := by
  unfold fullRound
  repeat' first
    | exact p.get
    | exact p.pure _
    | exact p.keeps_atRule _
    | exact Keeps.modify fun s => p.buf s _ _ _
    | exact Keeps.modify fun s => p.selBuf s _ _ _ _
    | exact p.keeps_computeCrc (fun s _ => p.buf s _ _ _) _
    | exact p.keeps_roundExchange p.store_rsp _
    | exact p.keeps_onCollision
    | refine p.bind ?_ fun _ => ?_
    | split

theorem keeps_rounds (n : Nat) : Keeps R (rounds n) := by
  induction n with
  | zero => exact p.keeps_fullRound
  | succ n ih =>
    unfold rounds
    repeat' first
      | exact p.get
      | exact p.pure _
      | exact p.keeps_fullRound
      | exact p.keeps_anticollRound
      | exact ih
      | refine p.bind ?_ fun _ => ?_
      | split

theorem keeps_verifyResponse : Keeps R verifyResponse := by
  unfold verifyResponse
  repeat' first
    | exact p.get
    | exact p.pure _
    | exact p.keeps_atRule _
    | exact p.keeps_computeCrc (fun s _ => p.buf s _ _ _) _
    | refine p.bind ?_ fun _ => ?_
    | split

theorem keeps_levels (n level : Nat) : Keeps R (levels n level) := by
  induction n generalizing level with
  | zero => exact p.pure _
  | succ n ih =>
    unfold levels
    repeat' first
      | exact p.get
      | exact p.pure _
      | exact p.keeps_atRule _
      | exact p.keeps_levelSetup _
      | exact p.keeps_rounds _
      | exact p.keeps_verifyResponse
      | exact Keeps.modify fun _ => p.uid _ _
      | exact Keeps.modify fun _ => p.sel _ _
      | exact ih _
      | refine p.bind ?_ fun _ => ?_
      | split

theorem keeps_select (kvb : Byte) : Keeps R (select kvb) := by
  unfold select
  repeat' first
    | exact p.get
    | exact p.pure _
    | exact p.keeps_atRule _
    | exact Keeps.modify fun _ => p.sel _ _
    | exact p.keeps_levels _ _
    | refine p.bind ?_ fun _ => ?_
    | split

end SelectParts

end Sys2Proof.Machine
end

