-- ==== Sys2Proof/Laws/PerInstr.lean ====
section
/-! SUPPORT. The family `EncodesInRow`: with the default configuration, whose numbers the opcode table has, every well-formed
instruction's code has the fixed bits of its row. -/

namespace Sys2Proof.Laws

/-- The bits of a code. -/
def codeBits : Code → Nat
  | .host w => w.toNat
  | .address b | .command b | .frame b => b.toNat
  | .short b => b.toNat

/-- The `match` and `mask` of an instruction's row of spec/opcode_table.json. -/
def tableRow : Instr → Nat × Nat
  | .beginTxn => (0x00000000, 0xF8000000)
  | .writeByte _ => (0x08000000, 0xF8000000)
  | .writeBytes => (0x10000000, 0xF8000000)
  | .endTxn => (0x18000000, 0xF8000000)
  | .readByte => (0x20000000, 0xF8000000)
  | .readBytes _ => (0x28000000, 0xF8000000)
  | .regRead _ => (0x40000000, 0xF8000000)
  | .regReadN _ _ => (0x48000000, 0xF8000000)
  | .regWrite _ _ => (0x50000000, 0xF8000000)
  | .regWriteN _ => (0x58000000, 0xF8000000)
  | .regSetBits _ _ => (0x60000000, 0xF8000000)
  | .regClearBits _ _ => (0x68000000, 0xF8000000)
  | .computeCrc => (0x80000000, 0xF8000000)
  | .communicate _ _ _ _ _ _ _ => (0x88000000, 0xF8000000)
  | .transceive _ _ _ _ _ => (0x90000000, 0xF8000000)
  | .requestOrWakeup _ => (0xC0000000, 0xF8000000)
  | .select _ => (0xC8000000, 0xF8000000)
  | .isNewCardPresent => (0xD0000000, 0xF8000000)
  | .readCardUid => (0xD8000000, 0xF8000000)
  | .reset => (0xF0000000, 0xF8000000)
  | .teardown => (0xF8000000, 0xF8000000)
  | .addrRead _ => (0x80, 0x81)
  | .addrWrite _ => (0x00, 0x81)
  | .cmdIdle => (0x00, 0xFF)
  | .cmdMem => (0x01, 0xFF)
  | .cmdGenRandomId => (0x02, 0xFF)
  | .cmdCalcCrc => (0x03, 0xFF)
  | .cmdTransmit => (0x04, 0xFF)
  | .cmdNoCmdChange => (0x07, 0xFF)
  | .cmdReceive => (0x08, 0xFF)
  | .cmdTransceive => (0x0C, 0xFF)
  | .cmdMfAuthent => (0x0E, 0xFF)
  | .cmdSoftReset => (0x0F, 0xFF)
  | .reqa => (0x26, 0x7F)
  | .wupa => (0x52, 0x7F)
  | .selCl1 => (0x93, 0xFF)
  | .selCl2 => (0x95, 0xFF)
  | .selCl3 => (0x97, 0xFF)
  | .cascadeTag => (0x88, 0xFF)
  | .nvbFull => (0x70, 0xFF)
  | .nvbAnticoll _ _ => (0x00, 0x08)

/-- The family's statement. -/
def EncodesInRow.Statement (i : Instr) : Prop :=
  i.wf = true → codeBits (encode Config.mfrc522 i) &&& (tableRow i).2 = (tableRow i).1

/-- The bits of a host word under the mask of `op`. -/
theorem hostWord_masked (op : BitVec 5) (x : BitVec 27) :
    (hostWord op x).toNat &&& 0xF8000000 = (op.setWidth 32 <<< 27).toNat := by
  have h : hostWord op x &&& 0xF8000000#32 = op.setWidth 32 <<< 27 := by
    apply BitVec.eq_of_getLsbD_eq
    intro i hi
    have key : ∀ i : Fin 32, (0xF8000000#32).getLsbD i.val = decide (27 ≤ i.val) := by decide
    have key' := key ⟨i, hi⟩
    simp only [hostWord, BitVec.getLsbD_and, BitVec.getLsbD_or, BitVec.getLsbD_shiftLeft, BitVec.getLsbD_setWidth, key']
    by_cases h : i < 27
    · simp [h]
    · rw [BitVec.getLsbD_of_ge x i (by omega)]
      simp [h, Nat.le_of_not_lt h]
  rw [← h]
  rfl

theorem EncodesInRow.beginTxn : EncodesInRow.Statement .beginTxn := fun _ => hostWord_masked _ _

theorem EncodesInRow.writeByte (b : Byte) : EncodesInRow.Statement (.writeByte b) := fun _ => hostWord_masked _ _

theorem EncodesInRow.writeBytes : EncodesInRow.Statement .writeBytes := fun _ => hostWord_masked _ _

theorem EncodesInRow.endTxn : EncodesInRow.Statement .endTxn := fun _ => hostWord_masked _ _

theorem EncodesInRow.readByte : EncodesInRow.Statement .readByte := fun _ => hostWord_masked _ _

theorem EncodesInRow.readBytes (n : BitVec 7) : EncodesInRow.Statement (.readBytes n) := fun _ => hostWord_masked _ _

theorem EncodesInRow.regRead (a : Addr) : EncodesInRow.Statement (.regRead a) := fun _ => hostWord_masked _ _

theorem EncodesInRow.regReadN (a : Addr) (n : BitVec 7)
    : EncodesInRow.Statement (.regReadN a n) := fun _ => hostWord_masked _ _

theorem EncodesInRow.regWrite (a : Addr) (v : Byte)
    : EncodesInRow.Statement (.regWrite a v) := fun _ => hostWord_masked _ _

theorem EncodesInRow.regWriteN (a : Addr) : EncodesInRow.Statement (.regWriteN a) := fun _ => hostWord_masked _ _

theorem EncodesInRow.regSetBits (a : Addr) (v : Byte)
    : EncodesInRow.Statement (.regSetBits a v) := fun _ => hostWord_masked _ _

theorem EncodesInRow.regClearBits (a : Addr) (v : Byte)
    : EncodesInRow.Statement (.regClearBits a v) := fun _ => hostWord_masked _ _

theorem EncodesInRow.computeCrc : EncodesInRow.Statement .computeCrc := fun _ => hostWord_masked _ _

theorem EncodesInRow.communicate (cmd : BitVec 4) (waitMask : Byte) (validBits : BitVec 3) (rxAlign : BitVec 3) (checkCrc : Bool) (recvPresent : Bool) (recvCap : BitVec 7)
    : EncodesInRow.Statement (.communicate cmd waitMask validBits rxAlign checkCrc recvPresent recvCap) := fun _ => hostWord_masked _ _

theorem EncodesInRow.transceive (validBits : BitVec 3) (rxAlign : BitVec 3) (checkCrc : Bool) (recvPresent : Bool) (recvCap : BitVec 7)
    : EncodesInRow.Statement (.transceive validBits rxAlign checkCrc recvPresent recvCap) := fun _ => hostWord_masked _ _

theorem EncodesInRow.requestOrWakeup (sel : Bool)
    : EncodesInRow.Statement (.requestOrWakeup sel) := fun _ => hostWord_masked _ _

theorem EncodesInRow.select (kvb : Byte) : EncodesInRow.Statement (.select kvb) := fun _ => hostWord_masked _ _

theorem EncodesInRow.isNewCardPresent : EncodesInRow.Statement .isNewCardPresent := fun _ => hostWord_masked _ _

theorem EncodesInRow.readCardUid : EncodesInRow.Statement .readCardUid := fun _ => hostWord_masked _ _

theorem EncodesInRow.reset : EncodesInRow.Statement .reset := fun _ => hostWord_masked _ _

theorem EncodesInRow.teardown : EncodesInRow.Statement .teardown := fun _ => hostWord_masked _ _

theorem EncodesInRow.addrRead (a : Addr) : EncodesInRow.Statement (.addrRead a) := by
  revert a
  unfold EncodesInRow.Statement
  decide

theorem EncodesInRow.addrWrite (a : Addr) : EncodesInRow.Statement (.addrWrite a) := by
  revert a
  unfold EncodesInRow.Statement
  decide

theorem EncodesInRow.cmdIdle : EncodesInRow.Statement .cmdIdle := fun _ => by decide

theorem EncodesInRow.cmdMem : EncodesInRow.Statement .cmdMem := fun _ => by decide

theorem EncodesInRow.cmdGenRandomId : EncodesInRow.Statement .cmdGenRandomId := fun _ => by decide

theorem EncodesInRow.cmdCalcCrc : EncodesInRow.Statement .cmdCalcCrc := fun _ => by decide

theorem EncodesInRow.cmdTransmit : EncodesInRow.Statement .cmdTransmit := fun _ => by decide

theorem EncodesInRow.cmdNoCmdChange : EncodesInRow.Statement .cmdNoCmdChange := fun _ => by decide

theorem EncodesInRow.cmdReceive : EncodesInRow.Statement .cmdReceive := fun _ => by decide

theorem EncodesInRow.cmdTransceive : EncodesInRow.Statement .cmdTransceive := fun _ => by decide

theorem EncodesInRow.cmdMfAuthent : EncodesInRow.Statement .cmdMfAuthent := fun _ => by decide

theorem EncodesInRow.cmdSoftReset : EncodesInRow.Statement .cmdSoftReset := fun _ => by decide

theorem EncodesInRow.reqa : EncodesInRow.Statement .reqa := fun _ => by decide

theorem EncodesInRow.wupa : EncodesInRow.Statement .wupa := fun _ => by decide

theorem EncodesInRow.selCl1 : EncodesInRow.Statement .selCl1 := fun _ => by decide

theorem EncodesInRow.selCl2 : EncodesInRow.Statement .selCl2 := fun _ => by decide

theorem EncodesInRow.selCl3 : EncodesInRow.Statement .selCl3 := fun _ => by decide

theorem EncodesInRow.cascadeTag : EncodesInRow.Statement .cascadeTag := fun _ => by decide

theorem EncodesInRow.nvbFull : EncodesInRow.Statement .nvbFull := fun _ => by decide

theorem EncodesInRow.nvbAnticoll (byteCount : BitVec 4) (bitCount : BitVec 3)
    : EncodesInRow.Statement (.nvbAnticoll byteCount bitCount) := by
  revert byteCount bitCount
  unfold EncodesInRow.Statement
  decide

end Sys2Proof.Laws
end

