-- ==== Sys2Proof/Laws/Select.lean ====
section
/-! SUPPORT. The laws of `select`: the collision step, the rounds, the levels and the whole. With no transaction open every part
ends; each law says what the part changed, how many budgets it started, and what its result means. -/

namespace Sys2Proof.Machine

variable {s t u : State}

/-! ### What a communicate leaves -/

theorem CommDone.outcome_mem {a : CommArgs} {o : OpOutcome} {x : List Exchange} {data : List Byte}
    (h : CommDone a s o t x data) : o ∈ commOutcomes := by
  obtain ⟨x1, x2, -, -, hv⟩ := h.exchanges
  cases o <;> first | decide | exact hv.elim

theorem CommDone.bytesWritten_le {a : CommArgs} {o : OpOutcome} {x : List Exchange} {data : List Byte}
    (h : CommDone a s o t x data) : t.com.bytesWritten.toNat ≤ 64 := by
  obtain ⟨x1, x2, -, -, hv⟩ := h.exchanges
  have zero : ∀ {b : BitVec 7}, b = 0 → b.toNat ≤ 64 := by
    rintro b rfl
    decide
  cases o with
  | timeout => exact zero hv.2.2.2.2.1
  | error =>
    obtain ⟨e, -, -, -, -, -, -, hb, -⟩ := hv
    exact zero hb
  | noRoom =>
    obtain ⟨e, l, -, -, -, -, -, -, -, -, -, hb, -⟩ := hv
    exact zero hb
  | ok =>
    obtain ⟨e, rest, -, -, -, -, -, hr⟩ := hv
    split at hr
    · obtain ⟨l, d, c, -, -, -, -, hl, -, -, -, hb, -⟩ := hr
      exact hb.trans_le hl
    · exact zero hr.2.2.2.1
  | collision =>
    obtain ⟨e, rest, -, -, -, -, -, hr⟩ := hv
    split at hr
    · obtain ⟨l, d, c, -, -, -, -, hl, -, -, -, hb, -⟩ := hr
      exact hb.trans_le hl
    · exact zero hr.2.2.2.1
  | mifareNack | crcMismatch | invalid | internalError => exact hv.elim

theorem framingByte_reserved : ∀ r v : BitVec 3, framingByte r v &&& 0x88 = 0 := by decide

/-- The scalars of the command sequencer are in their ranges and no budget runs (R26, R98, R286). -/
structure ComWf (c : CommandRegs) : Prop where
  bytesWritten : c.bytesWritten.toNat ≤ 64
  bitFraming : c.bitFraming &&& 0x88 = 0
  budget : c.budget = none

theorem CommDone.comWf {a : CommArgs} {o : OpOutcome} {x : List Exchange} {data : List Byte}
    (h : CommDone a s o t x data) : ComWf t.com :=
  ⟨h.bytesWritten_le, by rw [h.com]; exact framingByte_reserved _ _, by rw [h.com]⟩

/-! ### What a part of `select` leaves -/

/-- `idx` and `send_len` are in their ranges (R25, with the reset values of R45). -/
structure FrameWf (r : SelectRegs) : Prop where
  idx : r.idx.toNat = 0 ∨ 2 ≤ r.idx.toNat ∧ r.idx.toNat ≤ 5
  sendLen : r.sendLen.toNat = 0 ∨ 2 ≤ r.sendLen.toNat ∧ r.sendLen.toNat ≤ 6 ∨ r.sendLen.toNat = 9

/-- What the rounds of a level, and the verification of a response, leave unchanged; the exchanges `x` made and the budgets
`l` started. -/
structure Rnd (s t : State) (x : List Exchange) (l : List Nat) : Prop where
  made : Made s t x
  closed : t.txn.isOpen = false
  host : t.inp.host = s.inp.host
  line : t.out.line = s.out.line
  budgets : t.out.budgets = s.out.budgets ++ l
  keep : t = { s with
    opState := t.opState, txn := t.txn, inp := t.inp, out := t.out, com := t.com, col := t.col,
    sel := { s.sel with knownBits := t.sel.knownBits, txLast := t.sel.txLast, idx := t.sel.idx, sendLen := t.sel.sendLen },
    buf := ⟨t.buf.fb, t.buf.rsp, s.buf.atqa, t.buf.crc⟩ }
  fb0 : byteAt t.buf.fb 0 = byteAt s.buf.fb 0
  com : ComWf s.com → ComWf t.com
  col : s.col.pos.toNat ≤ 32 → t.col.pos.toNat ≤ 32
  frame : FrameWf s.sel → FrameWf t.sel

theorem Rnd.refl (h : s.txn.isOpen = false) : Rnd s s [] [] :=
  ⟨Made.refl s, h, rfl, rfl, by simp, rfl, rfl, id, id, id⟩

theorem Rnd.trans {x y : List Exchange} {l m : List Nat} (h : Rnd s t x l) (h' : Rnd t u y m) :
    Rnd s u (x ++ y) (l ++ m) where
  made := h.made.trans h'.made
  closed := h'.closed
  host := h'.host.trans h.host
  line := h'.line.trans h.line
  budgets := by rw [h'.budgets, h.budgets, List.append_assoc]
  keep := by rw [h'.keep, h.keep]
  fb0 := h'.fb0.trans h.fb0
  com := h'.com ∘ h.com
  col := h'.col ∘ h.col
  frame := h'.frame ∘ h.frame

theorem Rnd.cfg {x : List Exchange} {l : List Nat} (h : Rnd s t x l) : t.cfg = s.cfg := by rw [h.keep]

/-- A change of `op_state` alone. -/
theorem Rnd.toRule (r : Nat) {x : List Exchange} {l : List Nat} (h : Rnd (s.toRule r) t x l) : Rnd s t x l where
  made := h.made.left rfl rfl rfl
  closed := h.closed
  host := h.host
  line := h.line
  budgets := h.budgets
  keep := by rw [h.keep]; rfl
  fb0 := h.fb0
  com := h.com
  col := h.col
  frame := h.frame

/-! ### The collision step -/

theorem collPosition_pos (v : Byte) : 1 ≤ collPosition v ∧ collPosition v ≤ 32 := by
  have : ∀ v : Byte, 1 ≤ collPosition v ∧ collPosition v ≤ 32 := by decide +kernel
  exact this v

/-- The collision step, by the byte read from the collision register (R250 to R255). -/
theorem onCollision_run (h : s.txn.isOpen = false) :
    ∃ r t e, onCollision.run s = .ok r t ∧ Did s t [e] ∧ e.sent = readFrame s.cfg s.cfg.aColl 1
      ∧ (if positionUnknown e.data then
          r = some .collision ∧ t = { s with
            opState := t.opState, txn := t.txn, inp := t.inp, out := t.out, col := ⟨e.data, s.col.pos⟩ }
        else if collPosition e.data ≤ s.sel.knownBits.toNat then
          r = some .internalError ∧ t = { s with
            opState := t.opState, txn := t.txn, inp := t.inp, out := t.out,
            col := ⟨e.data, BitVec.ofNat 6 (collPosition e.data)⟩ }
        else r = none ∧ t = { narrow (collPosition e.data) s with
            opState := t.opState, txn := t.txn, inp := t.inp, out := t.out,
            col := ⟨e.data, BitVec.ofNat 6 (collPosition e.data)⟩ }) := by
  obtain ⟨t1, e, r1, f1, d1, o1⟩ := regRead_did (s := s.toRule 250) s.cfg.aColl h
  have k1 : t1.sel.knownBits = s.sel.knownBits := by rw [o1]; rfl
  have hrun : onCollision.run s = (if positionUnknown e.data then return some OpOutcome.collision
      else do
        modify fun s => { s with col := { s.col with pos := BitVec.ofNat 6 (collPosition e.data) } }
        if collPosition e.data ≤ (← get).sel.knownBits.toNat then
          return some .internalError
        else
          modify (narrow (collPosition e.data))
          return none : Eng (Option OpOutcome)).run { t1 with col := { t1.col with sample := e.data } } := by
    rw [onCollision, Eng.run_bind_atRule, Eng.run_bind_get]
    dsimp only
    rw [State.toRule_cfg, Eng.bind_ok r1, Eng.run_bind_modify]
  by_cases hu : positionUnknown e.data = true
  · rw [if_pos hu, Eng.run_pure] at hrun
    refine ⟨_, _, e, hrun, d1.toRule.congr rfl rfl rfl rfl rfl, f1, ?_⟩
    rw [if_pos hu]
    refine ⟨rfl, ?_⟩
    rw [o1]
    rfl
  · rw [if_neg hu, Eng.run_bind_modify, Eng.run_bind_get] at hrun
    by_cases hp : collPosition e.data ≤ s.sel.knownBits.toNat
    · rw [if_pos (by exact (congrArg _ (congrArg _ k1)).mpr hp), Eng.run_pure] at hrun
      refine ⟨_, _, e, hrun, d1.toRule.congr rfl rfl rfl rfl rfl, f1, ?_⟩
      rw [if_neg hu, if_pos hp]
      refine ⟨rfl, ?_⟩
      rw [o1]
      rfl
    · rw [if_neg (by exact fun hc => hp ((congrArg _ (congrArg _ k1)).mp hc)), Eng.run_bind_modify, Eng.run_pure] at hrun
      refine ⟨_, _, e, hrun, d1.toRule.congr rfl rfl rfl rfl rfl, f1, ?_⟩
      rw [if_neg hu, if_neg hp]
      refine ⟨rfl, ?_⟩
      rw [o1]
      rfl

/-- The collision step as a part of a round: it never lets the round end with fewer known bits, and only "go on" changes
them (R253, R254, R257). -/
theorem onCollision_rnd (h : s.txn.isOpen = false) (hk : s.sel.knownBits.toNat ≤ 32) :
    ∃ r t x, onCollision.run s = .ok r t ∧ Rnd s t x [] ∧ t.sel.knownBits.toNat ≤ 32
      ∧ (r = none → s.sel.knownBits.toNat < t.sel.knownBits.toNat)
      ∧ (r ≠ none → t.sel = s.sel ∧ t.buf = s.buf)
      ∧ (∀ o, r = some o → o = .collision ∨ o = .internalError) := by
  obtain ⟨r, t, e, hr, d, -, hc⟩ := onCollision_run h
  obtain ⟨p1, p2⟩ := collPosition_pos e.data
  have hp : (BitVec.ofNat 6 (collPosition e.data)).toNat = collPosition e.data := by
    rw [BitVec.toNat_ofNat, Nat.mod_eq_of_lt (by omega)]
  refine ⟨r, t, [e], hr, ?_⟩
  split at hc
  · obtain ⟨rfl, ht⟩ := hc
    refine ⟨⟨d.made, d.closed, d.host, d.line, by rw [d.budgets, List.append_nil], by rw [ht], by rw [ht], ?_, ?_,
      by rw [ht]; exact id⟩, ?_,
      by simp, fun _ => by rw [ht]; exact ⟨rfl, rfl⟩, by simp⟩
    · rw [ht]; exact id
    · rw [ht]; exact id
    · rw [ht]; exact hk
  · split at hc
    · obtain ⟨rfl, ht⟩ := hc
      refine ⟨⟨d.made, d.closed, d.host, d.line, by rw [d.budgets, List.append_nil], by rw [ht], by rw [ht], ?_, ?_,
      by rw [ht]; exact id⟩, ?_,
        by simp, fun _ => by rw [ht]; exact ⟨rfl, rfl⟩, by simp⟩
      · rw [ht]; exact id
      · rw [ht]; exact fun _ => by rw [hp]; exact p2
      · rw [ht]; exact hk
    · rename_i hlt
      obtain ⟨rfl, ht⟩ := hc
      have hk' : t.sel.knownBits = BitVec.ofNat 6 (collPosition e.data) := by rw [ht, narrow_sel]
      refine ⟨⟨d.made, d.closed, d.host, d.line, by rw [d.budgets, List.append_nil], by rw [ht]; rfl, ?_, ?_, ?_,
        by rw [ht]; exact fun hf => ⟨hf.idx, hf.sendLen⟩⟩, ?_, ?_,
        by simp, by simp⟩
      · rw [ht]
        exact byteAt_set_ne _ _ (by unfold positionByte; omega)
      · rw [ht]; exact id
      · rw [ht]; exact fun _ => by rw [hp]; exact p2
      · rw [hk', hp]; exact p2
      · rw [hk', hp]; intro _; omega

/-! ### The rounds -/

/-- Outcomes with which a round makes `select` return (R216, R217, R212). -/
def roundOutcomes : List OpOutcome := [.internalError, .collision, .timeout, .error, .noRoom]

/-- A communicate inside a round. -/
theorem CommDone.rnd {a : CommArgs} {o : OpOutcome} {x : List Exchange} {data : List Byte} {e : Exchange}
    (ht : Transacted s u [e]) (h : CommDone a u o t x data) (hw : a.recv = .rsp ∨ ∃ i, a.recv = .fb i ∧ 2 ≤ i) :
    Rnd s t ([e] ++ x) [tCommMs] ∧ t.sel = s.sel ∧ t.buf.crc = s.buf.crc ∧ (a.recv = .rsp → t.buf.fb = s.buf.fb) := by
  have hrest := h.rest
  rw [ht.rest] at hrest
  have key : t.sel = s.sel ∧ t.buf.crc = s.buf.crc ∧ (a.recv = .rsp → t.buf.fb = s.buf.fb)
      ∧ byteAt t.buf.fb 0 = byteAt s.buf.fb 0 ∧ t.col = s.col
      ∧ t = { s with
          opState := t.opState, txn := t.txn, inp := t.inp, out := t.out, com := t.com,
          buf := ⟨t.buf.fb, t.buf.rsp, s.buf.atqa, t.buf.crc⟩ } := by
    rcases hw with hw | ⟨i, hw, hi⟩ <;> rw [hw] at hrest ⊢ <;> rw [hrest]
    · exact ⟨rfl, rfl, fun _ => rfl, rfl, rfl, rfl⟩
    · exact ⟨rfl, rfl, by simp, byteAt_writeAt_out _ _ (.inl (by omega)), rfl, rfl⟩
  refine ⟨⟨ht.made.trans h.made, h.closed, h.host.trans ht.did.host, h.line.trans ht.did.line,
    h.budgets.trans (by rw [ht.did.budgets]), ?_, key.2.2.2.1,
    fun _ => h.comWf, fun hc => by rw [key.2.2.2.2.1]; exact hc, fun hf => by rw [key.1]; exact hf⟩, key.1, key.2.1, key.2.2.1⟩
  rw [key.2.2.2.2.2]

theorem anticollFrame_idx (h : s.sel.knownBits.toNat < 32) :
    (anticollFrame s).sel.idx.toNat = 2 + s.sel.knownBits.toNat / 8 := by
  simp only [anticollFrame, BitVec.toNat_ofNat]
  omega

theorem anticollFrame_sendLen (h : s.sel.knownBits.toNat < 32) : (anticollFrame s).sel.sendLen.toNat
    = 2 + s.sel.knownBits.toNat / 8 + if s.sel.knownBits.toNat % 8 > 0 then 1 else 0 := by
  have : (if s.sel.knownBits.toNat % 8 > 0 then 1 else 0) ≤ 1 := by split <;> omega
  simp only [anticollFrame]
  rw [BitVec.toNat_ofNat, Nat.mod_eq_of_lt (by omega)]

theorem anticollFrame_wf (h : s.sel.knownBits.toNat < 32) : FrameWf (anticollFrame s).sel where
  idx := by rw [anticollFrame_idx h]; omega
  sendLen := by rw [anticollFrame_sendLen h]; split <;> omega

/-- An anti-collision round: it ends `select`, or leaves more known bits (R213 to R218, R225). -/
theorem anticollRound_run (h : s.txn.isOpen = false) (hk : s.sel.knownBits.toNat < 32) :
    ∃ r t x, anticollRound.run s = .ok r t ∧ Rnd s t x [tCommMs] ∧ t.sel.knownBits.toNat ≤ 32
      ∧ (r = none → s.sel.knownBits.toNat < t.sel.knownBits.toNat)
      ∧ (∀ o, r = some o → o ∈ roundOutcomes) := by
  let s1 := anticollFrame (s.toRule 213)
  have hidx : s1.sel.idx.toNat = 2 + s.sel.knownBits.toNat / 8 := anticollFrame_idx (s := s.toRule 213) hk
  have hfb1 : byteAt s1.buf.fb 0 = byteAt s.buf.fb 0 := byteAt_set_ne _ _ (by omega)
  have hr1 : Rnd s s1 [] [] :=
    ⟨(Made.refl s).right rfl rfl rfl, h, rfl, rfl, by rw [List.append_nil]; rfl, rfl, hfb1, id, id,
      fun _ => anticollFrame_wf (s := s.toRule 213) hk⟩
  obtain ⟨u, o, t, e, x, data, r2, m2, -, d2⟩ :=
    roundExchange_run (s := s1) (.fb s1.sel.idx.toNat) (cap := 7 - s1.sel.idx.toNat) h (by omega)
  obtain ⟨rn2, hsel, -, -⟩ := d2.rnd m2 (.inr ⟨_, rfl, by omega⟩)
  have rn := hr1.trans rn2
  have hks : t.sel.knownBits = s.sel.knownBits := by rw [hsel]; rfl
  have hrun : anticollRound.run s = (if o = .collision then onCollision
      else if o = .ok then do
        modify fun s => { s with sel := { s.sel with knownBits := BitVec.ofNat 6 levelBits } }
        return none
      else return some o : Eng (Option OpOutcome)).run t := by
    rw [anticollRound, Eng.run_bind_atRule, Eng.run_bind_modify, Eng.run_bind_get]
    dsimp only
    exact Eng.bind_ok r2
  by_cases hc : o = .collision
  · rw [if_pos hc] at hrun
    obtain ⟨r, v, y, r3, rn3, k3, kn, -, ho⟩ := onCollision_rnd d2.closed (by rw [hks]; omega)
    refine ⟨r, v, _, hrun.trans r3, by simpa using rn.trans rn3, k3, fun hn => by rw [← hks]; exact kn hn, ?_⟩
    intro o' ho'
    rcases ho o' ho' with rfl | rfl <;> decide
  rw [if_neg hc] at hrun
  by_cases hok : o = .ok
  · rw [if_pos hok, Eng.run_bind_modify, Eng.run_pure] at hrun
    refine ⟨none, _, _, hrun,
      ⟨rn.made.right rfl rfl rfl, rn.closed, rn.host, rn.line, rn.budgets, ?_, rn.fb0, rn.com, rn.col,
        fun hf => ⟨(rn.frame hf).idx, (rn.frame hf).sendLen⟩⟩, ?_, ?_, by simp⟩
    · rw [rn.keep]
    · show (BitVec.ofNat 6 levelBits).toNat ≤ 32
      decide
    · intro _
      show s.sel.knownBits.toNat < (BitVec.ofNat 6 levelBits).toNat
      exact hk
  · rw [if_neg hok, Eng.run_pure] at hrun
    refine ⟨some o, t, _, hrun, rn, by rw [hks]; omega, by simp, ?_⟩
    intro o' ho'
    obtain rfl : o = o' := by simpa using ho'
    have := d2.outcome_mem
    revert this hc hok
    cases o <;> decide

/-- A CRC inside a round, or of the SAK. -/
theorem CrcDone.rnd {d : List Byte} {o : OpOutcome} {x : List Exchange} (h : CrcDone d s o t x) :
    Rnd s t x [tCrcMs] ∧ t.sel = s.sel ∧ t.buf.fb = s.buf.fb ∧ t.buf.rsp = s.buf.rsp
      ∧ t.com.bytesWritten = s.com.bytesWritten ∧ t.com.validBits = s.com.validBits ∧ t.uid = s.uid := by
  have hrest := h.rest
  refine ⟨⟨h.made, h.closed, h.host, h.line, h.budgets, ?_, by rw [hrest], ?_, ?_,
    fun hf => by rw [hrest]; exact hf⟩, by rw [hrest], by rw [hrest],
    by rw [hrest], by rw [hrest], by rw [hrest], by rw [hrest]⟩
  · rw [hrest]
  · intro hc
    rw [hrest]
    exact ⟨hc.bytesWritten, hc.bitFraming, rfl⟩
  · rw [hrest]
    exact id

/-- What a full-select round that was answered has sent: the frame of R212, whole, as it still stands in `FB`. -/
structure FullSent (t : State) (x : List Exchange) : Prop where
  nvb : byteAt t.buf.fb 1 = nvbFullByte
  bcc : byteAt t.buf.fb 6 = bcc t.buf.fb
  sent : writeFrame t.cfg.aFifoData (slice t.buf.fb 0 9) ∈ x.map Exchange.sent
  crc : ∃ y, y <:+: x ∧ CrcExchanges t.cfg (slice t.buf.fb 0 7) #v[byteAt t.buf.fb 7, byteAt t.buf.fb 8] y

/-- More exchanges around do not matter, nor does what is not the frame or the configuration. -/
theorem FullSent.mono {x y : List Exchange} (h : FullSent t x) (hx : x <:+: y) (hb : u.buf.fb = t.buf.fb)
    (hc : u.cfg = t.cfg) : FullSent u y where
  nvb := by rw [hb]; exact h.nvb
  bcc := by rw [hb]; exact h.bcc
  sent := by rw [hb, hc]; exact List.map_subset _ hx.subset h.sent
  crc := by
    obtain ⟨z, hz, he⟩ := h.crc
    exact ⟨z, hz.trans hx, by rw [hb, hc]; exact he⟩

theorem commFrames_send {c : Config} {cmd : BitVec 4} {f : Byte} {send : List Byte} (h : send ≠ []) :
    writeFrame c.aFifoData send ∈ commFrames c cmd f send := by
  simp [commFrames, dataFrames, h]

theorem CommDone.sent {a : CommArgs} {o : OpOutcome} {x : List Exchange} {data : List Byte} (h : CommDone a s o t x data)
    (hs : a.send ≠ []) : writeFrame s.cfg.aFifoData a.send ∈ x.map Exchange.sent := by
  obtain ⟨x0, x4, rfl, ⟨x1, x2, x3, rfl, hx, -⟩, -⟩ := h.exchanges
  rw [List.map_append, List.map_append, List.map_append, hx]
  simp only [List.mem_append]
  exact .inl (.inl (.inl (commFrames_send hs)))

/-- A full-select round: it ends `select`, or the response has come (R212, R215 to R217). -/
theorem fullRound_run (h : s.txn.isOpen = false) (hk : s.sel.knownBits.toNat = 32) :
    ∃ r t x l, fullRound.run s = .ok r t ∧ Rnd s t x l ∧ (l = [tCrcMs] ∨ l = [tCrcMs, tCommMs])
      ∧ t.sel.knownBits.toNat = 32 ∧ (r = none → FullSent t x)
      ∧ (∀ o, r = some o → o ∈ roundOutcomes) := by
  let s1 := fullFrame (s.toRule 212)
  have hfb0 : byteAt s1.buf.fb 0 = byteAt s.buf.fb 0 :=
    (byteAt_set_ne _ _ (by omega)).trans (byteAt_set_ne _ _ (by omega))
  have hfb1 : byteAt s1.buf.fb 1 = nvbFullByte :=
    (byteAt_set_ne _ _ (by omega)).trans (byteAt_set_self _ _ (by omega))
  have hbcc : byteAt s1.buf.fb 6 = Machine.bcc s1.buf.fb := by
    refine (byteAt_set_self _ _ (by omega)).trans ?_
    simp only [s1, fullFrame, Machine.bcc]
    rw [byteAt_set_ne _ _ (by omega : 6 ≠ 2), byteAt_set_ne _ _ (by omega : 6 ≠ 3), byteAt_set_ne _ _ (by omega : 6 ≠ 4),
      byteAt_set_ne _ _ (by omega : 6 ≠ 5)]
  have rn1 : Rnd s s1 [] [] :=
    ⟨(Made.refl s).right rfl rfl rfl, h, rfl, rfl, by rw [List.append_nil]; rfl, rfl, hfb0, id, id, id⟩
  obtain ⟨o, t2, x2, r2, d2⟩ := computeCrc_run (s := s1) (d := slice s1.buf.fb 0 7) h (by simp)
  obtain ⟨rn2, sel2, fb2, -, -⟩ := d2.rnd
  have rn12 := rn1.trans rn2
  have k2 : t2.sel.knownBits.toNat = 32 := by rw [sel2]; exact hk
  have hrun : fullRound.run s = (if o ≠ .ok then return some o
      else do
        modify fullFrameCrc
        let o ← roundExchange .rsp selectRespLen
        if o = .collision then return some ((← onCollision).getD .internalError)
        else if o = .ok then return none
        else return some o : Eng (Option OpOutcome)).run t2 := by
    rw [fullRound, Eng.run_bind_atRule, Eng.run_bind_modify, Eng.run_bind_get]
    exact Eng.bind_ok r2
  by_cases hok : o ≠ .ok
  · rw [if_pos hok, Eng.run_pure] at hrun
    refine ⟨some o, t2, _, _, hrun, rn12, .inl rfl, k2, by simp, ?_⟩
    intro o' ho'
    obtain rfl : o = o' := by simpa using ho'
    rcases d2.ends with rfl | rfl
    · exact (hok rfl).elim
    · decide
  rw [if_neg hok, Eng.run_bind_modify] at hrun
  let s3 := fullFrameCrc t2
  have fb3 : ∀ j, j < 7 → byteAt s3.buf.fb j = byteAt s1.buf.fb j := fun j hj => by
    refine (byteAt_set_ne _ _ (by omega)).trans ((byteAt_set_ne _ _ (by omega)).trans ?_)
    rw [fb2]
  have bcc3 : Machine.bcc s3.buf.fb = Machine.bcc s1.buf.fb := by
    unfold Machine.bcc
    rw [fb3 2 (by omega), fb3 3 (by omega), fb3 4 (by omega), fb3 5 (by omega)]
  have rn3 : Rnd t2 s3 [] [] :=
    ⟨(Made.refl t2).right rfl rfl rfl, d2.closed, rfl, rfl, by rw [List.append_nil]; rfl, rfl,
      (fb3 0 (by omega)).trans (by rw [fb2]), id, id,
      fun hf => ⟨hf.idx, .inr (.inr rfl)⟩⟩
  obtain ⟨u, o4, t4, e, x4, data, r4, m4, -, d4⟩ :=
    roundExchange_run (s := s3) .rsp (cap := selectRespLen) d2.closed (by decide)
  obtain ⟨rn4, sel4, -, fb4⟩ := d4.rnd m4 (.inl rfl)
  have rn := (rn12.trans rn3).trans rn4
  have k4 : t4.sel.knownBits.toNat = 32 := by rw [sel4]; exact k2
  replace hrun := hrun.trans (Eng.bind_ok r4)
  have hcu : u.cfg = t4.cfg := by rw [rn4.cfg, m4.rest]
  have hslice : roundArgs s3.cfg (slice s3.buf.fb 0 s3.sel.sendLen.toNat) .rsp selectRespLen s3.sel.txLast
      = roundArgs s3.cfg (slice t4.buf.fb 0 9) .rsp selectRespLen 0 := by
    rw [fb4 rfl]
    rfl
  have hfull : FullSent t4 (([] ++ x2 ++ []) ++ ([e] ++ x4)) := by
    refine ⟨?_, ?_, ?_, x2, ?_, ?_⟩
    · rw [fb4 rfl, fb3 1 (by omega), hfb1]
    · rw [fb4 rfl, fb3 6 (by omega), hbcc, bcc3]
    · have := d4.sent (by
        rw [hslice]
        intro hn
        have := congrArg List.length hn
        simp [roundArgs] at this)
      rw [hslice, hcu] at this
      rw [List.map_append, List.map_append (l₁ := [e])]
      exact List.mem_append_right _ (List.mem_append_right _ this)
    · exact ⟨[], [] ++ ([e] ++ x4), by simp⟩
    · have h7 : #v[byteAt t4.buf.fb 7, byteAt t4.buf.fb 8] = t2.buf.crc := by
        rw [fb4 rfl]
        apply eq_of_byteAt
        intro j hj
        rcases (by omega : j = 0 ∨ j = 1) with rfl | rfl
        · exact (byteAt_set_ne (t2.buf.fb.setIfInBounds 7 _) (byteAt t2.buf.crc 1) (i := 8) (j := 7) (by omega)).trans
            (byteAt_set_self t2.buf.fb (byteAt t2.buf.crc 0) (i := 7) (by omega))
        · exact byteAt_set_self (t2.buf.fb.setIfInBounds 7 _) (byteAt t2.buf.crc 1) (i := 8) (by omega)
      obtain rfl := not_not.mp hok
      have hd := d2.crcExchanges
      rw [h7, fb4 rfl, slice_congr (w := s1.buf.fb) fun j _ hj => fb3 j (by omega), rn4.cfg]
      rw [← rn2.cfg] at hd
      exact hd
  by_cases hc : o4 = .collision
  · rw [if_pos hc] at hrun
    obtain ⟨r, v, y, r5, rn5, k5, kn, ks, ho⟩ := onCollision_rnd d4.closed (by rw [k4])
    have hr : r ≠ none := fun hn => by
      have := kn hn
      omega
    refine ⟨some (r.getD .internalError), v, _, _, hrun.trans (Eng.bind_ok r5), rn.trans rn5, .inr (by simp),
      by rw [(ks hr).1, k4], by simp, ?_⟩
    intro o' ho'
    cases r with
    | none => exact (hr rfl).elim
    | some o5 =>
      obtain rfl : o5 = o' := by simpa using ho'
      rcases ho o5 rfl with rfl | rfl <;> decide
  rw [if_neg hc] at hrun
  by_cases hok4 : o4 = .ok
  · rw [if_pos hok4, Eng.run_pure] at hrun
    exact ⟨none, t4, _, _, hrun, rn, .inr (by simp), k4, fun _ => hfull, by simp⟩
  · rw [if_neg hok4, Eng.run_pure] at hrun
    refine ⟨some o4, t4, _, _, hrun, rn, .inr (by simp), k4, by simp, ?_⟩
    intro o' ho'
    obtain rfl : o4 = o' := by simpa using ho'
    have := d4.outcome_mem
    revert this hc hok4
    cases o4 <;> decide

/-- The rounds of a level: at most `n` anti-collision rounds and one full select (R211, R225). -/
theorem rounds_run (n : Nat) (h : s.txn.isOpen = false) (hk : s.sel.knownBits.toNat ≤ 32)
    (hn : 32 ≤ s.sel.knownBits.toNat + n) :
    ∃ r t x l, (rounds n).run s = .ok r t ∧ Rnd s t x l ∧ l.count tCommMs ≤ n + 1 ∧ l.count tCrcMs ≤ 1
      ∧ t.sel.knownBits.toNat ≤ 32
      ∧ (r = none → t.sel.knownBits.toNat = 32 ∧ FullSent t x) ∧ (∀ o, r = some o → o ∈ roundOutcomes)
      ∧ RoundsRun s r t := by
  have full : s.sel.knownBits.toNat = 32 → ∃ r t x l, fullRound.run s = .ok r t ∧ Rnd s t x l ∧ l.count tCommMs ≤ 1
      ∧ l.count tCrcMs ≤ 1 ∧ t.sel.knownBits.toNat ≤ 32
      ∧ (r = none → t.sel.knownBits.toNat = 32 ∧ FullSent t x) ∧ (∀ o, r = some o → o ∈ roundOutcomes)
      ∧ RoundsRun s r t := fun hk => by
    obtain ⟨r, t, x, l, hr, rn, hl, ht, hf, ho⟩ := fullRound_run h hk
    exact ⟨r, t, x, l, hr, rn, by rcases hl with rfl | rfl <;> decide, by rcases hl with rfl | rfl <;> decide, ht.le,
      fun hn => ⟨ht, hf hn⟩, ho, .full (by omega) hr⟩
  induction n generalizing s with
  | zero =>
    exact full (by omega)
  | succ n ih =>
    rw [rounds, Eng.run_bind_get]
    by_cases hfull : levelBits ≤ s.sel.knownBits.toNat
    · rw [if_pos hfull]
      obtain ⟨r, t, x, l, hr, rn, h1, h⟩ := full (le_antisymm hk hfull)
      exact ⟨r, t, x, l, hr, rn, by omega, h⟩
    · rw [if_neg hfull]
      obtain ⟨r, t, x, hr, rn, ht, hlt, ho⟩ := anticollRound_run h (Nat.lt_of_not_le hfull)
      cases r with
      | some o =>
        refine ⟨some o, t, x, _, (Eng.bind_ok hr).trans rfl, rn, ?_, ?_, ht, by simp, ho,
          .stop (Nat.lt_of_not_le hfull) hr⟩
        · simp
        · decide
      | none =>
        have hgt := hlt rfl
        obtain ⟨r', u, y, m, hr', rn', h1, h2, hu, hf, ho', hrun⟩ := ih (s := t) rn.closed ht (by omega) fun hk => by
          obtain ⟨r, t, x, l, hr, rn, hl, ht, hf, ho⟩ := fullRound_run rn.closed hk
          exact ⟨r, t, x, l, hr, rn, by rcases hl with rfl | rfl <;> decide, by rcases hl with rfl | rfl <;> decide, ht.le,
            fun hn => ⟨ht, hf hn⟩, ho, .full (by omega) hr⟩
        refine ⟨r', u, x ++ y, _, (Eng.bind_ok hr).trans hr', rn.trans rn', ?_, ?_, hu, ?_, ho',
          .again (Nat.lt_of_not_le hfull) hr hrun⟩
        · rw [List.count_append]
          simp only [List.count_singleton_self]
          omega
        · rw [List.count_append, List.count_singleton]
          simpa using h2
        · intro hn
          obtain ⟨h3, h4⟩ := hf hn
          exact ⟨h3, h4.mono (List.suffix_append _ _).isInfix rfl rfl⟩

/-! ### The verification of a response -/

/-- A response of three whole bytes, of whose first the PCD has computed the CRC by the last exchanges (R220, R221). -/
structure Checked (t : State) (x : List Exchange) : Prop where
  length : t.com.bytesWritten = 3
  bits : t.com.validBits = 0
  computed : ∃ y, y <:+ x ∧ CrcExchanges t.cfg [byteAt t.buf.rsp 0] t.buf.crc y

/-- The CRC computed is the one received (R221). -/
abbrev CrcAgrees (t : State) : Prop := byteAt t.buf.crc 0 = byteAt t.buf.rsp 1 ∧ byteAt t.buf.crc 1 = byteAt t.buf.rsp 2

/-- What a good response means (R220, R221). -/
structure GoodResponse (t : State) (x : List Exchange) : Prop extends Checked t x where
  agrees : CrcAgrees t

theorem Checked.mono {x y : List Exchange} (h : Checked t x) (hx : x <:+ y) (hb : u.buf = t.buf)
    (hm : u.com = t.com) (hc : u.cfg = t.cfg) : Checked u y where
  length := by rw [hm]; exact h.length
  bits := by rw [hm]; exact h.bits
  computed := by
    obtain ⟨z, hz, he⟩ := h.computed
    exact ⟨z, hz.trans hx, by rw [hb, hc]; exact he⟩

theorem GoodResponse.mono {x y : List Exchange} (h : GoodResponse t x) (hx : x <:+ y) (hb : u.buf = t.buf)
    (hm : u.com = t.com) (hc : u.cfg = t.cfg) : GoodResponse u y :=
  ⟨h.toChecked.mono hx hb hm hc, by rw [CrcAgrees, hb]; exact h.agrees⟩

/-- The verification of a response, by its exchanges (R220, R221). -/
theorem verifyResponse_cases (h : s.txn.isOpen = false) :
    (¬(s.com.bytesWritten = 3 ∧ s.com.validBits = 0) ∧ verifyResponse.run s = .ok (some .internalError) (s.toRule 220))
    ∨ s.com.bytesWritten = 3 ∧ s.com.validBits = 0 ∧ ∃ o t x, CrcDone [byteAt s.buf.rsp 0] s o t x
      ∧ verifyResponse.run s
        = .ok (if o ≠ .ok then some o else if CrcAgrees t then none else some .crcMismatch) t := by
  have hw : wholeResponse s.com.bytesWritten s.com.validBits = true ↔ s.com.bytesWritten = 3 ∧ s.com.validBits = 0 := by
    rw [wholeResponse, Bool.and_eq_true, beq_iff_eq, beq_iff_eq]
    exact and_congr_left' ⟨fun h => BitVec.eq_of_toNat_eq h, fun h => by rw [h]; rfl⟩
  rw [verifyResponse, Eng.run_bind_atRule, Eng.run_bind_get]
  by_cases hc : s.com.bytesWritten = 3 ∧ s.com.validBits = 0
  · obtain ⟨o, t, x, r1, d1⟩ := computeCrc_run (s := (s.toRule 220).toRule 221) (d := [byteAt s.buf.rsp 0]) h (by simp)
    refine .inr ⟨hc.1, hc.2, o, t, x,
      ⟨d1.ends, d1.made.left rfl rfl rfl, d1.exchanges, d1.closed, d1.rest, d1.grant, d1.line, d1.budgets⟩, ?_⟩
    rw [if_neg (by rw [State.toRule_com, hw.mpr hc]; decide), Eng.run_bind_atRule]
    refine (Eng.bind_ok r1).trans ?_
    by_cases ho : o ≠ .ok
    · rw [if_pos ho, if_pos ho, Eng.run_pure]
    · rw [if_neg ho, if_neg ho, Eng.run_bind_get]
      by_cases ha : CrcAgrees t
      · rw [if_neg fun hn => hn.elim (· ha.1) (· ha.2), if_pos ha, Eng.run_pure]
      · rw [if_pos (not_and_or.mp ha), if_neg ha, Eng.run_pure]
  · refine .inl ⟨hc, ?_⟩
    rw [if_pos (by rw [State.toRule_com]; simpa using mt hw.mp hc), Eng.run_pure]

theorem verifyResponse_run (h : s.txn.isOpen = false) :
    ∃ r t x l, verifyResponse.run s = .ok r t ∧ Rnd s t x l ∧ (l = [] ∨ l = [tCrcMs]) ∧ t.sel = s.sel
      ∧ t.buf.fb = s.buf.fb ∧ t.buf.rsp = s.buf.rsp ∧ (r = none → GoodResponse t x)
      ∧ (r = some .crcMismatch → Checked t x ∧ ¬CrcAgrees t)
      ∧ (∀ o, r = some o → o ∈ [OpOutcome.internalError, .timeout, .crcMismatch]) := by
  rcases verifyResponse_cases h with ⟨-, hr⟩ | ⟨hb, hv, o, t, x, d, hr⟩
  · exact ⟨_, _, [], [], hr, (Rnd.refl (s := s.toRule 220) h).toRule 220, .inl rfl, rfl, rfl, rfl, by simp, by simp,
      by simp⟩
  · obtain ⟨rn, sel, fb, rsp, bw, vb, -⟩ := d.rnd
    refine ⟨_, t, x, _, hr, rn, .inr rfl, sel, fb, rsp, ?_⟩
    by_cases ho : o = .ok
    · subst ho
      have hc : Checked t x := ⟨bw.trans hb, vb.trans hv, x, List.suffix_rfl, by
        rw [rsp, rn.cfg]
        exact d.crcExchanges⟩
      by_cases ha : CrcAgrees t
      · simp only [ne_eq, not_true_eq_false, if_false, if_pos ha]
        exact ⟨fun _ => ⟨hc, ha⟩, by simp, by simp⟩
      · simp only [ne_eq, not_true_eq_false, if_false, if_neg ha]
        exact ⟨by simp, fun _ => ⟨hc, ha⟩, by simp⟩
    · rcases d.ends with rfl | rfl
      · exact (ho rfl).elim
      · exact ⟨by simp, by simp, by simp⟩

/-! ### The levels -/

/-- The scalars of `select` are in their ranges (R25). -/
structure SelWf (r : SelectRegs) : Prop where
  knownBits : r.knownBits.toNat ≤ 32
  level : r.level.toNat ≤ 4
  off : r.off.toNat = 0 ∨ r.off.toNat = 3 ∨ r.off.toNat = 6
  frame : FrameWf r

/-- What a `select` that returned `Ok` found (R111, R219 to R222): the level it ended at, the size, the SAK, and the frame that
was sent last. -/
structure Selected (t : State) (x : List Exchange) : Prop where
  level : 1 ≤ t.sel.level.toNat ∧ t.sel.level.toNat ≤ 3
  size : t.uid.size.toNat = 3 * t.sel.level.toNat + 1
  sak : t.uid.sak = byteAt t.buf.rsp 0
  complete : sakContinues t.uid.sak = false
  response : GoodResponse t x
  opcode : byteAt t.buf.fb 0 = selOpcode t.cfg t.sel.level.toNat
  frame : FullSent t x
  bytes : ∀ j, j < (levelUidBytes t.buf.fb t.sel.level.toNat).length →
    byteAt t.uid.b (uidOffset t.sel.level.toNat + j) = (levelUidBytes t.buf.fb t.sel.level.toNat).getD j 0

/-- What `select` leaves unchanged from some level on, and what it did. -/
structure LevelsDone (level : Nat) (s : State) (o : OpOutcome) (t : State) (x : List Exchange) (l : List Nat) : Prop where
  made : Made s t x
  closed : t.txn.isOpen = false
  host : t.inp.host = s.inp.host
  line : t.out.line = s.out.line
  budgets : t.out.budgets = s.out.budgets ++ l
  keep : t = { s with
    opState := t.opState, txn := t.txn, inp := t.inp, out := t.out, com := t.com, col := t.col, uid := t.uid,
    sel := { t.sel with kvb := s.sel.kvb }, buf := ⟨t.buf.fb, t.buf.rsp, s.buf.atqa, t.buf.crc⟩ }
  com : ComWf s.com → ComWf t.com
  col : s.col.pos.toNat ≤ 32 → t.col.pos.toNat ≤ 32
  sel : SelWf s.sel → SelWf t.sel
  /-- bytes below those of the level it began at are untouched; from level 4 on, every byte is -/
  below : ∀ j, j < uidOffset level ∨ 4 ≤ level → byteAt t.uid.b j = byteAt s.uid.b j
  /-- the levels it went through -/
  completed : ∀ n, level ≤ n → n < t.sel.level.toNat → LevelCompleted t.cfg n t.uid.b x
  mismatch : o = .crcMismatch → Checked t x ∧ ¬CrcAgrees t
  /-- a fourth level comes after a good response with the cascade bit, and nothing more is done -/
  fourth : t.sel.level.toNat = 4 → o = .internalError ∧
    (level = 4 ∧ x = [] ∧ t.buf = s.buf ∧ t.com = s.com ∨ GoodResponse t x ∧ sakContinues (byteAt t.buf.rsp 0) = true)
  level : level ≤ t.sel.level.toNat
  /-- bytes above those of the level it ended at are untouched -/
  above : ∀ j, 3 * t.sel.level.toNat + 1 ≤ j → byteAt t.uid.b j = byteAt s.uid.b j
  outcome : o ∈ [OpOutcome.ok, .internalError, .collision, .crcMismatch, .timeout, .error, .noRoom]
  failure : o ≠ .ok → t.uid.size = s.uid.size ∧ t.uid.sak = s.uid.sak
  success : o = .ok → Selected t x

theorem startKnownBits_le (level kvb : Nat) : startKnownBits level kvb ≤ 32 := by
  unfold startKnownBits levelCap
  split <;> omega

theorem uidOffset_le {level : Nat} (h : level ≤ 3) (h1 : 1 ≤ level) :
    (BitVec.ofNat 3 (uidOffset level)).toNat = uidOffset level := by
  rw [BitVec.toNat_ofNat, Nat.mod_eq_of_lt]
  unfold uidOffset
  omega

theorem length_levelUidBytes (fb : Vector Byte 9) (level : Nat) :
    (levelUidBytes fb level).length = 3 ∨ (levelUidBytes fb level).length = 4 := by
  unfold levelUidBytes
  split
  · exact .inl (by simp)
  · exact .inr (by simp)

/-- `FB[0]` at the start of a level is its SELECT opcode (R207). -/
theorem levelFrame_opcode (c : Config) (u : Vector Byte 10) (fb : Vector Byte 9) (level kvb : Nat) :
    byteAt (levelFrame c u fb level kvb) 0 = selOpcode c level := by
  have h : byteAt (writeAt (fb.setIfInBounds 0 (selOpcode c level)) 1 (List.replicate 8 0)) 0 = selOpcode c level :=
    (byteAt_writeAt_out _ _ (.inl (by omega))).trans (byteAt_set_self _ _ (by omega))
  simp only [levelFrame]
  rw [byteAt_writeAt_out _ _ (.inl (by unfold levelFirst; split <;> omega))]
  split
  · rw [byteAt_set_ne _ _ (by omega), h]
  · exact h

/-- Somewhere inside a level. -/
structure Mid (level : Nat) (s t : State) (x : List Exchange) (l : List Nat) : Prop where
  made : Made s t x
  closed : t.txn.isOpen = false
  host : t.inp.host = s.inp.host
  line : t.out.line = s.out.line
  budgets : t.out.budgets = s.out.budgets ++ l
  keep : t = { s with
    opState := t.opState, txn := t.txn, inp := t.inp, out := t.out, com := t.com, col := t.col,
    uid := ⟨t.uid.b, s.uid.size, s.uid.sak⟩, sel := { t.sel with kvb := s.sel.kvb, level := s.sel.level },
    buf := ⟨t.buf.fb, t.buf.rsp, s.buf.atqa, t.buf.crc⟩ }
  com : ComWf s.com → ComWf t.com
  col : s.col.pos.toNat ≤ 32 → t.col.pos.toNat ≤ 32
  frame : FrameWf s.sel → FrameWf t.sel
  knownBits : t.sel.knownBits.toNat ≤ 32
  off : t.sel.off.toNat = uidOffset level
  opcode : byteAt t.buf.fb 0 = selOpcode t.cfg level
  above : ∀ j, 3 * level + 1 ≤ j → byteAt t.uid.b j = byteAt s.uid.b j
  below : ∀ j, j < uidOffset level → byteAt t.uid.b j = byteAt s.uid.b j

theorem Mid.level {n : Nat} {x : List Exchange} {l : List Nat} (h : Mid n s t x l) : t.sel.level = s.sel.level := by
  rw [h.keep]

theorem Mid.rnd {level : Nat} {x y : List Exchange} {l m : List Nat} (h : Mid level s t x l) (h' : Rnd t u y m)
    (hk : u.sel.knownBits.toNat ≤ 32) : Mid level s u (x ++ y) (l ++ m) where
  made := h.made.trans h'.made
  closed := h'.closed
  host := h'.host.trans h.host
  line := h'.line.trans h.line
  budgets := by rw [h'.budgets, h.budgets, List.append_assoc]
  keep := by rw [h'.keep, h.keep]
  com := h'.com ∘ h.com
  col := h'.col ∘ h.col
  frame := h'.frame ∘ h.frame
  knownBits := hk
  off := by rw [h'.keep]; exact h.off
  opcode := by rw [h'.fb0, h.opcode, h'.cfg]
  above := by rw [h'.keep]; exact h.above
  below := by rw [h'.keep]; exact h.below

theorem Mid.toRule (r : Nat) {level : Nat} {x : List Exchange} {l : List Nat} (h : Mid level s t x l) :
    Mid level s (t.toRule r) x l where
  made := h.made.right rfl rfl rfl
  closed := h.closed
  host := h.host
  line := h.line
  budgets := h.budgets
  keep := by rw [h.keep]; rfl
  com := h.com
  col := h.col
  frame := h.frame
  knownBits := h.knownBits
  off := h.off
  opcode := h.opcode
  above := h.above
  below := h.below

theorem Mid.store {level : Nat} {x : List Exchange} {l : List Nat} (h : Mid level s t x l) (h1 : 1 ≤ level) :
    Mid level s (storeUidBytes level t) x l where
  made := h.made.right rfl rfl rfl
  closed := h.closed
  host := h.host
  line := h.line
  budgets := h.budgets
  keep := by rw [h.keep]; rfl
  com := h.com
  col := h.col
  frame := h.frame
  knownBits := h.knownBits
  off := h.off
  opcode := h.opcode
  above := fun j hj => by
    rw [storeUidBytes_uid]
    refine (byteAt_writeAt_out _ _ (.inr ?_)).trans (h.above j hj)
    have := length_levelUidBytes t.buf.fb level
    unfold uidOffset
    omega
  below := fun j hj => by
    rw [storeUidBytes_uid]
    exact (byteAt_writeAt_out _ _ (.inl hj)).trans (h.below j hj)

theorem levelSetup_mid {level : Nat} (h : s.txn.isOpen = false) (h1 : 1 ≤ level) (h3 : level ≤ 3) :
    ∃ t, (levelSetup level).run s = .ok ⟨⟩ t ∧ Mid level s t [] [] := by
  refine ⟨_, rfl, (Made.refl s).right rfl rfl rfl, h, rfl, rfl, by rw [List.append_nil]; rfl, rfl, id, id,
    fun hf => ⟨hf.idx, hf.sendLen⟩, ?_, uidOffset_le h3 h1, levelFrame_opcode _ _ _ _ _, fun _ _ => rfl, fun _ _ => rfl⟩
  show (BitVec.ofNat 6 (startKnownBits level _)).toNat ≤ 32
  rw [BitVec.toNat_ofNat]
  exact (Nat.mod_le _ _).trans (startKnownBits_le _ _)

theorem Mid.failed {level : Nat} {x : List Exchange} {l : List Nat} {o : OpOutcome} (h : Mid level s t x l)
    (hl : s.sel.level.toNat = level) (h1 : 1 ≤ level) (h3 : level ≤ 3)
    (ho : o ∈ [OpOutcome.internalError, .collision, .crcMismatch, .timeout, .error, .noRoom])
    (hm : o = .crcMismatch → Checked t x ∧ ¬CrcAgrees t) :
    LevelsDone level s o t x l where
  made := h.made
  closed := h.closed
  host := h.host
  line := h.line
  budgets := h.budgets
  keep := by rw [h.keep]
  com := h.com
  col := h.col
  sel := fun hs => ⟨h.knownBits, by rw [h.level]; exact hs.level, by rw [h.off]; unfold uidOffset; omega,
    h.frame hs.frame⟩
  mismatch := hm
  fourth := fun h4 => by rw [h.level, hl] at h4; omega
  level := by rw [h.level, hl]
  above := by rw [h.level, hl]; exact h.above
  below := fun j hj => h.below j (by omega)
  completed := fun n hn hn' => by rw [h.level, hl] at hn'; omega
  outcome := List.mem_cons_of_mem _ ho
  failure := fun _ => by rw [h.keep]; exact ⟨rfl, rfl⟩
  success := by rintro rfl; simp at ho

theorem LevelCompleted.mono {c : Config} {n : Nat} {v w : Vector Byte 10} {x y : List Exchange} (h : LevelCompleted c n v x)
    (hx : x <:+: y) (hb : ∀ j, j < (if n = 3 then 4 else 3) → byteAt w (3 * (n - 1) + j) = byteAt v (3 * (n - 1) + j)) :
    LevelCompleted c n w y := by
  obtain ⟨f, h1, h2, h3, h4, h5, h6, sak, crc, z, h7, h8, h9⟩ := h
  exact ⟨f, h1, List.map_subset _ hx.subset h2, h3, h4, h5, fun j hj => (hb j hj).trans (h6 j hj), sak, crc, z, h7,
    h8.trans hx, h9⟩

/-- A level whose frame `x` sent, whose bytes stand in the UID file, and whose SAK, verified by `y`, has the cascade bit. -/
theorem levelCompleted {level : Nat} {x y : List Exchange} (h1 : 1 ≤ level) (h3 : level ≤ 3) (hf : FullSent t x)
    (hc : u.cfg = t.cfg) (hfb : u.buf.fb = t.buf.fb) (hop : byteAt u.buf.fb 0 = selOpcode u.cfg level)
    (hu : u.uid.b = writeAt t.uid.b (uidOffset level) (levelUidBytes t.buf.fb level)) (hg : GoodResponse u y)
    (hs : sakContinues (byteAt u.buf.rsp 0) = true) : LevelCompleted u.cfg level u.uid.b (x ++ y) := by
  obtain ⟨z, hz, he⟩ := hg.computed
  have hd := getD_slice_whole t.buf.fb
  refine ⟨slice t.buf.fb 0 9, by simp, ?_, ?_, ?_, ?_, fun j hj => ?_, byteAt u.buf.rsp 0, u.buf.crc, z, ?_,
    (hz.trans (List.suffix_append _ _)).isInfix, he⟩
  · rw [hc, List.map_append]
    exact List.mem_append_left _ hf.sent
  · rw [hd, ← hfb, hop]
    rfl
  · rw [hd, hf.nvb]
  · rw [hd, hf.bcc, hd, hd, hd, hd]
    rfl
  · rw [hd, hd, hu]
    have hlen := length_levelUidBytes t.buf.fb level
    have hle : j < (levelUidBytes t.buf.fb level).length := by
      unfold levelUidBytes at hlen ⊢
      by_cases h3' : level = 3
      · subst h3'
        rw [if_pos rfl] at hj
        simpa [maxLevel] using hj
      · rw [if_neg h3'] at hj
        omega
    show byteAt _ (uidOffset level + j) = _
    rw [byteAt_writeAt_in _ _ hle (by unfold uidOffset; split at hj <;> omega)]
    by_cases ht : level < 3 ∧ byteAt t.buf.fb 2 = 0x88
    · have hb : levelUidBytes t.buf.fb level = slice t.buf.fb 3 3 := by
        rw [levelUidBytes, if_pos (by simpa [maxLevel, cascadeTagByte] using ht)]
      simp only [hb, getElem_slice, if_pos ht]
    · have hb : levelUidBytes t.buf.fb level = slice t.buf.fb 2 4 := by
        rw [levelUidBytes, if_neg (by simpa [maxLevel, cascadeTagByte] using ht)]
      simp only [hb, getElem_slice, if_neg ht]
  · simpa [sakContinues, anyBit] using hs

theorem sakContinues_iff {v : Byte} : sakContinues v = true ↔ v &&& 0x04 ≠ 0 := by
  simp [sakContinues, anyBit]

theorem storeUidBytes_copied {level r : Nat} (h1 : 1 ≤ level) (h3 : level ≤ 3) :
    LevelCopied level s (storeUidBytes level (s.toRule r)) := by
  refine ⟨rfl, fun j => ?_⟩
  have hs : levelUidBytes s.buf.fb level = slice s.buf.fb (if level < 3 ∧ byteAt s.buf.fb 2 = 0x88 then 3 else 2)
      (if level < 3 ∧ byteAt s.buf.fb 2 = 0x88 then 3 else 4) := by
    by_cases ht : level < 3 ∧ byteAt s.buf.fb 2 = 0x88
    · rw [levelUidBytes, if_pos (by simpa [maxLevel, cascadeTagByte] using ht), if_pos ht, if_pos ht]
    · rw [levelUidBytes, if_neg (by simpa [maxLevel, cascadeTagByte] using ht), if_neg ht, if_neg ht]
  show byteAt (writeAt s.uid.b (uidOffset level) (levelUidBytes s.buf.fb level)) j = _
  rw [byteAt_writeAt, hs, length_slice]
  have hn : 3 * (level - 1) = uidOffset level := rfl
  have h9 : uidOffset level ≤ 6 := by unfold uidOffset; omega
  by_cases ht : level < 3 ∧ byteAt s.buf.fb 2 = 0x88
  · simp only [if_pos ht, hn]
    by_cases hj : uidOffset level ≤ j ∧ j < uidOffset level + 3
    · rw [if_pos hj, if_pos (by omega), List.getD_eq_getElem _ _ (by rw [length_slice]; omega), getElem_slice]
    · rw [if_neg hj, if_neg (by omega)]
  · simp only [if_neg ht, hn]
    by_cases hj : uidOffset level ≤ j ∧ j < uidOffset level + 4
    · rw [if_pos hj, if_pos (by omega), List.getD_eq_getElem _ _ (by rw [length_slice]; omega), getElem_slice]
    · rw [if_neg hj, if_neg (by omega)]

/-- The levels from `level` on (R207 to R223). -/
theorem levels_run (n level : Nat) (h : s.txn.isOpen = false) (hn : n + level = 4) (h1 : 1 ≤ level)
    (hl : s.sel.level.toNat = level) :
    ∃ o t x l, (levels n level).run s = .ok o t ∧ LevelsDone level s o t x l
      ∧ l.count tCommMs ≤ 33 * n ∧ l.count tCrcMs ≤ 2 * n ∧ LevelsRun level s o t := by
  induction n generalizing s level with
  | zero =>
    obtain rfl : level = 4 := by omega
    refine ⟨.internalError, s, [], [], rfl, ?_, by simp, by simp, .fourth⟩
    exact ⟨.refl s, h, rfl, rfl, by simp, rfl, id, id, id, fun _ _ => rfl,
      fun n h h' => by omega, by simp, fun _ => ⟨rfl, .inl ⟨rfl, rfl, rfl, rfl⟩⟩, hl.ge, fun _ _ => rfl, by simp, fun _ => ⟨rfl, rfl⟩, by simp⟩
  | succ n ih =>
    have hbits : levelBits = 32 := rfl
    obtain ⟨s1, r1, m1⟩ := levelSetup_mid (level := level) h h1 (by omega)
    obtain ⟨o2, s2, x2, l2, r2, rn2, c1, c2, k2, hfull, ho2, run2⟩ := rounds_run levelBits m1.closed m1.knownBits (by omega)
    have m2 := m1.rnd rn2 k2
    rw [levels, Eng.bind_ok r1, Eng.bind_ok r2]
    cases o2 with
    | some o =>
      refine ⟨o, s2, _, _, rfl, m2.failed hl h1 (by omega) ?_ ?_, by simp; omega, by simp; omega,
        .rounds (by omega) r1 run2⟩
      · have := ho2 o rfl
        revert this
        cases o <;> decide
      · rintro rfl
        exact absurd (ho2 _ rfl) (by decide)
    | none =>
      obtain ⟨hk2, hf2⟩ := hfull rfl
      let s3 := storeUidBytes level (s2.toRule 219)
      have hres : LevelResolved level s s3 := ⟨s1, s2, r1, run2, storeUidBytes_copied h1 (by omega)⟩
      have m3 : Mid level s s3 ([] ++ x2) ([] ++ l2) := (m2.toRule 219).store h1
      obtain ⟨o4, s4, x4, l4, r4, rn4, hl4, sel4, fb4, rsp4, hgood, hbad, ho4⟩ := verifyResponse_run (s := s3) m3.closed
      have m4 : Mid level s s4 _ _ := m3.rnd rn4 (by rw [sel4]; exact k2)
      have c4 : l4.count tCommMs = 0 ∧ l4.count tCrcMs ≤ 1 := by
        rcases hl4 with rfl | rfl <;> exact ⟨by decide, by decide⟩
      show ∃ o t x l, (do
          atRule 219
          modify (storeUidBytes level)
          match ← verifyResponse with
          | some o => return o
          | none =>
            atRule 222
            if sakContinues (byteAt (← get).buf.rsp 0) then
              setLevel (level + 1)
              levels n (level + 1)
            else
              modify (finishUid level)
              return .ok : Eng OpOutcome).run s2 = .ok o t ∧ _
      rw [Eng.run_bind_atRule, Eng.run_bind_modify]
      refine (Eng.bind_ok r4).symm ▸ ?_
      cases o4 with
      | some o =>
        refine ⟨o, s4, _, _, rfl, m4.failed hl h1 (by omega) ?_ ?_, ?_, ?_, .response (by omega) hres r4⟩
        · have := ho4 o rfl
          revert this
          cases o <;> decide
        · rintro rfl
          obtain ⟨hc, ha⟩ := hbad rfl
          exact ⟨hc.mono (List.suffix_append _ _) rfl rfl rfl, ha⟩
        · simp only [List.nil_append, List.count_append]
          omega
        · simp only [List.nil_append, List.count_append]
          omega
      | none =>
        have hg := hgood rfl
        have m5 := m4.toRule 222
        show ∃ o t x l, (do
            atRule 222
            if sakContinues (byteAt (← get).buf.rsp 0) then
              setLevel (level + 1)
              levels n (level + 1)
            else
              modify (finishUid level)
              return .ok : Eng OpOutcome).run s4 = .ok o t ∧ _
        rw [Eng.run_bind_atRule, Eng.run_bind_get]
        by_cases hsak : sakContinues (byteAt (s4.toRule 222).buf.rsp 0) = true
        · rw [if_pos hsak]
          let s5 : State := { s4.toRule 222 with sel := { s4.sel with level := BitVec.ofNat 3 (level + 1) } }
          have hl5 : s5.sel.level.toNat = level + 1 := by
            simp only [s5, BitVec.toNat_ofNat]
            omega
          obtain ⟨o, t, y, m, hr, hd, hm1, hm2, hrun⟩ := ih (s := s5) (level + 1) m5.closed (by omega) (by omega) hl5
          refine ⟨o, t, [] ++ x2 ++ x4 ++ y, [] ++ l2 ++ l4 ++ m, hr, ?_, ?_, ?_,
            .next (by omega) hres r4 (sakContinues_iff.mp hsak) rfl hrun⟩
          rotate_left
          · rw [List.count_append, List.count_append, List.count_append]
            simp only [List.count_nil]
            omega
          · rw [List.count_append, List.count_append, List.count_append]
            simp only [List.count_nil]
            omega
          exact
            { made := m5.made.trans (hd.made.left rfl rfl rfl)
              closed := hd.closed
              host := hd.host.trans m5.host
              line := hd.line.trans m5.line
              budgets := by rw [hd.budgets, ← List.append_assoc, ← m5.budgets]
              keep := by
                have hkvb : s4.sel.kvb = s.sel.kvb := by rw [m4.keep]
                have hkeep := m5.keep
                rw [hd.keep]
                simp only [s5]
                rw [hkeep, hkvb]
              com := fun hc => hd.com (m5.com hc)
              col := fun hc => hd.col (m5.col hc)
              sel := fun hs => hd.sel ⟨m5.knownBits, by rw [hl5]; omega, by
                show s4.sel.off.toNat = _ ∨ s4.sel.off.toNat = _ ∨ s4.sel.off.toNat = _
                rw [m4.off]
                unfold uidOffset
                omega, ⟨(m4.frame hs.frame).idx, (m4.frame hs.frame).sendLen⟩⟩
              mismatch := fun ho => by
                obtain ⟨hc, ha⟩ := hd.mismatch ho
                exact ⟨hc.mono (List.suffix_append _ _) rfl rfl rfl, ha⟩
              fourth := fun h4 => by
                obtain ⟨ho, ⟨-, rfl, hb, hc⟩ | ⟨hg', hs⟩⟩ := hd.fourth h4
                · refine ⟨ho, .inr ⟨?_, by rw [hb]; exact hsak⟩⟩
                  rw [List.append_nil]
                  exact hg.mono (List.suffix_append _ _) hb hc (by rw [hd.keep]; rfl)
                · exact ⟨ho, .inr ⟨hg'.mono (List.suffix_append _ _) rfl rfl rfl, hs⟩⟩
              level := by have := hd.level; omega
              above := fun j hj => by
                rw [hd.above j hj]
                exact m4.above j (by have := hd.level; omega)
              below := fun j hj => by
                have hlt : j < uidOffset level := by omega
                rw [hd.below j (.inl (by unfold uidOffset at hlt ⊢; omega))]
                exact m4.below j hlt
              completed := fun k hk hk' => by
                have ct : t.cfg = s4.cfg := by rw [hd.keep]; rfl
                rcases Nat.lt_or_ge level k with hlt | hge
                · exact (hd.completed k hlt hk').mono (List.suffix_append _ _).isInfix fun _ _ => rfl
                obtain rfl : level = k := by omega
                rw [ct]
                refine (levelCompleted (u := s4) h1 (by omega) hf2 rn4.cfg fb4 m4.opcode (by rw [rn4.keep]; rfl) hg
                  (by exact hsak)).mono ⟨[], y, by simp⟩ fun j hj => ?_
                exact hd.below _ (by
                  by_cases h3 : level = 3
                  · exact .inr (by omega)
                  · rw [if_neg h3] at hj
                    exact .inl (by unfold uidOffset; omega))
              outcome := hd.outcome
              failure := fun ho => by
                obtain ⟨e1, e2⟩ := hd.failure ho
                have := m4.keep
                rw [e1, e2]
                show s4.uid.size = _ ∧ s4.uid.sak = _
                rw [this]
                exact ⟨rfl, rfl⟩
              success := fun ho => by
                have hs := hd.success ho
                exact ⟨hs.level, hs.size, hs.sak, hs.complete, hs.response.mono (List.suffix_append _ _) rfl rfl rfl,
                  hs.opcode, hs.frame.mono (List.suffix_append _ _).isInfix rfl rfl, hs.bytes⟩ }
        · rw [if_neg hsak, Eng.run_bind_modify, Eng.run_pure]
          have hlev : s4.sel.level.toNat = level := by rw [m4.level, hl]
          refine ⟨.ok, _, [] ++ x2 ++ x4, [] ++ l2 ++ l4, rfl, ?_, ?_, ?_,
            .complete (by omega) hres r4 (not_not.mp (mt sakContinues_iff.mpr hsak)) rfl⟩
          rotate_left
          · rw [List.count_append, List.count_append, List.count_nil]
            omega
          · rw [List.count_append, List.count_append, List.count_nil]
            omega
          have hfb : s4.buf.fb = s2.buf.fb := fb4
          exact
            { made := m5.made.right rfl rfl rfl
              closed := m5.closed
              host := m5.host
              line := m5.line
              budgets := m5.budgets
              keep := by
                have := m5.keep
                rw [this]
                rfl
              com := m5.com
              col := m5.col
              sel := fun hs => ⟨m5.knownBits, by
                  show s4.sel.level.toNat ≤ 4
                  omega, by
                show s4.sel.off.toNat = _ ∨ s4.sel.off.toNat = _ ∨ s4.sel.off.toNat = _
                rw [m4.off]
                unfold uidOffset
                omega, m4.frame hs.frame⟩
              mismatch := by simp
              fourth := fun h4 => by
                have : s4.sel.level.toNat = 4 := h4
                omega
              level := by
                show level ≤ s4.sel.level.toNat
                omega
              above := fun j hj => m4.above j (by
                have : 3 * s4.sel.level.toNat + 1 ≤ j := hj
                omega)
              below := fun j hj => m4.below j (by omega)
              completed := fun k hk hk' => by
                have : k < s4.sel.level.toNat := hk'
                omega
              outcome := by simp
              failure := by simp
              success := fun _ =>
                { level := by
                    show 1 ≤ s4.sel.level.toNat ∧ s4.sel.level.toNat ≤ 3
                    omega
                  size := by
                    show (BitVec.ofNat 4 (3 * level + 1)).toNat = 3 * s4.sel.level.toNat + 1
                    rw [BitVec.toNat_ofNat]
                    omega
                  sak := rfl
                  complete := by simpa using hsak
                  response := hg.mono (List.suffix_append _ _) rfl rfl rfl
                  opcode := by
                    show byteAt s4.buf.fb 0 = selOpcode s4.cfg s4.sel.level.toNat
                    rw [hlev]
                    exact m4.opcode
                  frame := hf2.mono ⟨[], x4, by simp⟩ hfb rn4.cfg
                  bytes := fun j hj => by
                    have hj' : j < (levelUidBytes s4.buf.fb level).length := by
                      rw [← hlev]
                      exact hj
                    show byteAt s4.uid.b (uidOffset s4.sel.level.toNat + j) = (levelUidBytes s4.buf.fb s4.sel.level.toNat).getD j 0
                    rw [hlev]
                    have hu : s4.uid.b = writeAt s2.uid.b (uidOffset level) (levelUidBytes s2.buf.fb level) := by
                      rw [rn4.keep]
                      rfl
                    rw [hfb] at hj' ⊢
                    have hlen := length_levelUidBytes s2.buf.fb level
                    rw [hu, byteAt_writeAt_in _ _ hj' (by unfold uidOffset; omega), List.getD_eq_getElem _ _ hj'] } }

/-! ### The whole -/

/-- `select`, whole, for a claim of at most 80 bits (R224). -/
theorem select_run {kvb : Byte} (h : s.txn.isOpen = false) (hk : kvb.toNat ≤ 80) :
    ∃ o t x l, (select kvb).run s = .ok o t
      ∧ LevelsDone 1 { s with sel := { s.sel with kvb := kvb, level := 1 } } o t x l
      ∧ l.count tCommMs ≤ 99 ∧ l.count tCrcMs ≤ 6
      ∧ ∃ b, LevelsRun 1 { s with opState := b, sel := { s.sel with kvb := kvb, level := 1 } } o t := by
  have hk' : ¬ kvb.toNat > kvbMax := by
    show ¬ kvb.toNat > 80
    omega
  let s1 : State := { s.toRule 206 with sel := { s.sel with kvb := kvb, level := 1 } }
  obtain ⟨o, t, x, l, hr, hd, h1, h2, hrun⟩ := levels_run (s := s1) 3 1 h rfl (by omega) rfl
  refine ⟨o, t, x, l, ?_, ?_, by omega, by omega, _, hrun⟩
  · rw [select, if_neg hk', Eng.run_bind_atRule, Eng.run_bind_modify]
    exact hr
  · exact ⟨hd.made.left rfl rfl rfl, hd.closed, hd.host, hd.line, hd.budgets, by rw [hd.keep]; rfl, hd.com, hd.col,
      hd.sel, hd.below, hd.completed, hd.mismatch, hd.fourth, hd.level, hd.above, hd.outcome, hd.failure, hd.success⟩

/-- `select` with a transaction left open dies at its first register operation (R316): of a full-select round the CRC's, of an
anti-collision round the bit-framing register's. -/
theorem select_open {kvb : Byte} (h : s.txn.isOpen = true) (hk : kvb.toNat ≤ 80) :
    ∃ t : State, (select kvb).run s = .error .beginWhileOpen (t.fatalState .beginWhileOpen)
      ∧ t = { s with opState := t.opState, sel := t.sel, buf := { s.buf with fb := t.buf.fb }, com := t.com }
      ∧ t.com = { s.com with rxAlign := t.com.rxAlign } ∧ (SelWf s.sel → SelWf t.sel) := by
  have hk' : ¬ kvb.toNat > kvbMax := by
    show ¬ kvb.toNat > 80
    omega
  let s1 : State := { s.toRule 206 with sel := { s.sel with kvb := kvb, level := 1 } }
  let s2 : State := { s1.toRule 207 with
    buf := { s1.buf with fb := levelFrame s1.cfg s1.uid.b s1.buf.fb 1 s1.sel.kvb.toNat },
    sel := { s1.sel with
      off := BitVec.ofNat 3 (uidOffset 1), useCt := usesCascadeTag 1 s1.sel.kvb.toNat,
      knownBits := BitVec.ofNat 6 (startKnownBits 1 s1.sel.kvb.toNat) } }
  have hk2 : s2.sel.knownBits.toNat ≤ 32 := by
    show (BitVec.ofNat 6 (startKnownBits 1 _)).toNat ≤ 32
    rw [BitVec.toNat_ofNat]
    exact (Nat.mod_le _ _).trans (startKnownBits_le _ _)
  have hsel : SelWf s.sel → SelWf s2.sel := fun hs =>
    ⟨hk2, by show (1 : BitVec 3).toNat ≤ 4; decide, .inl rfl, ⟨hs.frame.idx, hs.frame.sendLen⟩⟩
  have hrun : ∀ r t, (rounds levelBits).run s2 = .error r t → (select kvb).run s = .error r t := fun r t hr => by
    rw [select, if_neg hk', Eng.run_bind_atRule, Eng.run_bind_modify]
    exact (show _ = (levels 3 1).run s1 from rfl).trans
      ((Eng.bind_ok (show (levelSetup 1).run s1 = .ok ⟨⟩ s2 from rfl)).trans (Eng.bind_error hr))
  by_cases hf : levelBits ≤ s2.sel.knownBits.toNat
  · refine ⟨(fullFrame (s2.toRule 212)).toRule 161, hrun _ _ ?_, rfl, rfl, hsel⟩
    rw [show levelBits = 31 + 1 from rfl, rounds, Eng.run_bind_get, if_pos hf, fullRound, Eng.run_bind_atRule,
      Eng.run_bind_modify, Eng.run_bind_get]
    exact Eng.bind_error (computeCrc_open (by exact h) (by simp))
  · let f := anticollFrame (s2.toRule 213)
    refine ⟨{ f.toRule 215 with com := { f.com with rxAlign := f.sel.txLast } }, hrun _ _ ?_, rfl, rfl,
      fun hs => ⟨hk2, (hsel hs).level, .inl rfl, anticollFrame_wf (s := s2.toRule 213) (Nat.lt_of_not_le hf)⟩⟩
    rw [show levelBits = 31 + 1 from rfl, rounds, Eng.run_bind_get, if_neg hf]
    refine Eng.bind_error ?_
    rw [anticollRound, Eng.run_bind_atRule, Eng.run_bind_modify, Eng.run_bind_get]
    refine Eng.bind_error ?_
    rw [roundExchange, Eng.run_bind_atRule, Eng.run_bind_get, Eng.run_bind_modify]
    exact Eng.bind_error (regWrite_open _ _ (by exact h))

theorem select_invalid {kvb : Byte} (h : 80 < kvb.toNat) : (select kvb).run s = .ok .invalid s := by
  rw [select, if_pos (show kvb.toNat > kvbMax from h), Eng.run_pure]

end Sys2Proof.Machine
end

