-- ==== Sys2Proof/Tests/Slice0.lean ====
section
/-! SUPPORT. The tests: the checks of WellFormed refuse ill-formed terms; words written out from the spec's encodings decode;
single steps with the results that spec/95_test_vectors.md and the examples of the rules give; and for every statement a
state and operands that meet its hypotheses. `EE` stands for the bytes that come back in a write, which are ignored. -/

namespace Sys2Proof.Tests

set_option Elab.async false

open Sys2Proof.Machine

/-! ### Helpers -/

/-- The reset state with these answers of the PCD to come, and these of the time base. -/
def start (pcd : List Byte) (polls : List Nat) : State :=
  { State.reset with inp := { State.reset.inp with pcd := pcd, polls := polls } }

/-- The host's operand bytes. -/
def withTx (d : List Byte) (s : State) : State :=
  { s with hostBuf := { s.hostBuf with txb := writeAt s.hostBuf.txb 0 d, txLen := Fin.ofNat 66 d.length } }

/-- The transaction buffer's cursor and flags. -/
def withTxn (pos : Fin 66) (isOpen done : Bool) (s : State) : State :=
  { s with txn := { s.txn with pos := pos, isOpen := isOpen, done := done } }

/-- Bytes that come back in a write and are ignored. -/
def ee (n : Nat) : List Byte := List.replicate n 0xEE

/-- The answers to a `transceive` of `n` bytes, up to its poll loop: `framing` is what step 3 reads. -/
def setupAnswers (n : Nat) (framing : Byte) : List Byte := ee (6 + (n + 1) + 4) ++ [0, framing] ++ ee 2

/-- The answers after them: one poll with both flags, the error register, the FIFO level, the data, the bit count. -/
def replyAnswers (error : Byte) (d : List Byte) : List Byte :=
  [0, 0x30, 0, error, 0, BitVec.ofNat 8 d.length, 0] ++ d ++ [0, 0]

/-- The answers to a `compute_crc` over `n` bytes, done at the first poll. -/
def crcAnswers (n : Nat) (low high : Byte) : List Byte := ee (6 + (n + 1) + 2) ++ [0, 4] ++ ee 2 ++ [0, low, 0, high]

/-- The answers of one level without collision, nothing known: the five bytes `d`, the SAK. -/
def levelAnswers (d : List Byte) (sak : Byte) : List Byte :=
  ee 2 ++ setupAnswers 2 0 ++ replyAnswers 0 d ++ crcAnswers 7 0xB9 0x9C
    ++ ee 2 ++ setupAnswers 9 0 ++ replyAnswers 0 [sak, 0xB6, 0xDD] ++ crcAnswers 1 0xB6 0xDD

/-- What the PCD answers in V42-8: one card, no collision. -/
def cardAnswers : List Byte := levelAnswers [0xDE, 0xAD, 0xBE, 0xEF, 0x22] 0x08

/-- The next state of an instruction. -/
def after (i : Instr) (s : State) : State :=
  match exec i s with
  | .next t => t
  | .fault _ | .refused _ => s

/-- What was sent on the bus. -/
def sent (s : State) : List (List Byte) := s.out.bus.map Exchange.sent

/-- The state after a fatal failure. -/
def died : State := State.reset.fatalState .overflow

/-- The state with the scalars of a level. -/
def atLevel (kvb : Byte) (known : BitVec 6) (s : State) : State :=
  { s with sel := { s.sel with kvb := kvb, knownBits := known } }

/-! ### WellFormed -/

theorem test_wf_refuses_nvb_low : Instr.wf (.nvbAnticoll 1 0) = false := by decide

theorem test_wf_refuses_nvb_high : Instr.wf (.nvbAnticoll 6 0) = false := by decide

theorem test_wf_refuses_equal_commands :
    Config.codesDistinct { Config.mfrc522 with cmdMem := 0x0 } = false := by decide

theorem test_wf_refuses_equal_short_frames :
    Config.codesDistinct { Config.mfrc522 with piccWupa := 0x26 } = false := by decide

theorem test_wf_refuses_sel_like_tag :
    Config.codesDistinct { Config.mfrc522 with piccSelCl1 := 0x88 } = false := by decide

theorem test_wf_refuses_sel_like_nvb :
    Config.codesDistinct { Config.mfrc522 with piccSelCl2 := 0x41 } = false := by decide

theorem test_wf_refuses_equal_addresses :
    Config.addressesDistinct { Config.mfrc522 with aColl := 0x01 } = false := by decide

theorem test_wf_default : Config.mfrc522.wf = true := by decide

/-! ### Decoding: words written out from R91, R94, R96, R97, R99 and R106 -/

theorem test_decode_begin :
    decodeTableWord 32 0b00000_000000000000000000000000000 = some .beginTxn := by decide

theorem test_decode_write_byte :
    decodeTableWord 32 0b00001_0000000000000000000_10000010 = some (.writeByte 0x82) := by decide

theorem test_decode_write_bytes :
    decodeTableWord 32 0b00010_000000000000000000000000000 = some .writeBytes := by decide

theorem test_decode_end :
    decodeTableWord 32 0b00011_000000000000000000000000000 = some .endTxn := by decide

theorem test_decode_read_byte :
    decodeTableWord 32 0b00100_000000000000000000000000000 = some .readByte := by decide

theorem test_decode_read_bytes :
    decodeTableWord 32 0b00101_00000000000000000000_0000101 = some (.readBytes 5) := by decide

theorem test_decode_reg_read :
    decodeTableWord 32 0b01000_000000000000000000000_001110 = some (.regRead 0x0E) := by decide

theorem test_decode_reg_read_n :
    decodeTableWord 32 0b01001_000000000000_0000010_00_001001 = some (.regReadN 0x09 2) := by decide

theorem test_decode_reg_write :
    decodeTableWord 32 0b01010_00000000000_00000111_00_001101 = some (.regWrite 0x0D 0x07) := by decide

theorem test_decode_reg_write_n :
    decodeTableWord 32 0b01011_000000000000000000000_001001 = some (.regWriteN 0x09) := by decide

theorem test_decode_reg_set_bits :
    decodeTableWord 32 0b01100_00000000000_10000000_00_001101 = some (.regSetBits 0x0D 0x80) := by decide

theorem test_decode_reg_clear_bits :
    decodeTableWord 32 0b01101_00000000000_10000000_00_001110 = some (.regClearBits 0x0E 0x80) := by decide

theorem test_decode_compute_crc :
    decodeTableWord 32 0b10000_000000000000000000000000000 = some .computeCrc := by decide

theorem test_decode_communicate :
    decodeTableWord 32 0b10001_0000011_1_0_010_101_01000000_0100 = some (.communicate 0x4 0x40 5 2 false true 3) := by decide

theorem test_decode_transceive :
    decodeTableWord 32 0b10010_0000010_1_0_000_111_00000000_0000 = some (.transceive 7 0 false true 2) := by decide

theorem test_decode_request_or_wakeup :
    decodeTableWord 32 0b11000_00000000000000000000000000_1 = some (.requestOrWakeup true) := by decide

theorem test_decode_select :
    decodeTableWord 32 0b11001_0000000000000000000_01010000 = some (.select 80) := by decide

theorem test_decode_is_new_card_present :
    decodeTableWord 32 0b11010_000000000000000000000000000 = some .isNewCardPresent := by decide

theorem test_decode_read_card_uid :
    decodeTableWord 32 0b11011_000000000000000000000000000 = some .readCardUid := by decide

theorem test_decode_reset :
    decodeTableWord 32 0b11110_000000000000000000000000000 = some .reset := by decide

theorem test_decode_teardown :
    decodeTableWord 32 0b11111_000000000000000000000000000 = some .teardown := by decide

theorem test_decode_addr_read :
    decode Config.mfrc522 (.address 0b1_111111_0) = some (.addrRead 0x3F) := by decide

theorem test_decode_addr_write :
    decode Config.mfrc522 (.address 0b0_100010_0) = some (.addrWrite 0x22) := by decide

theorem test_decode_cmd_idle :
    decodeTableWord 8 0b0000_0000 = some .cmdIdle := by decide

theorem test_decode_cmd_mem :
    decodeTableWord 8 0b0000_0001 = some .cmdMem := by decide

theorem test_decode_cmd_genrandomid :
    decodeTableWord 8 0b0000_0010 = some .cmdGenRandomId := by decide

theorem test_decode_cmd_calccrc :
    decodeTableWord 8 0b0000_0011 = some .cmdCalcCrc := by decide

theorem test_decode_cmd_transmit :
    decodeTableWord 8 0b0000_0100 = some .cmdTransmit := by decide

theorem test_decode_cmd_nocmdchange :
    decodeTableWord 8 0b0000_0111 = some .cmdNoCmdChange := by decide

theorem test_decode_cmd_receive :
    decodeTableWord 8 0b0000_1000 = some .cmdReceive := by decide

theorem test_decode_cmd_transceive :
    decodeTableWord 8 0b0000_1100 = some .cmdTransceive := by decide

theorem test_decode_cmd_mfauthent :
    decodeTableWord 8 0b0000_1110 = some .cmdMfAuthent := by decide

theorem test_decode_cmd_softreset :
    decodeTableWord 8 0b0000_1111 = some .cmdSoftReset := by decide

theorem test_decode_reqa :
    decodeTableWord 8 0b0100110 = some .reqa := by decide

theorem test_decode_wupa :
    decodeTableWord 8 0b1010010 = some .wupa := by decide

theorem test_decode_sel_cl1 :
    decodeTableWord 8 0b10010011 = some .selCl1 := by decide

theorem test_decode_sel_cl2 :
    decodeTableWord 8 0b10010101 = some .selCl2 := by decide

theorem test_decode_sel_cl3 :
    decodeTableWord 8 0b10010111 = some .selCl3 := by decide

theorem test_decode_ct :
    decodeTableWord 8 0b10001000 = some .cascadeTag := by decide

theorem test_decode_nvb_full :
    decodeTableWord 8 0b01110000 = some .nvbFull := by decide

/-- The ends of the range that R99 gives, and the first byte beyond it. -/
theorem test_decode_nvb_range :
    decode Config.mfrc522 (.frame 0x20) = some (.nvbAnticoll 2 0) ∧ decode Config.mfrc522 (.frame 0x57) = some (.nvbAnticoll 5 7)
      ∧ decode Config.mfrc522 (.frame 0x60) = none ∧ decode Config.mfrc522 (.frame 0x67) = none := by decide

theorem test_decode_nvb_anticoll :
    decodeTableWord 8 0b0100_0_001 = some (.nvbAnticoll 4 1) := by decide

theorem test_decode_unassigned : decodeTableWord 32 0b00110_000000000000000000000000000 = none := by decide

theorem test_decode_odd_byte : decode Config.mfrc522 (.address 0b1_001110_1) = none := by decide

/-! ### Single steps -/

/-- V40-1 -/
theorem test_begin :
    (after .beginTxn State.reset).txn.pos = 0 ∧ (after .beginTxn State.reset).txn.isOpen = true := by
  decide +kernel

/-- V40-2 -/
theorem test_begin_twice :
    (after .beginTxn (after .beginTxn State.reset)).flags.fatalReason = .beginWhileOpen := by
  decide +kernel

/-- V40-8 -/
theorem test_write_byte_last :
    (after (.writeByte 0x7E) (withTxn 64 true false State.reset)).txn.pos = 65 := by
  decide +kernel

/-- V40-3 -/
theorem test_write_byte_closed :
    (after (.writeByte 0x9C) State.reset).flags.fatalReason = .writeWhileClosed := by
  decide +kernel

/-- R133 -/
theorem test_write_bytes :
    slice (after .writeBytes (withTx [0x93, 0x20] (withTxn 1 true false State.reset))).txn.wb 0 3 = [0, 0x93, 0x20] := by
  decide +kernel

/-- V40-10 -/
theorem test_end :
    sent (after .endTxn (after (.writeByte 0) (after (.writeByte 0x9C) (after .beginTxn (start [0x00, 0x11] []))))) = [[0x9C, 0x00]] := by
  decide +kernel

/-- V40-4 -/
theorem test_end_closed :
    (after .endTxn State.reset).flags.fatalReason = .endWhileClosed := by
  decide +kernel

/-- V40-10 -/
theorem test_read_byte :
    byteAt (after .readByte (State.exchanged [0x9C, 0x00] (start [0x00, 0x11] []))).hostBuf.rxb 0 = 0x11 := by
  decide +kernel

/-- V40-5 -/
theorem test_read_byte_early :
    (after .readByte State.reset).flags.fatalReason = .readBeforeEnd := by
  decide +kernel

/-- R136 -/
theorem test_read_bytes :
    slice (after (.readBytes 5) (State.exchanged [0, 0, 0, 0, 0, 0] (start [0x00, 0xDE, 0xAD, 0, 0, 0] []))).hostBuf.rxb 0 5
      = [0xDE, 0xAD, 0, 0, 0] := by
  decide +kernel

/-- V40-9 -/
theorem test_read_bytes_too_long :
    (after (.readBytes 3) (withTxn 2 false true State.reset)).flags.fatalReason = .readTooLong := by
  decide +kernel

/-- V40-11 -/
theorem test_reg_read :
    byteAt (after (.regRead 0x0E) (start [0x00, 0xA0] [])).hostBuf.rxb 0 = 0xA0
    ∧ sent (after (.regRead 0x0E) (start [0x00, 0xA0] [])) = [[0x9C, 0x00]] := by
  decide +kernel

/-- V40-20 -/
theorem test_reg_read_open :
    (after (.regRead 0x0E) (withTxn 0 true false State.reset)).flags.fatalReason = .beginWhileOpen := by
  decide +kernel

/-- V40-12 -/
theorem test_reg_read_n :
    slice (after (.regReadN 0x09 2) (start [0x00, 0x04, 0x00] [])).hostBuf.rxb 0 2 = [0x04, 0x00]
    ∧ sent (after (.regReadN 0x09 2) (start [0x00, 0x04, 0x00] [])) = [[0x92, 0x92, 0x00]] := by
  decide +kernel

/-- V40-14 -/
theorem test_reg_read_n_overflow :
    (after (.regReadN 0x09 65) State.reset).flags.fatalReason = .overflow := by
  decide +kernel

/-- V40-15 -/
theorem test_reg_write :
    sent (after (.regWrite 0x0D 0x07) (start [0xEE, 0xEE] [])) = [[0x1A, 0x07]] := by
  decide +kernel

/-- V40-16 -/
theorem test_reg_write_n :
    sent (after (.regWriteN 0x09) (withTx [0x93, 0x20] (start [0xEE, 0xEE, 0xEE] []))) = [[0x12, 0x93, 0x20]] := by
  decide +kernel

/-- V40-17 -/
theorem test_reg_set_bits :
    sent (after (.regSetBits 0x0D 0x80) (start [0x00, 0x07, 0xEE, 0xEE] [])) = [[0x9A, 0x00], [0x1A, 0x87]] := by
  decide +kernel

/-- V40-19 -/
theorem test_reg_clear_bits :
    sent (after (.regClearBits 0x0E 0x80) (start [0x00, 0xA0, 0xEE, 0xEE] [])) = [[0x9C, 0x00], [0x1C, 0x20]] := by
  decide +kernel

/-- V41-20 -/
theorem test_compute_crc :
    (after .computeCrc (withTx [0x08] (start (crcAnswers 1 0xB6 0xDD) [0]))).buf.crc = #v[0xB6, 0xDD]
    ∧ sent (after .computeCrc (withTx [0x08] (start (crcAnswers 1 0xB6 0xDD) [0])))
      = [[0x02, 0x00], [0x0A, 0x04], [0x14, 0x80], [0x12, 0x08], [0x02, 0x03],
        [0x8A, 0x00], [0x02, 0x00], [0xC4, 0x00], [0xC2, 0x00]] := by
  decide +kernel

/-- Program P4 -/
theorem test_compute_crc_timeout :
    (after .computeCrc (withTx [0x93, 0x70] (start (ee 11 ++ [0, 0, 0, 0, 0, 0]) [2]))).flags.outcome = .timeout := by
  decide +kernel

/-- V41-15 -/
theorem test_communicate_check_crc :
    (after (.communicate 0xC 0x30 0 0 true false 0) State.reset).flags.fatalReason = .unsupported := by
  decide +kernel

/-- V41-17 -/
theorem test_communicate_transmit :
    sent (after (.communicate 0x4 0x40 0 0 false false 0) (withTx [0xAA] (start (ee 12 ++ [0, 0x40, 0, 0]) [0])))
      = [[0x02, 0x00], [0x08, 0x7F], [0x14, 0x80], [0x12, 0xAA],
        [0x1A, 0x00], [0x02, 0x04], [0x88, 0x00], [0x8C, 0x00]] := by
  decide +kernel

/-- V41-11 -/
theorem test_transceive_collision :
    (after (.transceive 7 0 false true 2)
      (withTx [0x26] (start (setupAnswers 1 7 ++ replyAnswers 0x08 [0x04, 0x00]) [0]))).flags.outcome = .collision := by
  decide +kernel

/-- V41-10 -/
theorem test_transceive_no_room :
    (after (.transceive 7 0 false true 2)
      (withTx [0x26] (start (setupAnswers 1 7 ++ replyAnswers 0 [0, 0, 0]) [0]))).flags.outcome = .noRoom := by
  decide +kernel

/-- 2.3: `sel=1` sends `W[12 52]` -/
theorem test_request_sends_wupa :
    [0x12, 0x52] ∈ sent (after (.requestOrWakeup true) (start ([0, 0x80] ++ ee 2 ++ setupAnswers 1 7 ++ replyAnswers 0 [4, 0]) [0])) := by
  decide +kernel

/-- V42-11 -/
theorem test_request_short_reply :
    (after (.requestOrWakeup false) (start ([0, 0x80] ++ ee 2 ++ setupAnswers 1 7 ++ replyAnswers 0 [4]) [0])).flags.outcome = .error := by
  decide +kernel

/-- V42-1 -/
theorem test_select_out_of_range :
    after (.select 81) State.reset
    = { State.reset with flags := { State.reset.flags with outcome := .invalid } } := by
  decide +kernel

/-- V42-8 -/
theorem test_select_one_card :
    (after (.select 0) (start cardAnswers [0, 0, 0, 0])).uid = ⟨#v[0xDE, 0xAD, 0xBE, 0xEF, 0, 0, 0, 0, 0, 0], 4, 0x08⟩
    ∧ (sent (after (.select 0) (start cardAnswers [0, 0, 0, 0]))).length = 46 := by
  decide +kernel

/-- V42-8 with R227 -/
theorem test_read_card_uid :
    (after .readCardUid (start cardAnswers [0, 0, 0, 0])).flags = ⟨.ok, false, .none, true⟩ := by
  decide +kernel

/-- Program P1 -/
theorem test_is_new_card_present :
    (after .isNewCardPresent (start (ee 6 ++ [0, 0x80] ++ ee 2 ++ setupAnswers 1 7 ++ replyAnswers 0 [4, 0]) [0])).flags
      = ⟨.ok, false, .none, true⟩ := by
  decide +kernel

/-- R310, R311 -/
theorem test_reset_after_fatal :
    after .reset died = { State.reset with out := { State.reset.out with line := [false, true, false, true] } } := by
  decide +kernel

/-- R315 -/
theorem test_teardown :
    after .teardown State.reset = { State.reset with opState := .tornDown } := by
  decide +kernel

/-- S1 -/
theorem test_addr_read :
    slice (after (.addrRead 0x0E) (withTxn 0 true false State.reset)).txn.wb 0 2 = [0x9C, 0x00] := by
  decide +kernel

/-- S1 -/
theorem test_addr_write :
    slice (after (.addrWrite 0x3F) (withTxn 0 true false State.reset)).txn.wb 0 2 = [0x7E, 0x00] := by
  decide +kernel

/-- R32, R94 -/
theorem test_cmd_idle :
    sent (after .cmdIdle (start [0xEE, 0xEE] [])) = [[0x02, 0x00]] := by
  decide +kernel

/-- R32, R94 -/
theorem test_cmd_mem :
    sent (after .cmdMem (start [0xEE, 0xEE] [])) = [[0x02, 0x01]] := by
  decide +kernel

/-- R32, R94 -/
theorem test_cmd_genrandomid :
    sent (after .cmdGenRandomId (start [0xEE, 0xEE] [])) = [[0x02, 0x02]] := by
  decide +kernel

/-- R32, R94 -/
theorem test_cmd_calccrc :
    sent (after .cmdCalcCrc (start [0xEE, 0xEE] [])) = [[0x02, 0x03]] := by
  decide +kernel

/-- R32, R94 -/
theorem test_cmd_transmit :
    sent (after .cmdTransmit (start [0xEE, 0xEE] [])) = [[0x02, 0x04]] := by
  decide +kernel

/-- R32, R94 -/
theorem test_cmd_nocmd_change :
    sent (after .cmdNoCmdChange (start [0xEE, 0xEE] [])) = [[0x02, 0x07]] := by
  decide +kernel

/-- R32, R94 -/
theorem test_cmd_receive :
    sent (after .cmdReceive (start [0xEE, 0xEE] [])) = [[0x02, 0x08]] := by
  decide +kernel

/-- R32, R94 -/
theorem test_cmd_transceive :
    sent (after .cmdTransceive (start [0xEE, 0xEE] [])) = [[0x02, 0x0C]] := by
  decide +kernel

/-- R32, R94 -/
theorem test_cmd_mfauthent :
    sent (after .cmdMfAuthent (start [0xEE, 0xEE] [])) = [[0x02, 0x0E]] := by
  decide +kernel

/-- R32, R94 -/
theorem test_cmd_softreset :
    sent (after .cmdSoftReset (start [0xEE, 0xEE] [])) = [[0x02, 0x0F]] := by
  decide +kernel

/-- R101, R202 -/
theorem test_reqa :
    [0x12, 0x26] ∈ sent (after .reqa (start (setupAnswers 1 7 ++ replyAnswers 0 [4, 0]) [0]))
    ∧ (after .reqa (start (setupAnswers 1 7 ++ replyAnswers 0 [4, 0]) [0])).buf.atqa = #v[0x04, 0x00] := by
  decide +kernel

/-- R101, R202 -/
theorem test_wupa :
    [0x12, 0x52] ∈ sent (after .wupa (start (setupAnswers 1 7 ++ replyAnswers 0 [4, 0]) [0])) := by
  decide +kernel

/-- R100 -/
theorem test_selcl1 :
    byteAt (after .selCl1 State.reset).buf.fb 0 = 0x93 := by
  decide +kernel

/-- R100 -/
theorem test_selcl2 :
    byteAt (after .selCl2 State.reset).buf.fb 0 = 0x95 := by
  decide +kernel

/-- R100 -/
theorem test_selcl3 :
    byteAt (after .selCl3 State.reset).buf.fb 0 = 0x97 := by
  decide +kernel

/-- R100 -/
theorem test_cascadetag :
    byteAt (after .cascadeTag State.reset).buf.fb 2 = 0x88 := by
  decide +kernel

/-- R100 -/
theorem test_nvbfull :
    byteAt (after .nvbFull State.reset).buf.fb 1 = 0x70 := by
  decide +kernel

/-- R99: `known_bits` 31 -/
theorem test_nvb_anticoll :
    byteAt (after (.nvbAnticoll 5 7) State.reset).buf.fb 1 = 0x57 := by
  decide +kernel

/-- V40-21 -/
theorem test_unassigned_request :
    step (State.reset.withFetchWord 32 0x30000000)
    = .next { State.reset with flags := { State.reset.flags with outcome := .invalid } } := by
  exact congrArg Host.Outcome.next (by decide +kernel : invalidRequest State.reset = _)

/-- S3 -/
theorem test_merge :
    merge 0x01 0xBE 1 = 0xBF ∧ merge 0x7F 0x00 7 = 0x7F := by
  decide

/-- R256: position 17 -/
theorem test_collision_first :
    (narrow 17 State.reset).buf.fb = #v[0, 0, 0, 0, 0x01, 0, 0, 0, 0] := by
  decide +kernel

/-- 2.3: `kvb` 60, level 3 -/
theorem test_level_three_claim :
    levelFrame Config.mfrc522 #v[0x04, 0xA1, 0xB2, 0xC3, 0xD4, 0xE5, 0xF6, 0x17, 0x28, 0x39]
      (Vector.replicate 9 0) 3 60 = #v[0x97, 0, 0xF6, 0x07, 0, 0, 0, 0, 0] := by
  decide +kernel

/-! ### Witnesses: for each statement that has hypotheses, states and operands that meet them, at the ends of their ranges -/

/-- Operand bytes, as many as asked. -/
def withLength (n : Nat) (s : State) : State := withTx (List.replicate n 0x55) s

/-- A state in which an operation has begun. -/
def busy : State := { State.reset with opState := .busy .readCardUid 206 }

/-- A state after teardown. -/
def tornDown : State := { State.reset with opState := .tornDown }

/-- A state with the host about to do this. -/
def asks (a : HostAction) (s : State) : State := s.pushHost a

/-- Three levels: 3 + 3 + 4 UID bytes (program P8's card, asked with nothing known). -/
def threeLevels : State :=
  start (levelAnswers [0x88, 0x04, 0xA1, 0xB2, 0x9F] 0x04 ++ levelAnswers [0x88, 0xC3, 0xD4, 0xE5, 0x7A] 0x04
    ++ levelAnswers [0xF6, 0x17, 0x28, 0x39, 0xF0] 0x20) [0, 0, 0, 0, 0, 0, 0, 0, 0, 0, 0, 0]

/-- Three levels, and the cascade bit in the SAK of the third. -/
def fourLevels : State :=
  start (levelAnswers [0x88, 0x04, 0xA1, 0xB2, 0x9F] 0x04 ++ levelAnswers [0x88, 0xC3, 0xD4, 0xE5, 0x7A] 0x04
    ++ levelAnswers [0xF6, 0x17, 0x28, 0x39, 0xF0] 0x04) [0, 0, 0, 0, 0, 0, 0, 0, 0, 0, 0, 0]

/-- An anti-collision round with nothing known, of which the PCD says this error byte; then the collision register. -/
def atRound (error coll : Byte) : State :=
  atLevel 0 0 (start (ee 2 ++ setupAnswers 2 0 ++ replyAnswers error [0xDE, 0xAD, 0xBE, 0xEF, 0x22] ++ [0, coll]) [0])

/-- A full-select round, likewise. -/
def atFull (error coll : Byte) : State :=
  atLevel 0 32 (start (crcAnswers 7 0xB9 0x9C ++ ee 2 ++ setupAnswers 9 0 ++ replyAnswers error [0x08, 0xB6, 0xDD] ++ [0, coll])
    [0, 0])

/-- One level, of which the PCD computes another CRC of the SAK than the card sent. -/
def wrongCrc : State :=
  start (ee 2 ++ setupAnswers 2 0 ++ replyAnswers 0 [0xDE, 0xAD, 0xBE, 0xEF, 0x22] ++ crcAnswers 7 0xB9 0x9C
    ++ ee 2 ++ setupAnswers 9 0 ++ replyAnswers 0 [0x08, 0xB6, 0xDD] ++ crcAnswers 1 0xB6 0xDC) [0, 0, 0, 0]

/-- A response of so many bytes and bits, with the CRC of its first byte to come. -/
def response (bytes : BitVec 7) (bits : BitVec 3) : State :=
  let s := start (crcAnswers 1 0xB6 0xDD) [0]
  { s with buf := { s.buf with rsp := #v[0x08, 0xB6, 0xDD] }, com := { s.com with bytesWritten := bytes, validBits := bits } }

/-- What a part of `select` ended with. -/
def ended (m : Eng (Option OpOutcome)) (s : State) : Option (Option OpOutcome) :=
  match m.run s with
  | .ok o _ => some o
  | .error _ _ => none

/-- Two levels: 3 + 4 UID bytes. -/
def twoLevels : State :=
  start (levelAnswers [0x88, 0x04, 0xA1, 0xB2, 0x9F] 0x04 ++ levelAnswers [0xF6, 0x17, 0x28, 0x39, 0xF0] 0x08)
    [0, 0, 0, 0, 0, 0, 0, 0]

/-- One level, no collision: V42-8. -/
def oneLevel : State := start cardAnswers [0, 0, 0, 0]

/-- A cascade tag in the frame, and a SAK that ends the cascade at level 1. -/
def tagThenDone : State := start (levelAnswers [0x88, 0x04, 0xA1, 0xB2, 0x9F] 0x08) [0, 0, 0, 0]

/-- No reply to the first anti-collision frame. -/
def noCard : State := start (ee 2 ++ setupAnswers 2 0 ++ [0, 0]) [0]

theorem witness_DecodeEncodeRoundTrip :
    Config.mfrc522.codesDistinct = true ∧ Instr.wf (.nvbAnticoll 2 0) = true ∧ Instr.wf (.nvbAnticoll 5 7) = true
      ∧ Instr.wf (.communicate 0xF 0xFF 7 7 true true 127) = true := by decide

theorem witness_EncodeDecodeRoundTrip :
    decode Config.mfrc522 (.host 0xC8FFFF51) = some (.select 0x51) ∧ decode Config.mfrc522 (.frame 0x57) = some (.nvbAnticoll 5 7)
      ∧ decode Config.mfrc522 (.address 0xFE) = some (.addrRead 63) ∧ decode Config.mfrc522 (.command 0x0F) = some .cmdSoftReset
      ∧ decode Config.mfrc522 (.short 0x26) = some .reqa := by decide

theorem witness_UnusedOperandBitsAreIgnored :
    (0x7FFFFFF#27) &&& operandMask 0x1B = 0#27 &&& operandMask 0x1B
      ∧ (0x7FFFF3F#27) &&& operandMask 0x08 = 0x3F#27 &&& operandMask 0x08 := by decide

theorem witness_StepRunsTheDecodedInstruction :
    (asks (.issue (.host 0xC8000050)) oneLevel).inp.host = .issue (.host 0xC8000050) :: []
      ∧ decode (asks (.issue (.host 0xC8000050)) oneLevel).cfg (.host 0xC8000050) = some (.select 80) := by decide

theorem witness_NothingWithoutARequest : State.reset.inp.host = [] := rfl

theorem witness_FetchWordRuns :
    State.reset.cfg = Config.mfrc522 ∧ decodeTableWord 32 0xF8000000 = some .teardown
      ∧ decodeTableWord 8 0x51 = some (.nvbAnticoll 5 1) := by decide

theorem witness_EveryRequestHasAStep :
    (asks (.issue (.host 0x37FFFFFF)) busy).inp.host = .issue (.host 0x37FFFFFF) :: [] := rfl

theorem witness_OnlyUnknownBytesAreRefused :
    step (asks (.issue (.command 0x05)) State.reset) = .refused .noSuchCode := by rfl

theorem witness_HostWritesInIdle :
    State.reset.opState = .idle
      ∧ [HostWrite.uidByte 0 0xFF, .uidByte 9 0xFF, .uidSize 15, .uidSak 0xFF, .txByte 64 0xFF, .txLen 65, .rxByte 64 0xFF].all
        (fun w => (asks (.write w) State.reset).inp.host = [.write w]) = true := by decide +kernel

theorem witness_HostWritesOnlyInIdle :
    died.opState ≠ .idle ∧ tornDown.opState ≠ .idle ∧ busy.opState ≠ .idle
      ∧ (asks (.write (.txLen 65)) died).inp.host = [.write (.txLen 65)] := by decide +kernel

theorem witness_RequestsOnlyInIdle :
    died.opState ≠ .idle ∧ tornDown.opState ≠ .idle ∧ busy.opState ≠ .idle ∧ Instr.teardown ≠ .reset := by decide

theorem witness_InvalidRequests :
    State.reset.opState = .idle ∧ 80 < (81#8).toNat ∧ 80 < (255#8).toNat
      ∧ (0x06#5).toNat ∈ unassignedOps ∧ (0x1D#5).toNat ∈ unassignedOps
      ∧ (asks (.issue (.host (hostWord 0x06 0))) State.reset).inp.host = [.issue (.host (hostWord 0x06 0))] := by decide

theorem witness_ResetValues :
    State.reset.opState = .idle ∧ died.opState = .fatal ∧ tornDown.opState = .tornDown := ⟨rfl, rfl, rfl⟩

theorem witness_ResetPulse :
    State.reset.opState = .idle ∧ died.opState = .fatal ∧ tornDown.opState = .tornDown
      ∧ busy.opState = .busy .readCardUid 206 := ⟨rfl, rfl, rfl, rfl⟩

theorem witness_Teardown :
    State.reset.opState = .idle ∧ tornDown.opState = .tornDown
      ∧ (asks (.issue (.host 0xD8000000)) tornDown).inp.host = [.issue (.host 0xD8000000)]
      ∧ decode tornDown.cfg (.host 0xD8000000) ≠ some .reset
      ∧ decode tornDown.cfg (.host 0x30000000) ≠ some .reset := by decide

theorem witness_BeginOpensATransaction :
    State.reset.opState = .idle ∧ (withTxn 65 true false State.reset).opState = .idle := ⟨rfl, rfl⟩

theorem witness_WriteByteAppends :
    let s := fun p o => withTxn p o false State.reset
    (∀ p o, (s p o).opState = .idle) ∧ (s 0 false).txn.isOpen = false
      ∧ (s 65 true).txn.isOpen = true ∧ (s 65 true).txn.pos.val = 65
      ∧ (s 0 true).txn.pos.val < 65 ∧ (s 64 true).txn.isOpen = true ∧ (s 64 true).txn.pos.val < 65 :=
  ⟨fun _ _ => rfl, rfl, rfl, rfl, by decide, rfl, by decide⟩

theorem witness_WriteBytesAppends :
    let s := fun n p o => withLength n (withTxn p o false State.reset)
    (s 1 65 true).opState = .idle ∧ (s 1 0 false).txn.isOpen = false ∧ (s 1 65 true).txn.isOpen = true
      ∧ 65 < (s 1 65 true).txn.pos.val + (s 1 65 true).hostBuf.txLen.val
      ∧ (s 65 0 true).txn.pos.val + (s 65 0 true).hostBuf.txLen.val ≤ 65
      ∧ (s 1 64 true).txn.pos.val + (s 1 64 true).hostBuf.txLen.val ≤ 65
      ∧ (s 0 65 true).txn.pos.val + (s 0 65 true).hostBuf.txLen.val ≤ 65 := by decide +kernel

theorem witness_EndMakesOneExchange :
    State.reset.opState = .idle ∧ State.reset.txn.isOpen = false
      ∧ (withTxn 0 true false State.reset).txn.isOpen = true ∧ (withTxn 65 true false State.reset).txn.isOpen = true := by decide

theorem witness_ReadByteReadsTheLast :
    let s := fun p d => withTxn p false d State.reset
    (∀ p d, (s p d).opState = .idle) ∧ (s 1 false).txn.done = false ∧ (s 0 true).txn.done = true
      ∧ (s 0 true).txn.pos.val = 0 ∧ 1 ≤ (s 1 true).txn.pos.val ∧ 1 ≤ (s 65 true).txn.pos.val :=
  ⟨fun _ _ => rfl, rfl, rfl, rfl, by decide, by decide⟩

theorem witness_ReadBytesReadsTheTail :
    let s := fun p d => withTxn p false d State.reset
    (∀ p d, (s p d).opState = .idle) ∧ (s 1 false).txn.done = false ∧ (s 2 true).txn.done = true
      ∧ (s 2 true).txn.pos.val < (3#7).toNat ∧ (2#7).toNat ≤ (s 2 true).txn.pos.val ∧ (0#7).toNat ≤ (s 0 true).txn.pos.val
      ∧ (65#7).toNat ≤ (s 65 true).txn.pos.val :=
  ⟨fun _ _ => rfl, rfl, rfl, by decide, by decide, by decide, by decide⟩

theorem witness_EchoRoundTrip :
    let s := withLength 65 (start (List.replicate 65 0x55) [])
    Ready s ∧ Ready State.reset ∧ s.hostBuf.txLen.val = 65 ∧ s.inp.answer (txData s).length = txData s
      ∧ State.reset.inp.answer (txData State.reset).length = txData State.reset :=
  ⟨⟨rfl, rfl⟩, ⟨rfl, rfl⟩, by decide +kernel, by decide +kernel, by decide +kernel⟩

theorem witness_FatalFailure :
    State.reset.opState = .idle ∧ exec (.writeByte 0) State.reset = .next (after (.writeByte 0) State.reset)
      ∧ (after (.writeByte 0) State.reset).opState = .fatal := ⟨rfl, rfl, by decide +kernel⟩

theorem witness_RegisterReads :
    Ready State.reset ∧ 1 ≤ (1#7).toNat ∧ (64#7).toNat ≤ 64 ∧ 64 < (65#7).toNat ∧ 64 < (127#7).toNat
      ∧ (withTxn 0 true false State.reset).opState = .idle ∧ (withTxn 0 true false State.reset).txn.isOpen = true :=
  ⟨⟨rfl, rfl⟩, by decide, by decide, by decide, by decide, rfl, rfl⟩

theorem witness_RegisterWrites :
    Ready (withLength 1 State.reset) ∧ (withLength 1 State.reset).hostBuf.txLen.val = 1
      ∧ Ready (withLength 64 State.reset) ∧ (withLength 64 State.reset).hostBuf.txLen.val = 64
      ∧ State.reset.hostBuf.txLen.val = 0 ∧ 64 < (withLength 65 State.reset).hostBuf.txLen.val
      ∧ (withLength 64 (withTxn 0 true false State.reset)).txn.isOpen = true :=
  ⟨⟨rfl, rfl⟩, by decide, ⟨rfl, rfl⟩, by decide, rfl, by decide, rfl⟩

theorem witness_RegisterModifies :
    Ready State.reset ∧ (withTxn 65 true false State.reset).opState = .idle
      ∧ (withTxn 65 true false State.reset).txn.isOpen = true := ⟨⟨rfl, rfl⟩, rfl, rfl⟩

theorem witness_OpenTransactionIsFatal :
    let s := withLength 64 (withTxn 0 true false State.reset)
    s.opState = .idle ∧ s.txn.isOpen = true ∧ ReachesTransport (.regReadN 0x3F 1) s ∧ ReachesTransport (.regReadN 0x3F 64) s
      ∧ ReachesTransport (.regWriteN 0x3F) s ∧ ReachesTransport (.communicate 0 0 0 0 false false 0) s
      ∧ ReachesTransport (.select 80) s ∧ ReachesTransport .computeCrc s ∧ ReachesTransport .isNewCardPresent s :=
  ⟨rfl, rfl, ⟨by decide, by decide⟩, ⟨by decide, by decide⟩, ⟨by decide +kernel, by decide +kernel⟩, ⟨rfl, by decide +kernel⟩,
    by show (80#8).toNat ≤ 80; decide, by show _ ≤ 64; decide +kernel, trivial⟩

theorem witness_ComputeCrcCompletes :
    Ready State.reset ∧ State.reset.hostBuf.txLen.val ≤ 64 ∧ Ready (withLength 64 State.reset)
      ∧ (withLength 64 State.reset).hostBuf.txLen.val ≤ 64 ∧ 64 < (withLength 65 State.reset).hostBuf.txLen.val :=
  ⟨⟨rfl, rfl⟩, by decide, ⟨rfl, rfl⟩, by decide, by decide⟩

/-- Nothing to send; one poll, no error, this FIFO level. -/
def fifoLevel (level : Byte) : State := start (ee 10 ++ [0, 0] ++ ee 2 ++ [0, 0x30, 0, 0, 0, level]) [0]

/-- A host capacity of 65: at a FIFO level of 65 it dies, at 64 it returns. -/
theorem witness_CommunicateOverflow :
    (after (.communicate 0xC 0x30 0 0 false true 65) (fifoLevel 65)).flags.fatalReason = .overflow
      ∧ (after (.communicate 0xC 0x30 0 0 false true 65) (fifoLevel 64)).flags.outcome = .ok := by decide +kernel

theorem witness_CommunicateCompletes :
    Ready State.reset ∧ State.reset.hostBuf.txLen.val ≤ 64 ∧ (withLength 64 State.reset).hostBuf.txLen.val ≤ 64
      ∧ (64#7).toNat ≤ 64 := ⟨⟨rfl, rfl⟩, by decide, by decide, by decide⟩

theorem witness_TransceiveCompletes :
    Ready (withLength 64 State.reset) ∧ (withLength 64 State.reset).hostBuf.txLen.val ≤ 64 ∧ (64#7).toNat ≤ 64 :=
  ⟨⟨rfl, rfl⟩, by decide, by decide⟩

theorem witness_CommunicateEntryChecks :
    (withLength 65 State.reset).opState = .idle ∧ 64 < (withLength 65 State.reset).hostBuf.txLen.val := ⟨rfl, by decide⟩

theorem witness_MergeLaw : 7 < 8 ∧ (merge 0x7F 0x00 7).getLsbD 7 = false ∧ (merge 0x01 0xBE 1).getLsbD 0 = true := by decide

theorem witness_ReceiveBufferTail :
    let s := withTx [0x26] (start (setupAnswers 1 7 ++ replyAnswers 0 [0x04, 0x00]) [0])
    Ready s ∧ exec (.transceive 7 0 false true 2) s = .next (after (.transceive 7 0 false true 2) s)
      ∧ (after (.transceive 7 0 false true 2) s).com.bytesWritten.toNat ≤ 2
      ∧ exec (.communicate 0xC 0x30 7 0 false true 2) s = .next (after (.communicate 0xC 0x30 7 0 false true 2) s) :=
  ⟨⟨rfl, rfl⟩, rfl, by decide +kernel, rfl⟩

theorem witness_RequestCompletes : Ready State.reset := ⟨rfl, rfl⟩

theorem witness_IsNewCardPresentCompletes : Ready State.reset := ⟨rfl, rfl⟩

theorem witness_ShortFrameCodes : Ready State.reset := ⟨rfl, rfl⟩

theorem witness_SelectCompletes :
    RunsSelect (.select 80) 80 ∧ RunsSelect (.select 0) 0 ∧ RunsSelect .readCardUid 0 ∧ Ready State.reset :=
  ⟨.inl ⟨rfl, by decide⟩, .inl ⟨rfl, by decide⟩, .inr ⟨rfl, rfl⟩, ⟨rfl, rfl⟩⟩

/-- Three levels without a tag at the last; the tag at a level that ends the cascade; no tag at a level that does; and three completed
levels when level 4 is asked for. -/
theorem witness_SelectRecordsTheUid :
    Ready threeLevels ∧ exec .readCardUid threeLevels = .next (after .readCardUid threeLevels)
      ∧ (after .readCardUid threeLevels).flags.outcome = .ok ∧ (after .readCardUid threeLevels).sel.level.toNat = 3
      ∧ exec (.select 0) tagThenDone = .next (after (.select 0) tagThenDone)
      ∧ (after (.select 0) tagThenDone).flags.outcome = .ok ∧ (after (.select 0) tagThenDone).sel.level.toNat < 3
      ∧ byteAt (after (.select 0) tagThenDone).buf.fb 2 = 0x88
      ∧ (after (.select 0) oneLevel).flags.outcome = .ok ∧ byteAt (after (.select 0) oneLevel).buf.fb 2 ≠ 0x88
      ∧ (after (.select 0) fourLevels).flags.outcome = .internalError ∧ (after (.select 0) fourLevels).sel.level.toNat = 4 :=
  ⟨⟨rfl, rfl⟩, rfl, by decide +kernel, by decide +kernel, rfl, by decide +kernel, by decide +kernel, by decide +kernel,
    by decide +kernel, by decide +kernel, by decide +kernel, by decide +kernel⟩

theorem witness_SelectFailureKeepsSizeAndSak :
    Ready noCard ∧ exec (.select 0) noCard = .next (after (.select 0) noCard)
      ∧ (after (.select 0) noCard).flags.outcome ≠ .ok ∧ 3 * (after (.select 0) noCard).sel.level.toNat + 1 ≤ 4
      ∧ 3 * (after .readCardUid threeLevels).sel.level.toNat + 1 ≤ 10 :=
  ⟨⟨rfl, rfl⟩, rfl, by decide +kernel, by decide +kernel, by decide +kernel⟩

theorem witness_SelectVerifiesTheResponse :
    RunsSelect (.select 0) 0 ∧ Ready oneLevel ∧ exec (.select 0) oneLevel = .next (after (.select 0) oneLevel)
      ∧ (after (.select 0) oneLevel).flags.outcome = .ok ∧ (after (.select 0) wrongCrc).flags.outcome = .crcMismatch
      ∧ (after (.select 0) fourLevels).sel.level = 4 :=
  ⟨.inl ⟨rfl, by decide⟩, ⟨rfl, rfl⟩, rfl, by decide +kernel, by decide +kernel, by decide +kernel⟩

/-- Two bytes, three bytes with a bit more, and three whole bytes with each end of the CRC. -/
theorem witness_SelectVerifiesTheResponse_alone :
    (response 3 0).txn.isOpen = false ∧ (response 2 0).com.bytesWritten ≠ 3 ∧ (response 3 1).com.validBits ≠ 0
      ∧ ended verifyResponse (response 2 0) = some (some .internalError)
      ∧ ended verifyResponse (response 3 1) = some (some .internalError)
      ∧ (response 3 0).com.bytesWritten = 3 ∧ (response 3 0).com.validBits = 0
      ∧ ended verifyResponse (response 3 0) = some none
      ∧ ended verifyResponse { response 3 0 with inp := (start (crcAnswers 1 0xB6 0xDC) [0]).inp } = some (some .crcMismatch)
      ∧ ended verifyResponse { response 3 0 with inp := (start (ee 10 ++ [0, 0]) [0]).inp } = some (some .timeout) := by
  decide +kernel

theorem witness_SelectSendsTheFullFrame :
    (after (.select 0) oneLevel).flags.outcome = .ok ∧ (after (.select 0) oneLevel).sel.level = 1
      ∧ (after (.select 0) twoLevels).flags.outcome = .ok ∧ (after (.select 0) twoLevels).sel.level = 2
      ∧ (after (.select 0) threeLevels).flags.outcome = .ok ∧ (after (.select 0) threeLevels).sel.level = 3 := by decide +kernel

theorem witness_SelectIsBounded : RunsSelect (.select 80) 80 ∧ RunsSelect .readCardUid 0 ∧ Ready State.reset :=
  ⟨.inl ⟨rfl, by decide⟩, .inr ⟨rfl, rfl⟩, ⟨rfl, rfl⟩⟩

theorem witness_ReadCardUidSaysPresent :
    Ready oneLevel ∧ exec (.select 81) oneLevel = .next (after (.select 81) oneLevel)
      ∧ exec (.select 0) oneLevel = .next (after (.select 0) oneLevel) := ⟨⟨rfl, rfl⟩, rfl, rfl⟩

/-- Levels 1 to 3 at the claims where the tag (33 bits, 57 bits) and the level's capacity begin. -/
theorem witness_LevelStart :
    let kvb := fun k => (atLevel k 0 State.reset).sel.kvb.toNat
    kvb 0 ≤ 80 ∧ kvb 80 ≤ 80 ∧ usesCascadeTag 1 (kvb 32) = false ∧ usesCascadeTag 1 (kvb 33) = true
      ∧ usesCascadeTag 2 (kvb 56) = false ∧ usesCascadeTag 2 (kvb 57) = true ∧ usesCascadeTag 3 (kvb 80) = false := by decide +kernel

theorem witness_RoundFrames :
    (atLevel 0 0 State.reset).sel.knownBits.toNat < 32 ∧ (atLevel 0 31 State.reset).sel.knownBits.toNat < 32 := by decide +kernel

/-- The three branches of the collision step: position unknown, a position not above the known bits, a position above them;
and the field 0, which is position 32. -/
theorem witness_CollisionStep :
    State.reset.txn.isOpen = false ∧ (0x3F#8) &&& 0x20 ≠ 0 ∧ collPosition 0x09 ≤ (atLevel 0 9 State.reset).sel.knownBits.toNat
      ∧ ¬ collPosition 0x0A ≤ (atLevel 0 9 State.reset).sel.knownBits.toNat
      ∧ ¬ collPosition 0x00 ≤ (atLevel 0 31 State.reset).sel.knownBits.toNat := by decide +kernel

theorem witness_NarrowSetsOneBit :
    (1 ≤ 1 ∧ 1 ≤ 32) ∧ (1 ≤ 32 ∧ 32 ≤ 32) ∧ levelBit (narrow 1 State.reset).buf.fb 1 = true
      ∧ levelBit (narrow 32 State.reset).buf.fb 32 = true ∧ levelBit (narrow 32 State.reset).buf.fb 31 = false := by decide +kernel

theorem witness_AddressCodesAppend :
    let s := fun p o => withTxn p o false State.reset
    (s 0 true).opState = .idle ∧ (encodeRead 63).toNat = 2 * (63#6).toNat + 128 ∧ (encodeWrite 0).toNat = 2 * (0#6).toNat
      ∧ (s 0 false).txn.isOpen = false ∧ (s 65 true).txn.pos.val = 65 ∧ (s 64 true).txn.isOpen = true
      ∧ (s 64 true).txn.pos.val < 65 := by decide +kernel

theorem witness_CommandCodesWriteTheRegister :
    commandOpcode Config.mfrc522 .cmdIdle = some 0 ∧ commandOpcode Config.mfrc522 .cmdSoftReset = some 0xF ∧ Ready State.reset
      ∧ (withTxn 0 true false State.reset).txn.isOpen = true := ⟨rfl, rfl, ⟨rfl, rfl⟩, rfl⟩

theorem witness_FrameCodesWriteTheFrame :
    State.reset.opState = .idle ∧ frameByte Config.mfrc522 .selCl3 = some (0, 0x97)
      ∧ frameByte Config.mfrc522 .cascadeTag = some (2, 0x88)
      ∧ frameByte Config.mfrc522 (.nvbAnticoll 5 7) = some (1, 0x57) := by decide

theorem witness_EveryInstructionKeepsTheRest :
    exec .readCardUid oneLevel = .next (after .readCardUid oneLevel) ∧ Group.atqa ∉ writes .readCardUid := ⟨rfl, by decide⟩

theorem witness_StepKeepsTheHistory :
    step (asks (.issue (.host 0xC8000000)) oneLevel) = .next (after (.select 0) oneLevel) := by rfl

/-- A transaction left open, a byte in it. -/
theorem witness_StepKeepsTheInvariant :
    Inv (withTxn 1 true false State.reset) ∧ step (withTxn 1 true false State.reset) = .next (withTxn 1 true false State.reset) :=
  ⟨{ openNotDone := by decide, notBusy := fun i r h => (by cases h), fatalState := by decide, fatalReason := by decide,
     noMifareNack := by decide, knownBits := by decide, level := by decide, off := by decide, idx := by decide,
     sendLen := by decide, collPos := by decide,
     bytesWritten := by decide, bitFraming := by decide, budget := by decide, lineHigh := rfl, bus := by decide,
     budgets := by decide }, rfl⟩

/-- Nothing known and 31 bits known; and each of the three ends of the round. -/
theorem witness_AnticollisionRound :
    State.reset.txn.isOpen = false ∧ (atLevel 0 0 State.reset).sel.knownBits.toNat < 32
      ∧ (atLevel 0 31 State.reset).sel.knownBits.toNat < 32 ∧ ended anticollRound (atRound 0 0) = some none
      ∧ ended anticollRound (atRound 0x08 0x20) = some (some .collision)
      ∧ ended anticollRound (atRound 0x01 0) = some (some .error) := by decide +kernel

/-- Each end of the round: the response, a collision of unknown position, a collision whose position is not above 32, an error, and
a `Timeout` of the CRC. -/
theorem witness_FullSelectRound :
    (atFull 0 0).txn.isOpen = false ∧ (atFull 0 0).sel.knownBits = 32 ∧ ended fullRound (atFull 0 0) = some none
      ∧ ended fullRound (atFull 0x08 0x20) = some (some .collision)
      ∧ ended fullRound (atFull 0x08 0x1F) = some (some .internalError)
      ∧ ended fullRound (atFull 0x01 0) = some (some .error)
      ∧ ended fullRound (atLevel 0 32 (start (ee 16 ++ [0, 0]) [0])) = some (some .timeout) := by decide +kernel

end Sys2Proof.Tests
end

section
namespace Sys2Proof.Machine

/-! ### The host's queue and the step -/

/-- Taking the host's next action leaves the queue's rest at the host port. -/
theorem State.popHost_of_host_cons {s : State} {a : HostAction} {rest : List HostAction} (hq : s.inp.host = a :: rest) :
    s.popHost = { s with inp := { s.inp with host := rest } } := by
  rw [State.popHost, hq, List.tail_cons]

/-- The step's case of an issued code that decodes (R6, R106). -/
theorem step_of_issue_decode {s : State} {k : Code} {rest : List HostAction} {i : Instr}
    (hq : s.inp.host = .issue k :: rest) (hd : decode s.cfg k = some i) : step s = exec i s.popHost := by
  simp only [step, hq, hd]

/-- Settles O8: the step's case of an issued code that decodes, and what taking that code leaves of the state. -/
theorem stepRunsTheDecodedInstruction : Obligations.StepRunsTheDecodedInstruction := by
  intro s k rest i hq hd
  rw [step_of_issue_decode hq hd, State.popHost_of_host_cons hq]

end Sys2Proof.Machine
end

section
namespace Sys2Proof.Machine
variable {s t : State}

/-! ### The host's register writes -/

/-- The step's case of a register write of the host (R6, R318). -/
theorem step_of_write {w : HostWrite} {rest : List HostAction} (hq : s.inp.host = .write w :: rest) :
    step s = .next (hostWrite w { s with inp := { s.inp with host := rest } }) := by
  rw [← State.popHost_of_host_cons hq]
  simp only [step, hq]

theorem hostWrite_notIdle (w : HostWrite) (h : s.opState ≠ .idle) : hostWrite w s = s := if_neg h

/-- Settles O13: in IDLE the write is accepted, and each of the six writes is an update of its own register. -/
theorem hostWritesInIdle : Obligations.HostWritesInIdle := by
  intro s w rest hi hq
  rw [step_of_write hq]
  cases w <;> exact congrArg Host.Outcome.next (if_pos hi)

/-- Settles O14: the write is taken from the queue and, outside IDLE, not accepted. -/
theorem hostWritesOnlyInIdle : Obligations.HostWritesOnlyInIdle := by
  intro s w rest hi hq
  rw [step_of_write hq, hostWrite_notIdle w (by exact hi)]

/-! ### Reset -/

theorem byteAt_replicate_zero {n : Nat} (j : Nat) : byteAt (Vector.replicate n (0 : Byte)) j = 0 := by
  by_cases hj : j < n
  · exact byteAt_replicate 0 hj
  · simp [byteAt, hj]

/-- The registers after reset have the values of R45, whatever the configuration, the inputs and the record. -/
theorem atReset_cleared (c : Config) (e : Inputs) (o : Record) :
    AtReset { State.reset with cfg := c, inp := e, out := o } where
  uid := ⟨byteAt_replicate_zero, rfl, rfl⟩
  buffers j := ⟨byteAt_replicate_zero j, byteAt_replicate_zero j, byteAt_replicate_zero j, byteAt_replicate_zero j⟩
  data j := ⟨byteAt_replicate_zero j, byteAt_replicate_zero j, byteAt_replicate_zero j, byteAt_replicate_zero j⟩
  lengths := ⟨rfl, rfl⟩
  txn := ⟨rfl, rfl⟩
  opState := rfl
  sel := ⟨rfl, rfl, rfl, rfl, rfl, rfl, rfl, rfl⟩
  com := ⟨rfl, rfl, rfl, rfl, rfl, rfl, rfl, rfl, rfl, rfl, rfl, rfl, rfl⟩
  col := ⟨rfl, rfl⟩
  flags := ⟨rfl, rfl, rfl, rfl⟩
  line := rfl

/-- `RESET` is accepted in every state that is not BUSY (R310). -/
theorem exec_reset_accepted (h : s.opState = .idle ∨ s.opState = .fatal ∨ s.opState = .tornDown) :
    exec .reset s = .next s.resetSequence := by
  rcases h with h | h | h <;> simp [exec, execReset, acceptsReset, h]

/-- Settles O17: the reset state, and every state the reset sequence leaves, have the registers of `State.reset`. -/
theorem resetValues : Obligations.ResetValues :=
  ⟨atReset_cleared _ _ _, fun s h =>
    ⟨_, exec_reset_accepted h, by rw [State.resetSequence_eq]; exact atReset_cleared _ _ _⟩⟩

/-! ### The PCD command codes -/

/-- Each of the ten PCD command codes runs the write of its opcode to the command register (R94). -/
theorem exec_commandCode {i : Instr} {op : BitVec 4} (h : commandOpcode s.cfg i = some op) :
    exec i s = .next (runOp i 94 (sendCommand op) s) := by
  cases i with
  | cmdIdle | cmdMem | cmdGenRandomId | cmdCalcCrc | cmdTransmit | cmdNoCmdChange | cmdReceive | cmdTransceive
  | cmdMfAuthent | cmdSoftReset =>
    obtain rfl := Option.some.inj h
    rfl
  | _ => cases h

/-- The frame that writes a command opcode: the address byte, the zero-extended opcode (R32, R92). -/
theorem writeFrame_commandByte (a : Addr) (op : BitVec 4) :
    writeFrame a [commandByte op] = [encodeWrite a, BitVec.ofNat 8 op.toNat] := by
  rw [writeFrame, commandByte, BitVec.ofNat_toNat]

theorem sendCommand_closed (cmd : BitVec 4) (h : s.txn.isOpen = false) :
    (sendCommand cmd).run s = .ok () (s.exchanged (writeFrame s.cfg.aCommand [commandByte cmd])) := by
  rw [sendCommand, Eng.run_bind_get, regWrite_closed _ _ h]

theorem sendCommand_open (cmd : BitVec 4) (h : s.txn.isOpen = true) :
    (sendCommand cmd).run s = .error .beginWhileOpen (s.fatalState .beginWhileOpen) := by
  rw [sendCommand, Eng.run_bind_get, regWrite_open _ _ h]

/-- Settles O53: the register write is one whole exchange, or dies at its `begin` when a transaction is open. -/
theorem commandCodesWriteTheRegister : Obligations.CommandCodesWriteTheRegister := by
  intro i s op hop
  rw [exec_commandCode hop]
  refine ⟨fun hr => ?_, fun hi ho => ?_⟩
  · rw [runOp_ok hr.idle (sendCommand_closed op hr.closed), writeFrame_commandByte]
    simp only [State.exchanged, ← hr.idle]
  · rw [runOp_error hi (sendCommand_open op ho)]
    rfl

end Sys2Proof.Machine
end

section
namespace Sys2Proof.Machine
variable {s t : State} {i : Instr} {R : State → State → Prop} {L : List Group}

/-! ### What an instruction writes -/

/-- `t` is `s` with the registers of this group at other values: what a write of the group can do. -/
def Group.Writes (g : Group) (s t : State) : Prop :=
  match g with
  | .uid => t = { s with uid := t.uid }
  | .fb => t = { s with buf := { s.buf with fb := t.buf.fb } }
  | .rsp => t = { s with buf := { s.buf with rsp := t.buf.rsp } }
  | .atqa => t = { s with buf := { s.buf with atqa := t.buf.atqa } }
  | .crc => t = { s with buf := { s.buf with crc := t.buf.crc } }
  | .txn => t = { s with txn := t.txn }
  | .sel => t = { s with sel := t.sel }
  | .com => t = { s with com := t.com }
  | .col => t = { s with col := t.col }
  | .outcome => t = { s with flags := { s.flags with outcome := t.flags.outcome } }
  | .present => t = { s with flags := { s.flags with present := t.flags.present } }
  | .fatal => t = { s with flags := { s.flags with fatal := t.flags.fatal, fatalReason := t.flags.fatalReason } }
  | .operands => t = { s with hostBuf := { s.hostBuf with txb := t.hostBuf.txb, txLen := t.hostBuf.txLen } }
  | .rxb => t = { s with hostBuf := { s.hostBuf with rxb := t.hostBuf.rxb } }
  | .line => t = { s with resetLine := t.resetLine, out := { s.out with line := t.out.line } }

/-- A relation that the parts of a sequence establish when it writes no groups but `L`: every write of one of these groups,
every move of `op_state`, every exchange, every start of a budget. The lemmas below ask for the groups they need; for an
instruction's own list `writes i` that is a computation. -/
structure Writers (L : List Group) (R : State → State → Prop) : Prop extends Frames R where
  write : ∀ g ∈ L, ∀ {s t}, g.Writes s t → R s t
  opState : ∀ s x, R s { s with opState := x }
  exchange : ∀ s (w : List Byte), w.length ≤ 65 → R s
    { s with inp := s.inp.afterAnswer w.length,
             out := { s.out with bus := s.out.bus ++ [⟨w, s.inp.answer w.length⟩] } }
  budget : ∀ s ms, ms = 26 ∨ ms = 89 → R s
    { s with inp := s.inp.afterGranted, out := { s.out with budgets := s.out.budgets ++ [ms] } }

namespace Writers

variable (w : Writers L R)
include w

theorem fatalState (hf : .fatal ∈ L := by simp [writes]) (r : FatalReason) (s : State) : R s (s.fatalState r) :=
  w.trans (w.opState s .fatal) (w.write .fatal hf rfl)

/-- A sequence that writes the transaction buffer and can die. -/
theorem parts (htxn : .txn ∈ L := by simp [writes]) (hf : .fatal ∈ L := by simp [writes]) : Parts R where
  toFrames := w.toFrames
  fatal := w.fatalState hf
  rule := fun _ s => w.opState s _
  txn := fun _ _ => w.write .txn htxn rfl
  exchange := w.exchange

/-- A sequence that also writes the command scalars. -/
theorem commandParts (htxn : .txn ∈ L := by simp [writes]) (hf : .fatal ∈ L := by simp [writes])
    (hcom : .com ∈ L := by simp [writes]) : CommandParts R where
  toParts := w.parts htxn hf
  com := fun _ _ => w.write .com hcom rfl
  start := fun s ms h => w.trans (w.budget s ms h) (w.write .com hcom rfl)

/-- A sequence that writes everything `select` does. -/
theorem selectParts (h : [.txn, .fatal, .com, .fb, .rsp, .crc, .sel, .col, .uid] ⊆ L := by simp [writes]) : SelectParts R where
  toCommandParts := w.commandParts (h (by decide)) (h (by decide)) (h (by decide))
  buf := fun s fb rsp crc =>
    w.trans (t := { s with buf := { s.buf with fb := fb } }) (w.write .fb (h (by decide)) rfl)
      (w.trans (t := { s with buf := ⟨fb, rsp, s.buf.atqa, s.buf.crc⟩ }) (w.write .rsp (h (by decide)) rfl)
        (w.write .crc (h (by decide)) rfl))
  sel := fun _ _ => w.write .sel (h (by decide)) rfl
  col := fun _ _ => w.write .col (h (by decide)) rfl
  uid := fun _ _ => w.write .uid (h (by decide)) rfl

theorem keeps_setRxb (bs : List Byte) (h : .rxb ∈ L := by simp [writes]) : Keeps R (setRxb bs) :=
  .modify fun _ => w.write .rxb h rfl

theorem store_rxb (h : .rxb ∈ L := by simp [writes]) (s : State) (l : List Byte) : R s (Window.rxb.store l s) :=
  w.write .rxb h rfl

theorem store_atqa (h : .atqa ∈ L := by simp [writes]) (s : State) (l : List Byte) : R s (Window.atqa.store l s) :=
  w.write .atqa h rfl

theorem keeps_setFrameByte (j : Nat) (b : Byte) (h : .fb ∈ L := by simp [writes]) : Keeps R (setFrameByte j b) :=
  .modify fun _ => w.write .fb h rfl

theorem keeps_setPresent (b : Bool) (h : .present ∈ L := by simp [writes]) : Keeps R (setPresent b) :=
  .modify fun _ => w.write .present h rfl

theorem keeps_setOutcome (o : OpOutcome) (h : .outcome ∈ L := by simp [writes]) : Keeps R (setOutcome o) :=
  .modify fun _ => w.write .outcome h rfl

/-- `read_byte` does not write the transaction buffer (R135). -/
theorem keeps_readByte (hf : .fatal ∈ L := by simp [writes]) : Keeps R readByte := by
  intro s
  cases hd : s.txn.done with
  | false => rw [readByte_early hd]; exact w.fatalState hf _ s
  | true =>
    by_cases hp : s.txn.pos.val = 0
    · rw [readByte_empty hd hp]; exact w.fatalState hf _ s
    · rw [readByte_done hd hp]; exact w.refl s

/-- `read_bytes` does not write the transaction buffer (R136). -/
theorem keeps_readBytes (n : Nat) (hf : .fatal ∈ L := by simp [writes]) : Keeps R (readBytes n) := by
  intro s
  cases hd : s.txn.done with
  | false => rw [readBytes_early n hd]; exact w.fatalState hf _ s
  | true =>
    by_cases hp : s.txn.pos.val < n
    · rw [readBytes_tooLong hd hp]; exact w.fatalState hf _ s
    · rw [readBytes_done hd (Nat.le_of_not_lt hp)]; exact w.refl s

theorem keeps_sendCommand (cmd : BitVec 4) (htxn : .txn ∈ L := by simp [writes]) (hf : .fatal ∈ L := by simp [writes]) :
    Keeps R (sendCommand cmd) :=
  w.bind w.get fun _ => (w.parts htxn hf).keeps_regWrite _ _

theorem keeps_isNewCardPresent (hc : CommandParts R) (ha : .atqa ∈ L := by simp [writes])
    (hp : .present ∈ L := by simp [writes]) : Keeps R isNewCardPresent :=
  w.bind hc.keeps_modeDefaults fun _ => w.bind (hc.keeps_requestOrWakeup (w.store_atqa ha) false) fun _ =>
    w.bind (w.keeps_setPresent _ hp) fun _ => w.pure _

theorem keeps_readCardUid (hs : SelectParts R) (hp : .present ∈ L := by simp [writes]) : Keeps R readCardUid :=
  w.bind (hs.keeps_select 0) fun _ => w.bind (w.keeps_setPresent _ hp) fun _ => w.pure _

/-- An operation does to the state what its sequence does, and moves `op_state`. -/
theorem establishes_runOp {body : Eng Unit} (h : Keeps R body) (i : Instr) (r : Nat) (s : State) : R s (runOp i r body s) := by
  by_cases hi : s.opState = .idle
  · cases hb : body.run { s with opState := .busy i r } with
    | ok a t =>
      rw [runOp_ok hi hb]
      exact w.trans (w.opState s _) (w.trans (h.ok hb) (w.opState t _))
    | error f t =>
      rw [runOp_error hi hb]
      exact w.trans (w.opState s _) (h.error hb)
  · rw [runOp_notIdle hi]
    exact w.refl s

theorem establishes_runProtocol {body : Eng OpOutcome} (h : Keeps R body) (i : Instr) (r : Nat) (s : State)
    (ho : .outcome ∈ L := by simp [writes]) : R s (runProtocol i r body s) :=
  w.establishes_runOp (w.bind h fun o => w.keeps_setOutcome o ho) i r s

end Writers

/-- Every instruction but `RESET` answers a next state, by writing the groups of its list. -/
theorem Writers.exec_next (w : Writers (writes i) R) (hi : i ≠ .reset) (s : State) : ∃ t, exec i s = .next t ∧ R s t := by
  cases i with
  | reset => exact absurd rfl hi
  | teardown =>
    refine ⟨_, rfl, ?_⟩
    split
    · exact w.opState s _
    · exact w.refl s
  | beginTxn => exact ⟨_, rfl, w.establishes_runOp w.parts.keeps_begin _ _ s⟩
  | writeByte b => exact ⟨_, rfl, w.establishes_runOp (w.parts.keeps_writeByte b) _ _ s⟩
  | writeBytes => exact ⟨_, rfl, w.establishes_runOp (w.parts.keeps_writeBytes _) _ _ s⟩
  | endTxn => exact ⟨_, rfl, w.establishes_runOp w.parts.keeps_end _ _ s⟩
  | readByte => exact ⟨_, rfl, w.establishes_runOp (w.bind w.keeps_readByte fun _ => w.keeps_setRxb _) _ _ s⟩
  | readBytes n => exact ⟨_, rfl, w.establishes_runOp (w.bind (w.keeps_readBytes _) fun _ => w.keeps_setRxb _) _ _ s⟩
  | regRead a => exact ⟨_, rfl, w.establishes_runOp (w.bind (w.parts.keeps_regRead a) fun _ => w.keeps_setRxb _) _ _ s⟩
  | regReadN a n => exact ⟨_, rfl, w.establishes_runOp (w.bind (w.parts.keeps_regReadN a _) fun _ => w.keeps_setRxb _) _ _ s⟩
  | regWrite a v => exact ⟨_, rfl, w.establishes_runOp (w.parts.keeps_regWrite a v) _ _ s⟩
  | regWriteN a => exact ⟨_, rfl, w.establishes_runOp (w.parts.keeps_regWriteN a _) _ _ s⟩
  | regSetBits a v => exact ⟨_, rfl, w.establishes_runOp (w.parts.keeps_regSetBits a v) _ _ s⟩
  | regClearBits a v => exact ⟨_, rfl, w.establishes_runOp (w.parts.keeps_regClearBits a v) _ _ s⟩
  | computeCrc =>
    have hc : .crc ∈ writes .computeCrc := by decide
    exact ⟨_, rfl, w.establishes_runProtocol (w.commandParts.keeps_computeCrc (fun _ _ => w.write .crc hc rfl) _) _ _ s⟩
  | communicate =>
    refine ⟨_, rfl, w.establishes_runProtocol (w.commandParts.keeps_communicate ?_) _ _ s⟩
    exact w.store_rxb
  | transceive =>
    refine ⟨_, rfl, w.establishes_runProtocol (w.commandParts.keeps_transceive ?_) _ _ s⟩
    exact w.store_rxb
  | requestOrWakeup sel =>
    exact ⟨_, rfl, w.establishes_runProtocol (w.commandParts.keeps_requestOrWakeup w.store_atqa sel) _ _ s⟩
  | reqa | wupa => exact ⟨_, rfl, w.establishes_runProtocol (w.commandParts.keeps_shortFrame w.store_atqa _) _ _ s⟩
  | isNewCardPresent => exact ⟨_, rfl, w.establishes_runProtocol (w.keeps_isNewCardPresent w.commandParts) _ _ s⟩
  | select kvb => exact ⟨_, rfl, w.establishes_runProtocol (w.selectParts.keeps_select kvb) _ _ s⟩
  | readCardUid => exact ⟨_, rfl, w.establishes_runProtocol (w.keeps_readCardUid w.selectParts) _ _ s⟩
  | addrRead a | addrWrite a => exact ⟨_, rfl, w.establishes_runOp (w.parts.keeps_writeByte _) _ _ s⟩
  | cmdIdle | cmdMem | cmdGenRandomId | cmdCalcCrc | cmdTransmit | cmdNoCmdChange | cmdReceive | cmdTransceive
  | cmdMfAuthent | cmdSoftReset => exact ⟨_, rfl, w.establishes_runOp (w.keeps_sendCommand _) _ _ s⟩
  | selCl1 | selCl2 | selCl3 | cascadeTag | nvbFull | nvbAnticoll =>
    exact ⟨_, rfl, w.establishes_runOp (w.keeps_setFrameByte _ _) _ _ s⟩

/-! ### The groups an instruction does not write -/

/-- The registers outside the groups `L`, the configuration and the host's queue are as before. -/
structure Untouched (L : List Group) (s t : State) : Prop where
  same : ∀ g, g ∉ L → g.same s t
  cfg : t.cfg = s.cfg
  host : t.inp.host = s.inp.host

theorem Group.same_refl (g : Group) (s : State) : g.same s s := by
  cases g <;> simp [Group.same]

theorem Group.same_trans {g : Group} {s t u : State} (h : g.same s t) (h' : g.same t u) : g.same s u := by
  cases g <;> simp_all [Group.same]

/-- A write of one group leaves the others as they were: the groups have no register in common. -/
theorem Group.Writes.same {g k : Group} (h : g.Writes s t) (hk : k ≠ g) : k.same s t := by
  cases g <;> (rw [show t = _ from h]; cases k <;> simp_all [Group.same])

/-- No group has a part of the configuration or of the inputs. -/
theorem Group.Writes.cfg_inp {g : Group} (h : g.Writes s t) : t.cfg = s.cfg ∧ t.inp = s.inp := by
  cases g <;> (rw [show t = _ from h]; exact ⟨rfl, rfl⟩)

theorem Group.Writes.untouched {g : Group} (h : g.Writes s t) (hg : g ∈ L) : Untouched L s t where
  same _ hk := h.same fun e => hk (e ▸ hg)
  cfg := h.cfg_inp.1
  host := by rw [h.cfg_inp.2]

/-- What writes the groups `L` leaves the rest untouched. -/
theorem Untouched.writers (L : List Group) : Writers L (Untouched L) where
  refl s := ⟨fun g _ => g.same_refl s, rfl, rfl⟩
  trans h h' := ⟨fun g hg => Group.same_trans (h.same g hg) (h'.same g hg), h'.cfg.trans h.cfg, h'.host.trans h.host⟩
  write _ hg _ _ h := h.untouched hg
  opState s _ := ⟨fun g _ => g.same_refl s, rfl, rfl⟩
  exchange s _ _ := ⟨fun g _ => g.same_refl s, rfl, rfl⟩
  budget s _ _ := ⟨fun g _ => g.same_refl s, rfl, afterGranted_host s.inp⟩

/-- A relation that the writes of an instruction establish, and that the reset sequence establishes, holds of every instruction's
next state. -/
theorem exec_establishes (hw : i ≠ .reset → Writers (writes i) R) (hrefl : R s s) (hr : i = .reset → R s s.resetSequence)
    (h : exec i s = .next t) : R s t := by
  by_cases hi : i = .reset
  · subst hi
    obtain rfl : (if acceptsReset s.opState then s.resetSequence else s) = t := Host.Outcome.next.inj h
    split
    · exact hr rfl
    · exact hrefl
  · obtain ⟨u, hu, hR⟩ := (hw hi).exec_next hi s
    obtain rfl : u = t := Host.Outcome.next.inj (hu.symm.trans h)
    exact hR

theorem mem_writes_reset (g : Group) : g ∈ writes .reset := by cases g <;> decide

/-- The reset sequence writes every register, and neither the configuration nor the inputs (R310, R311). -/
theorem resetSequence_untouched (s : State) : Untouched (writes .reset) s s.resetSequence where
  same g hg := absurd (mem_writes_reset g) hg
  cfg := by rw [State.resetSequence_eq]
  host := by rw [State.resetSequence_eq]

/-- Settles O55: an instruction changes the state by writes of the groups of its list alone. -/
theorem everyInstructionKeepsTheRest : Obligations.EveryInstructionKeepsTheRest := by
  intro i s t h
  have hu : Untouched (writes i) s t :=
    exec_establishes (fun _ => Untouched.writers _) ((Untouched.writers _).refl s)
      (fun hi => hi ▸ resetSequence_untouched s) h
  exact ⟨hu.same, hu.cfg, hu.host⟩

/-! ### What a step puts on record -/

/-- From `s` to `t` the record grew by whole exchanges, answered in order, and by budgets of the two kinds; the configuration
stayed, and the reset line stayed or is high (R60, R63, R286, R311). -/
structure Recorded (s t : State) : Prop where
  cfg : t.cfg = s.cfg
  made : ∃ x, Made s t x
  line : t.resetLine = s.resetLine ∨ t.resetLine = true
  budgets : ∀ ms ∈ t.out.budgets, ms ∈ s.out.budgets ∨ ms = 26 ∨ ms = 89

/-- Where the configuration, the reset line, the record and the PCD's answers are the same, nothing was put on record. -/
theorem Recorded.of_eq (hc : t.cfg = s.cfg) (hl : t.resetLine = s.resetLine) (hb : t.out.bus = s.out.bus)
    (hm : t.out.budgets = s.out.budgets) (hp : t.inp.pcd = s.inp.pcd) (hd : t.inp.pcdDrawn = s.inp.pcdDrawn) :
    Recorded s t where
  cfg := hc
  made := ⟨[], (Made.refl s).right hb hp hd⟩
  line := .inl hl
  budgets := fun _ h => .inl (hm ▸ h)

theorem Recorded.refl (s : State) : Recorded s s := .of_eq rfl rfl rfl rfl rfl rfl

theorem Recorded.trans {u : State} (h : Recorded s t) (h' : Recorded t u) : Recorded s u where
  cfg := h'.cfg.trans h.cfg
  made := by
    obtain ⟨x, hx⟩ := h.made
    obtain ⟨y, hy⟩ := h'.made
    exact ⟨x ++ y, hx.trans hy⟩
  line := by
    rcases h'.line with hl | hl
    · rw [hl]
      exact h.line
    · exact .inr hl
  budgets := fun ms hms => (h'.budgets ms hms).elim (h.budgets ms) .inr

/-- A write of registers other than the reset line's puts nothing on record. -/
theorem Group.Writes.recorded {g : Group} (h : g.Writes s t) (hg : g ≠ .line) : Recorded s t := by
  cases g with
  | line => exact absurd rfl hg
  | _ =>
    rw [show t = _ from h]
    exact .of_eq rfl rfl rfl rfl rfl rfl

/-- What does not drive the reset line puts on record exchanges and budgets alone. -/
theorem Recorded.writers (h : .line ∉ L) : Writers L Recorded where
  refl := .refl
  trans := .trans
  write g hg _ _ hw := hw.recorded fun e => h (e ▸ hg)
  opState _ _ := .of_eq rfl rfl rfl rfl rfl rfl
  exchange s w hw := ⟨rfl, ⟨_, (Made.exchanged s hw).right rfl rfl rfl⟩, .inl rfl, fun _ h => .inl h⟩
  budget s ms hms :=
    { cfg := rfl
      made := ⟨[], (Made.refl s).right rfl (afterGranted_pcd _) (afterGranted_pcdDrawn _)⟩
      line := .inl rfl
      budgets := fun m hm => by
        rcases List.mem_append.mp hm with hm | hm
        · exact .inl hm
        · rw [List.mem_singleton.mp hm]
          exact .inr hms }

/-- Only `RESET` drives the reset line (R30, R311). -/
theorem line_not_mem_writes (hi : i ≠ .reset) : .line ∉ writes i := by
  cases i <;> simp_all [writes]

theorem resetSequence_recorded (s : State) : Recorded s s.resetSequence := by
  rw [State.resetSequence_eq]
  exact ⟨rfl, ⟨[], (Made.refl s).right rfl rfl rfl⟩, .inr rfl, fun _ h => .inl h⟩

theorem exec_recorded (h : exec i s = .next t) : Recorded s t :=
  exec_establishes (fun hi => Recorded.writers (line_not_mem_writes hi)) (.refl s) (fun _ => resetSequence_recorded s) h

/-- A code that is nothing on its layer has a next state only as a host request word, `Invalid` (R108). -/
theorem noInstruction_next {c : Code} (h : noInstruction c s = .next t) : t = invalidRequest s := by
  cases c with
  | host w => exact (Host.Outcome.next.inj h).symm
  | _ => cases h

/-- The kinds of step that answer a next state: nothing at the host port, a register write, an issued code that is an
instruction or the request with the unassigned `op`. -/
theorem step_cases (h : step s = .next t) :
    t = s ∨ (∃ w, t = hostWrite w s.popHost) ∨ (∃ i, exec i s.popHost = .next t) ∨ t = invalidRequest s.popHost := by
  rw [step] at h
  split at h
  · exact .inl (Host.Outcome.next.inj h).symm
  · exact .inr (.inl ⟨_, (Host.Outcome.next.inj h).symm⟩)
  · split at h
    · exact .inr (.inr (.inl ⟨_, h⟩))
    · exact .inr (.inr (.inr (noInstruction_next h)))

theorem hostWrite_recorded (w : HostWrite) (s : State) : Recorded s (hostWrite w s) := by
  unfold hostWrite
  split
  · cases w <;> exact .of_eq rfl rfl rfl rfl rfl rfl
  · exact .refl s

theorem invalidRequest_recorded (s : State) : Recorded s (invalidRequest s) := by
  unfold invalidRequest
  split
  · exact .of_eq rfl rfl rfl rfl rfl rfl
  · exact .refl s

theorem step_recorded (h : step s = .next t) : Recorded s t := by
  have hpop : Recorded s s.popHost := .of_eq rfl rfl rfl rfl rfl rfl
  rcases step_cases h with rfl | ⟨w, rfl⟩ | ⟨i, hi⟩ | rfl
  · exact .refl t
  · exact hpop.trans (hostWrite_recorded w _)
  · exact hpop.trans (exec_recorded hi)
  · exact hpop.trans (invalidRequest_recorded _)

/-- Settles O56: every part of a step keeps the configuration and records whole exchanges with the answers in order. -/
theorem stepKeepsTheHistory : Obligations.StepKeepsTheHistory := fun _ _ h =>
  ⟨(step_recorded h).cfg, (step_recorded h).made⟩

end Sys2Proof.Machine
end

section
namespace Sys2Proof.Machine
variable {s t : State} {α β : Type} {P : α → Prop} {Q : β → Prop}

/-! ### The invariant while an operation runs -/

/-- The registers' part of the invariant but for the fatal flag and `op_state`; no budget runs (R23, R25 to R27, R98, R273,
R286). -/
structure RegistersWf (s : State) : Prop where
  openNotDone : s.txn.isOpen = true → s.txn.done = false
  noMifareNack : s.flags.outcome ≠ .mifareNack
  sel : SelWf s.sel
  collPos : s.col.pos.toNat ≤ 32
  com : ComWf s.com

/-- What holds while an operation runs, and nothing has failed (R278). -/
structure Running (s : State) : Prop extends RegistersWf s where
  alive : s.flags.fatal = false
  noReason : s.flags.fatalReason = .none

/-- What a fatal failure with a reason leaves of a running operation (R278). -/
def Died (r : FatalReason) (t : State) : Prop := r ≠ .none ∧ ∃ u, Running u ∧ t = u.fatalState r

/-- The part of the invariant that is about the record and the reset line (R60, R75, R286, R311). -/
structure RecordWf (s : State) : Prop where
  lineHigh : s.resetLine = true
  bus : ∀ e ∈ s.out.bus, e.received.length = e.sent.length ∧ e.sent.length ≤ txnCap
  budgets : ∀ ms ∈ s.out.budgets, ms = 26 ∨ ms = 89

theorem Recorded.recordWf (h : Recorded s t) (hs : RecordWf s) : RecordWf t where
  lineHigh := h.line.elim (fun hl => hl.trans hs.lineHigh) id
  bus := by
    obtain ⟨x, hx⟩ := h.made
    rw [hx.bus]
    exact fun e he => (List.mem_append.mp he).elim (hs.bus e) (hx.lengths e)
  budgets := fun ms hms => (h.budgets ms hms).elim (hs.budgets ms) id

theorem Inv.recordWf (h : Inv s) : RecordWf s := ⟨h.lineHigh, h.bus, h.budgets⟩

/-- In IDLE the invariant is what a running operation starts from. -/
theorem Inv.running (h : Inv s) (hi : s.opState = .idle) : Running s where
  openNotDone := h.openNotDone
  alive := by
    rw [← Bool.not_eq_true, h.fatalState, hi]
    decide
  noReason := by
    by_contra hn
    have := h.fatalState.mp (h.fatalReason.mpr hn)
    rw [hi] at this
    cases this
  noMifareNack := h.noMifareNack
  sel := ⟨h.knownBits, h.level, h.off, h.idx, h.sendLen⟩
  collPos := h.collPos
  com := ⟨h.bytesWritten, h.bitFraming, h.budget hi⟩

/-- The invariant from its parts. -/
theorem RegistersWf.inv (h : RegistersWf s) (hr : RecordWf s) (hbusy : ∀ i r, s.opState ≠ .busy i r)
    (hfatal : s.flags.fatal = true ↔ s.opState = .fatal) (hreason : s.flags.fatal = true ↔ s.flags.fatalReason ≠ .none) :
    Inv s where
  openNotDone := h.openNotDone
  notBusy := hbusy
  fatalState := hfatal
  fatalReason := hreason
  noMifareNack := h.noMifareNack
  knownBits := h.sel.knownBits
  level := h.sel.level
  off := h.sel.off
  idx := h.sel.frame.idx
  sendLen := h.sel.frame.sendLen
  collPos := h.collPos
  bytesWritten := h.com.bytesWritten
  bitFraming := h.com.bitFraming
  budget _ := h.com.budget
  lineHigh := hr.lineHigh
  bus := hr.bus
  budgets := hr.budgets

/-- An operation that has ended leaves the invariant, in IDLE or TORN_DOWN. -/
theorem Running.inv (h : Running s) (hr : RecordWf s) (ho : s.opState = .idle ∨ s.opState = .tornDown) : Inv s := by
  refine h.toRegistersWf.inv hr ?_ ?_ (by simp [h.alive, h.noReason])
  · rcases ho with ho | ho <;> simp [ho]
  · rcases ho with ho | ho <;> simp [ho, h.alive]

/-- An operation that has died leaves the invariant, in FATAL. -/
theorem Died.inv {r : FatalReason} (h : Died r t) (hr : RecordWf t) : Inv t := by
  obtain ⟨hn, u, hu, rfl⟩ := h
  have hreg : RegistersWf (u.fatalState r) := { hu.toRegistersWf with }
  exact hreg.inv hr (by simp) (by simp) (by simpa using hn)

/-- The reset values lie in their ranges (R45). -/
theorem running_reset : Running State.reset where
  openNotDone := by decide
  alive := rfl
  noReason := rfl
  noMifareNack := by decide
  sel := ⟨by decide, by decide, by decide, by decide, by decide⟩
  collPos := by decide
  com := ⟨by decide, by decide, rfl⟩

/-- Settles O57: the reset values lie in their ranges, and the record holds no exchange and no budget. -/
theorem invariantAtReset : Obligations.InvariantAtReset :=
  running_reset.inv ⟨rfl, by decide, by decide⟩ (.inl rfl)

/-! ### Sequences that keep it -/

/-- From every running operation the sequence leaves one, with a result of `P`, or dies of a reason. -/
def Sound (P : α → Prop) (m : Eng α) : Prop :=
  ∀ s, Running s → Eng.Post m s (fun a t => Running t ∧ P a) Died

/-- Any result. -/
def Any : α → Prop := fun _ => True

/-- An outcome that is ever produced (R273). -/
abbrev Produced (o : OpOutcome) : Prop := o ≠ .mifareNack

theorem Eng.Post.running {m : Eng α} {a : α} (hm : m.run s = .ok a t) (h : Running t) :
    Eng.Post m s (fun a t => Running t ∧ Any a) Died := .of_ok hm ⟨h, trivial⟩

theorem Eng.Post.died {m : Eng α} {r : FatalReason} (hm : m.run s = .error r (t.fatalState r)) (h : Running t)
    (hr : r ≠ .none := by decide) : Eng.Post m s (fun a t => Running t ∧ P a) Died := .of_error hm ⟨hr, t, h, rfl⟩

theorem Sound.bind {m : Eng α} {f : α → Eng β} (hm : Sound P m) (hf : ∀ a, P a → Sound Q (f a)) : Sound Q (m >>= f) :=
  fun s h => (hm s h).bind fun a t ht => hf a ht.2 t ht.1

theorem Sound.pure {a : α} (h : P a) : Sound P (pure a : Eng α) := fun _ hs => ⟨hs, h⟩

theorem Sound.get : Sound Any (get : Eng State) := fun _ hs => ⟨hs, trivial⟩

theorem Sound.modify {g : State → State} (h : ∀ s, Running s → Running (g s)) : Sound Any (modify g : Eng PUnit) :=
  fun s hs => ⟨h s hs, trivial⟩

theorem sound_atRule (r : Nat) : Sound Any (atRule r) := .modify fun _ h => { h with }

/-- One whole exchange leaves the transaction closed and done. -/
theorem Running.exchanged (h : Running s) (w : List Byte) : Running (s.exchanged w) :=
  { h with openNotDone := fun ho => by cases ho }

theorem sound_begin : Sound Any begin_ := by
  intro s h
  cases ho : s.txn.isOpen with
  | true => exact .died (begin_open ho) h
  | false => exact .running (begin_closed ho) { h with openNotDone := fun _ => rfl }

theorem sound_writeByte (b : Byte) : Sound Any (writeByte b) := by
  intro s h
  cases ho : s.txn.isOpen with
  | false => exact .died (writeByte_closed b ho) h
  | true =>
    by_cases hp : s.txn.pos.val = 65
    · exact .died (writeByte_full b ho hp) h
    · exact .running (writeByte_open b ho (by omega)) { h with }

theorem sound_writeBytes (bs : List Byte) : Sound Any (writeBytes bs) := by
  intro s h
  cases ho : s.txn.isOpen with
  | false => exact .died (writeBytes_closed bs ho) h
  | true =>
    by_cases hp : 65 < s.txn.pos.val + bs.length
    · exact .died (writeBytes_overflow bs ho hp) h
    · exact .running (writeBytes_open bs ho (by omega)) { h with }

theorem sound_end : Sound Any end_ := by
  intro s h
  cases ho : s.txn.isOpen with
  | false => exact .died (end_closed ho) h
  | true => exact .running (end_open ho) { h with openNotDone := fun hc => by cases hc }

theorem sound_readByte : Sound Any readByte := by
  intro s h
  cases hd : s.txn.done with
  | false => exact .died (readByte_early hd) h
  | true =>
    by_cases hp : s.txn.pos.val = 0
    · exact .died (readByte_empty hd hp) h
    · exact .running (readByte_done hd hp) h

theorem sound_readBytes (n : Nat) : Sound Any (readBytes n) := by
  intro s h
  cases hd : s.txn.done with
  | false => exact .died (readBytes_early n hd) h
  | true =>
    by_cases hp : s.txn.pos.val < n
    · exact .died (readBytes_tooLong hd hp) h
    · exact .running (readBytes_done hd (by omega)) h

theorem sound_regReadN (a : Addr) (n : Nat) : Sound Any (regReadN a n) := by
  intro s h
  by_cases hn : 64 < n
  · exact .died (regReadN_overflow a hn) h
  · obtain rfl | h0 := Nat.eq_zero_or_pos n
    · exact .running (regReadN_zero a) h
    · cases ho : s.txn.isOpen with
      | true => exact .died (regReadN_open a ho h0 (by omega)) h
      | false => exact .running (regReadN_closed a ho h0 (by omega)) (h.exchanged _)

theorem sound_regRead (a : Addr) : Sound Any (regRead a) := (sound_regReadN a 1).bind fun _ _ => .pure trivial

theorem sound_regWriteN (a : Addr) (d : List Byte) : Sound Any (regWriteN a d) := by
  intro s h
  by_cases hd : 64 < d.length
  · exact .died (regWriteN_overflow a hd) h
  · obtain rfl | h0 := eq_or_ne d []
    · exact .running (regWriteN_nil a) h
    · cases ho : s.txn.isOpen with
      | true => exact .died (regWriteN_open a ho h0 (by omega)) h
      | false => exact .running (regWriteN_closed a ho h0 (by omega)) (h.exchanged _)

theorem sound_regWrite (a : Addr) (v : Byte) : Sound Any (regWrite a v) := sound_regWriteN a [v]

theorem sound_regSetBits (a : Addr) (m : Byte) : Sound Any (regSetBits a m) :=
  (sound_regRead a).bind fun _ _ => sound_regWrite a _

theorem sound_regClearBits (a : Addr) (m : Byte) : Sound Any (regClearBits a m) :=
  (sound_regRead a).bind fun _ _ => sound_regWrite a _

theorem sound_setRxb (bs : List Byte) : Sound Any (setRxb bs) := .modify fun _ h => { h with }

theorem sound_setFrameByte (i : Nat) (b : Byte) : Sound Any (setFrameByte i b) := .modify fun _ h => { h with }

theorem sound_setPresent (b : Bool) : Sound Any (setPresent b) := .modify fun _ h => { h with }

theorem sound_setOutcome {o : OpOutcome} (ho : Produced o) : Sound Any (setOutcome o) :=
  .modify fun _ h => { h with noMifareNack := ho }

theorem sound_sendCommand (cmd : BitVec 4) : Sound Any (sendCommand cmd) :=
  Sound.get.bind fun _ _ => sound_regWrite _ _

/-- A part that leaves the status flags, closes the transaction and keeps the scalars in their ranges. -/
theorem Running.of_flags (h : Running s) (hf : t.flags = s.flags) (hc : t.txn.isOpen = false) (hsel : SelWf t.sel)
    (hcol : t.col.pos.toNat ≤ 32) (hcom : ComWf t.com) : Running t where
  openNotDone ho := by rw [hc] at ho; cases ho
  alive := hf ▸ h.alive
  noReason := hf ▸ h.noReason
  noMifareNack := hf ▸ h.noMifareNack
  sel := hsel
  collPos := hcol
  com := hcom

/-- `compute_crc` (R164): it dies of its length or of an open transaction, or ends as `CrcDone` says. -/
theorem sound_computeCrc (d : List Byte) : Sound Produced (computeCrc d) := by
  intro s h
  by_cases hd : 64 < d.length
  · exact .died (computeCrc_overflow hd) h
  · cases ho : s.txn.isOpen with
    | true => exact .died (computeCrc_open ho (by omega)) { h with }
    | false =>
      obtain ⟨o, t, x, hr, hc⟩ := computeCrc_run ho (Nat.le_of_not_lt hd)
      obtain ⟨hrnd, hsel, -⟩ := hc.rnd
      refine .of_ok hr ⟨h.of_flags (by rw [hc.rest]) hc.closed (hsel ▸ h.sel) (hrnd.col h.collPos) (hrnd.com h.com), ?_⟩
      rcases hc.ends with rfl | rfl <;> decide

/-- A receive window holds no scalar of the engine and no flag (R46). -/
theorem Window.store_scalars (w : Window) (bs : List Byte) (s : State) :
    (w.store bs s).flags = s.flags ∧ (w.store bs s).sel = s.sel ∧ (w.store bs s).col = s.col := by
  cases w <;> exact ⟨rfl, rfl, rfl⟩

theorem CommDone.running {a : CommArgs} {o : OpOutcome} {x : List Exchange} {d : List Byte}
    (h : CommDone a s o t x d) (hs : Running s) : Running t := by
  obtain ⟨hflags, hsel, hcol⟩ := a.recv.store_scalars (mergeFirst (a.recv.first s) a.rxAlign d) s
  refine hs.of_flags ?_ h.closed ?_ ?_ h.comWf
  · rw [h.rest, hflags]
  · rw [h.rest, hsel]
    exact hs.sel
  · rw [h.rest, hcol]
    exact hs.collPos

theorem CommOverflow.died {a : CommArgs} {x : List Exchange} (h : CommOverflow a s t x) (hs : Running s) :
    Died .overflow t := by
  refine ⟨by decide, { s with txn := t.txn, inp := t.inp, out := t.out, com := t.com }, ?_, h.rest⟩
  refine hs.of_flags rfl h.closed hs.sel hs.collPos ?_
  rw [h.com]
  exact ⟨Nat.zero_le 64, framingByte_reserved _ _, rfl⟩

/-- `communicate` (R177): it dies of an entry check, of an open transaction or as `CommOverflow` says, or ends as `CommDone`
says. -/
theorem sound_communicate (a : CommArgs) : Sound Produced (communicate a) := by
  intro s h
  cases hc : a.checkCrc with
  | true =>
    exact .died (communicate_unsupported hc) { h with com := { h.com with } }
  | false =>
    by_cases hd : 64 < a.send.length
    · exact .died (communicate_overflow hc hd) { h with com := { h.com with } }
    · cases ho : s.txn.isOpen with
      | true =>
        exact .died (communicate_open hc (by omega) ho)
          { h with com := ⟨Nat.zero_le 64, framingByte_reserved _ _, h.com.budget⟩ }
      | false =>
        rcases communicate_run ho hc (Nat.le_of_not_lt hd) with ⟨o, t, x, d, hr, hdone⟩ | ⟨t, x, hr, hover⟩
        · refine .of_ok hr ⟨hdone.running h, ?_⟩
          rintro rfl
          exact absurd hdone.outcome_mem (by decide)
        · exact .of_error hr (hover.died h)

theorem sound_transceive (a : CommArgs) : Sound Produced (transceive a) :=
  Sound.get.bind fun _ _ => sound_communicate _

theorem sound_shortFrame (op : BitVec 7) : Sound Produced (shortFrame op) :=
  (sound_atRule _).bind fun _ _ =>
    (Sound.modify fun _ h => { h with com := { h.com with } }).bind fun _ _ =>
      sound_transceive _

theorem classifyAtqa_produced {o : OpOutcome} (h : Produced o) (n : BitVec 7) (v : BitVec 3) :
    Produced (classifyAtqa o n v) := by
  unfold classifyAtqa
  split
  · decide
  · exact h

theorem sound_requestOrWakeup (sel : Bool) : Sound Produced (requestOrWakeup sel) :=
  Sound.get.bind fun _ _ => (sound_atRule _).bind fun _ _ => (sound_regClearBits _ _).bind fun _ _ =>
    (sound_shortFrame _).bind fun _ ho => Sound.get.bind fun _ _ => .pure (classifyAtqa_produced ho _ _)

theorem sound_modeDefaults : Sound Any modeDefaults :=
  (sound_atRule _).bind fun _ _ => Sound.get.bind fun _ _ => (sound_regWrite _ _).bind fun _ _ =>
    (sound_regWrite _ _).bind fun _ _ => sound_regWrite _ _

theorem sound_isNewCardPresent : Sound Produced isNewCardPresent :=
  sound_modeDefaults.bind fun _ _ => (sound_requestOrWakeup false).bind fun _ ho =>
    (sound_setPresent _).bind fun _ _ => .pure ho

/-- `select` (R204): it rejects its claim, dies of an open transaction at its first register operation, or ends as `LevelsDone`
says. -/
theorem sound_select (kvb : Byte) : Sound Produced (select kvb) := by
  intro s h
  by_cases hk : 80 < kvb.toNat
  · exact .of_ok (select_invalid hk) ⟨h, by decide⟩
  · cases ho : s.txn.isOpen with
    | true =>
      obtain ⟨t, hr, ht, hcom, hsel⟩ := select_open ho (Nat.le_of_not_lt hk)
      refine .died hr ?_
      have hct : ComWf t.com := by
        rw [hcom]
        exact { h.com with }
      have hst : SelWf t.sel := hsel h.sel
      rw [ht]
      exact { h with sel := hst, com := hct }
    | false =>
      obtain ⟨o, t, x, l, hr, hdone, -⟩ := select_run ho (Nat.le_of_not_lt hk)
      have hlevel : (1 : BitVec 3).toNat ≤ 4 := by decide
      have hsel : SelWf t.sel := hdone.sel { h.sel with level := hlevel, frame := { h.sel.frame with } }
      refine .of_ok hr ⟨h.of_flags (by rw [hdone.keep]) hdone.closed hsel (hdone.col h.collPos) (hdone.com h.com), ?_⟩
      rintro rfl
      exact absurd hdone.outcome (by decide)

theorem sound_readCardUid : Sound Produced readCardUid :=
  (sound_select 0).bind fun _ ho => (sound_setPresent _).bind fun _ _ => .pure ho

/-! ### Every step keeps the invariant -/

/-- Accepting an operation, its sequence, and the return keep the invariant (R24, R270, R278). -/
theorem runOp_inv {i : Instr} {r : Nat} {body : Eng Unit} (h : Inv s) (hb : Sound Any body)
    (hr : RecordWf (runOp i r body s)) : Inv (runOp i r body s) := by
  by_cases hi : s.opState = .idle
  · have hpost := hb { s with opState := .busy i r } { h.running hi with }
    cases hrun : body.run { s with opState := .busy i r } with
    | ok a t =>
      obtain ⟨ht, -⟩ := hpost.ok hrun
      rw [runOp_ok hi hrun] at hr ⊢
      exact Running.inv { ht with } hr (.inl rfl)
    | error f t =>
      rw [runOp_error hi hrun] at hr ⊢
      exact (hpost.error hrun).inv hr
  · rwa [runOp_notIdle hi]

theorem runProtocol_inv {i : Instr} {r : Nat} {body : Eng OpOutcome} (h : Inv s) (hb : Sound Produced body)
    (hr : RecordWf (runProtocol i r body s)) : Inv (runProtocol i r body s) :=
  runOp_inv h (hb.bind fun _ ho => sound_setOutcome ho) hr

theorem teardown_inv (h : Inv s) : Inv (if s.opState = .idle then { s with opState := .tornDown } else s) := by
  split
  · exact Running.inv { h.running ‹_› with } ⟨h.lineHigh, h.bus, h.budgets⟩ (.inr rfl)
  · exact h

theorem reset_inv (h : Inv s) (hr : RecordWf (if acceptsReset s.opState then s.resetSequence else s)) :
    Inv (if acceptsReset s.opState then s.resetSequence else s) := by
  by_cases ha : acceptsReset s.opState = true
  · rw [if_pos ha, State.resetSequence_eq] at hr ⊢
    exact Running.inv { running_reset with } hr (.inl rfl)
  · rwa [if_neg ha]

/-- Every instruction keeps the invariant: its sequence keeps the registers in their ranges, what it puts on record is in order. -/
theorem exec_inv {i : Instr} (h : Inv s) : ∃ t, exec i s = .next t ∧ (RecordWf t → Inv t) := by
  cases i with
  | beginTxn => exact ⟨_, rfl, runOp_inv h sound_begin⟩
  | writeByte b => exact ⟨_, rfl, runOp_inv h (sound_writeByte b)⟩
  | writeBytes => exact ⟨_, rfl, runOp_inv h (sound_writeBytes _)⟩
  | endTxn => exact ⟨_, rfl, runOp_inv h sound_end⟩
  | readByte => exact ⟨_, rfl, runOp_inv h (sound_readByte.bind fun _ _ => sound_setRxb _)⟩
  | readBytes n => exact ⟨_, rfl, runOp_inv h ((sound_readBytes _).bind fun _ _ => sound_setRxb _)⟩
  | regRead a => exact ⟨_, rfl, runOp_inv h ((sound_regRead a).bind fun _ _ => sound_setRxb _)⟩
  | regReadN a n => exact ⟨_, rfl, runOp_inv h ((sound_regReadN a _).bind fun _ _ => sound_setRxb _)⟩
  | regWrite a v => exact ⟨_, rfl, runOp_inv h (sound_regWrite a v)⟩
  | regWriteN a => exact ⟨_, rfl, runOp_inv h (sound_regWriteN a _)⟩
  | regSetBits a v => exact ⟨_, rfl, runOp_inv h (sound_regSetBits a v)⟩
  | regClearBits a v => exact ⟨_, rfl, runOp_inv h (sound_regClearBits a v)⟩
  | computeCrc => exact ⟨_, rfl, runProtocol_inv h (sound_computeCrc _)⟩
  | communicate => exact ⟨_, rfl, runProtocol_inv h (sound_communicate _)⟩
  | transceive => exact ⟨_, rfl, runProtocol_inv h (sound_transceive _)⟩
  | requestOrWakeup sel => exact ⟨_, rfl, runProtocol_inv h (sound_requestOrWakeup sel)⟩
  | select kvb => exact ⟨_, rfl, runProtocol_inv h (sound_select kvb)⟩
  | isNewCardPresent => exact ⟨_, rfl, runProtocol_inv h sound_isNewCardPresent⟩
  | readCardUid => exact ⟨_, rfl, runProtocol_inv h sound_readCardUid⟩
  | reset => exact ⟨_, rfl, reset_inv h⟩
  | teardown => exact ⟨_, rfl, fun _ => teardown_inv h⟩
  | addrRead a | addrWrite a => exact ⟨_, rfl, runOp_inv h (sound_writeByte _)⟩
  | cmdIdle | cmdMem | cmdGenRandomId | cmdCalcCrc | cmdTransmit | cmdNoCmdChange | cmdReceive | cmdTransceive
  | cmdMfAuthent | cmdSoftReset => exact ⟨_, rfl, runOp_inv h (sound_sendCommand _)⟩
  | reqa | wupa => exact ⟨_, rfl, runProtocol_inv h (sound_shortFrame _)⟩
  | selCl1 | selCl2 | selCl3 | cascadeTag | nvbFull | nvbAnticoll =>
    exact ⟨_, rfl, runOp_inv h (sound_setFrameByte _ _)⟩

theorem hostWrite_inv (w : HostWrite) (h : Inv s) : Inv (hostWrite w s) := by
  unfold hostWrite
  split
  · cases w <;> exact { h with }
  · exact h

theorem invalidRequest_inv (h : Inv s) : Inv (invalidRequest s) := by
  unfold invalidRequest
  split
  · exact { h with noMifareNack := nofun }
  · exact h

/-- Settles O58: by the kinds of step; of an instruction by what its sequence does, of the record by what a step appends. -/
theorem stepKeepsTheInvariant : Obligations.StepKeepsTheInvariant := by
  intro s t h hs
  have hpop : Inv s.popHost := { h with }
  rcases step_cases hs with rfl | ⟨w, rfl⟩ | ⟨i, hi⟩ | rfl
  · exact h
  · exact hostWrite_inv w hpop
  · obtain ⟨u, hu, hinv⟩ := exec_inv (i := i) hpop
    obtain rfl : u = t := Host.Outcome.next.inj (hu.symm.trans hi)
    exact hinv ((step_recorded hs).recordWf h.recordWf)
  · exact invalidRequest_inv hpop

/-! ### `present` after `READ_CARD_UID` -/

/-- `read_card_uid` (R227): the claim is 0, and `present` says whether the outcome is `Ok`. -/
theorem readCardUid_run (h : s.txn.isOpen = false) :
    ∃ o t, readCardUid.run s = .ok o t ∧ t.sel.kvb = 0 ∧ t.flags.present = (o == .ok) := by
  obtain ⟨o, t, x, l, hr, hdone, -⟩ := select_run (kvb := 0) h (by decide)
  refine ⟨o, { t with flags := { t.flags with present := o == .ok } }, ?_, ?_, rfl⟩
  · rw [readCardUid, Eng.bind_ok hr, setPresent, Eng.run_bind_modify, Eng.run_pure]
  · show t.sel.kvb = 0
    rw [hdone.keep]

/-- Settles O47: READ_CARD_UID writes `present` from the outcome it returns; SELECT does not write the group of `present`. -/
theorem readCardUidSaysPresent : Obligations.ReadCardUidSaysPresent := by
  intro s hs
  refine ⟨?_, fun kvb t ht => (everyInstructionKeepsTheRest _ s t ht).1 .present (by simp [writes])⟩
  obtain ⟨o, t, hr, hk, hp⟩ := readCardUid_run (s := { s with opState := .busy .readCardUid 227 }) hs.closed
  refine ⟨_, congrArg Host.Outcome.next (runProtocol_ok hs.idle hr), hk, ?_⟩
  simp [hp]

end Sys2Proof.Machine
end

section
namespace Sys2Proof
open Machine (commandOpcode operandMask)

/-! ### Layer 1: the host words -/

/-- What decodes on layer 1 is well formed and has the `op` of its own code (R106). -/
theorem encode_of_decodeOp {c : Config} {op : BitVec 5} {x : BitVec 27} {i : Instr} (h : decodeOp op x = some i) :
    i.wf = true ∧ ∃ y, encode c i = .host (hostWord op y) := by
  unfold decodeOp at h
  split at h
  -- the unassigned values of `op`
  case h_22 => cases h
  all_goals
    rename_i hop
    replace hop := congrArg (BitVec.ofNat 5) hop
    rw [BitVec.ofNat_toNat, BitVec.setWidth_eq] at hop
    obtain rfl := Option.some.inj h
    exact ⟨rfl, _, by rw [hop]; rfl⟩

theorem field_and (x y : BitVec 27) (lo w : Nat) : field (x &&& y) lo w = field x lo w &&& field y lo w := by
  apply BitVec.eq_of_getLsbD_eq
  intro i hi
  simp [field, hi]

/-- A field that a mask covers is read through it. -/
theorem field_masked (x : BitVec 27) {m : BitVec 27} {lo w : Nat} (h : field m lo w = BitVec.allOnes w) :
    field (x &&& m) lo w = field x lo w := by
  rw [field_and, h, BitVec.and_allOnes]

theorem flag_masked (x : BitVec 27) {m : BitVec 27} {i : Nat} (h : field m i 1 = BitVec.allOnes 1) :
    flag (x &&& m) i = flag x i := by
  rw [flag_eq, field_masked x h, flag_eq]

/-- The decoder reads the operand bits of the format of the `op` alone (R106). -/
theorem decodeOp_masked (op : BitVec 5) (x : BitVec 27) : decodeOp op (x &&& operandMask op) = decodeOp op x := by
  unfold decodeOp
  split
  all_goals
    rename_i hop
    simp (disch := decide) only [operandMask, hop, field_masked, flag_masked]

/-- Settles O3: the decoder reads the operand bits through the mask of the op. -/
theorem unusedOperandBitsAreIgnored : Obligations.UnusedOperandBitsAreIgnored := by
  intro op x y h
  rw [decodeHost_hostWord, decodeHost_hostWord, ← decodeOp_masked op x, h, decodeOp_masked]

/-! ### Layer 2: the address bytes -/

/-- An even byte is the address byte of its own address and mode (R91). -/
theorem addressByte_of_even : ∀ b : Byte, b.getLsbD 0 = false →
    (if modeField b then encodeRead (addrField b) else encodeWrite (addrField b)) = b := by
  decide +kernel

theorem encode_of_decodeAddress {c : Config} {b : Byte} {i : Instr} (h : decodeAddress b = some i) :
    i.wf = true ∧ encode c i = .address b := by
  unfold decodeAddress at h
  split_ifs at h with h0 hm
  all_goals
    obtain rfl := Option.some.inj h
    have hb := addressByte_of_even b (Bool.eq_false_of_not_eq_true h0)
  · exact ⟨rfl, congrArg Code.address ((if_pos hm).symm.trans hb)⟩
  · exact ⟨rfl, congrArg Code.address ((if_neg hm).symm.trans hb)⟩

/-! ### Layer 3: the command bytes -/

/-- A code of the command set encodes to the byte of its opcode (R94). -/
theorem encode_of_commandOpcode {c : Config} {i : Instr} {op : BitVec 4} (h : commandOpcode c i = some op) :
    i.wf = true ∧ encode c i = .command (commandByte op) := by
  cases i with
  | cmdIdle | cmdMem | cmdGenRandomId | cmdCalcCrc | cmdTransmit | cmdNoCmdChange | cmdReceive | cmdTransceive
  | cmdMfAuthent | cmdSoftReset => exact ⟨rfl, congrArg (Code.command ∘ commandByte) (Option.some.inj h)⟩
  | _ => cases h

/-- What decodes on layer 3 is the byte of its opcode (R94). -/
theorem commandOpcode_of_decodeCommand {c : Config} {b : Byte} {i : Instr} (h : decodeCommand c b = some i) :
    ∃ op, commandOpcode c i = some op ∧ b = commandByte op := by
  unfold decodeCommand at h
  iterate 10
    rcases ite_eq_iff.mp h with ⟨hb, hi⟩ | ⟨-, h⟩
    · obtain rfl := Option.some.inj hi
      exact ⟨_, rfl, hb⟩
  cases h

/-- Distinct opcodes are told apart (R94). -/
theorem decodeCommand_commandByte {c : Config} {i : Instr} {op : BitVec 4} (hc : c.commands.Nodup)
    (h : commandOpcode c i = some op) : decodeCommand c (commandByte op) = some i := by
  simp only [Config.commands, List.nodup_cons, List.mem_cons, List.not_mem_nil, or_false, not_or] at hc
  simp only [decodeCommand, commandByte_inj]
  cases i with
  | cmdIdle | cmdMem | cmdGenRandomId | cmdCalcCrc | cmdTransmit | cmdNoCmdChange | cmdReceive | cmdTransceive
  | cmdMfAuthent | cmdSoftReset =>
    obtain rfl := Option.some.inj h
    simp [hc, eq_comm]
  | _ => cases h

/-! ### Layer 4: the short frames and the bytes of a SELECT frame -/

theorem encode_of_decodeShort {c : Config} {b : BitVec 7} {i : Instr} (h : decodeShort c b = some i) :
    i.wf = true ∧ encode c i = .short b := by
  unfold decodeShort at h
  split_ifs at h with hb hb
  all_goals
    obtain rfl := Option.some.inj h
    exact ⟨rfl, congrArg Code.short hb.symm⟩

/-- An anti-collision NVB byte is that of its own two counts, and its byte count is one of R99. -/
theorem nvbByte_of_isAnticollNvb : ∀ b : Byte, Config.isAnticollNvb b = true →
    nvbByte (b.extractLsb' 4 4) (b.extractLsb' 0 3) = b ∧ anticollByteCount (b.extractLsb' 4 4).toNat = true := by
  decide +kernel

theorem encode_of_decodeFrame {c : Config} {b : Byte} {i : Instr} (h : decodeFrame c b = some i) :
    i.wf = true ∧ encode c i = .frame b := by
  unfold decodeFrame at h
  iterate 5
    rcases ite_eq_iff.mp h with ⟨hb, hi⟩ | ⟨-, h⟩
    · obtain rfl := Option.some.inj hi
      exact ⟨rfl, congrArg Code.frame hb.symm⟩
  rcases ite_eq_iff.mp h with ⟨hb, hi⟩ | ⟨-, h⟩
  · obtain rfl := Option.some.inj hi
    obtain ⟨hbyte, hcount⟩ := nvbByte_of_isAnticollNvb b hb
    exact ⟨hcount, congrArg Code.frame hbyte⟩
  · cases h

/-! ### The round trips -/

/-- Settles O2: layer by layer, what decodes is the code the decoder compared it with. -/
theorem encodeDecodeRoundTrip : Obligations.EncodeDecodeRoundTrip := by
  intro c k i h
  cases k with
  | host w => exact encode_of_decodeOp h
  | address b => exact encode_of_decodeAddress h
  | command b =>
    obtain ⟨op, hop, rfl⟩ := commandOpcode_of_decodeCommand h
    exact encode_of_commandOpcode hop
  | short b => exact encode_of_decodeShort h
  | frame b => exact encode_of_decodeFrame h

/-- What a configuration with distinct codes says of each layer (R94, R96, R97, R99). -/
theorem codesDistinct_layers {c : Config} (h : c.codesDistinct = true) :
    c.commands.Nodup ∧ c.piccReqa ≠ c.piccWupa
      ∧ [c.piccSelCl1, c.piccSelCl2, c.piccSelCl3, cascadeTagByte, nvbFullByte].Nodup
      ∧ ∀ b ∈ [c.piccSelCl1, c.piccSelCl2, c.piccSelCl3], Config.isAnticollNvb b = false := by
  simpa [Config.codesDistinct, and_assoc] using h

/-- A host word reads back: its `op` is the operation's, its fields are the operands (R106). -/
theorem decodeHost_encode {c : Config} {i : Instr} {w : HostWord} (h : encode c i = .host w) : decodeHost w = some i := by
  cases i with
  | beginTxn | writeBytes | endTxn | readByte | computeCrc | isNewCardPresent | readCardUid | reset | teardown =>
    obtain rfl := Code.host.inj h
    exact decodeHost_hostWord _ _
  | writeByte | readBytes | regRead | regWriteN | select =>
    obtain rfl := Code.host.inj h
    simp [decodeHost_hostWord, decodeOp, field_place_self]
  | regReadN a n =>
    obtain rfl := Code.host.inj h
    simp [decodeHost_hostWord, decodeOp, field_operandsAN]
  | regWrite a v | regSetBits a v | regClearBits a v =>
    obtain rfl := Code.host.inj h
    simp [decodeHost_hostWord, decodeOp, field_operandsAV]
  | requestOrWakeup sel =>
    obtain rfl := Code.host.inj h
    simp [decodeHost_hostWord, decodeOp, flag_eq, field_place_self]
  | communicate cmd waitMask validBits rxAlign checkCrc recvPresent recvCap =>
    obtain rfl := Code.host.inj h
    simp [decodeHost_hostWord, decodeOp, field_operandsC cmd waitMask validBits rxAlign checkCrc recvPresent recvCap]
  | transceive validBits rxAlign checkCrc recvPresent recvCap =>
    obtain rfl := Code.host.inj h
    simp [decodeHost_hostWord, decodeOp, field_operandsC 0#4 0#8 validBits rxAlign checkCrc recvPresent recvCap]
  | _ => cases h

theorem decodeAddress_encode {c : Config} {i : Instr} {b : Byte} (h : encode c i = .address b) :
    decodeAddress b = some i := by
  cases i with
  | addrRead a =>
    obtain rfl := Code.address.inj h
    exact decodeAddress_encodeRead a
  | addrWrite a =>
    obtain rfl := Code.address.inj h
    exact decodeAddress_encodeWrite a
  | _ => cases h

theorem commandOpcode_of_encode {c : Config} {i : Instr} {b : Byte} (h : encode c i = .command b) :
    ∃ op, commandOpcode c i = some op ∧ b = commandByte op := by
  cases i with
  | cmdIdle | cmdMem | cmdGenRandomId | cmdCalcCrc | cmdTransmit | cmdNoCmdChange | cmdReceive | cmdTransceive
  | cmdMfAuthent | cmdSoftReset => exact ⟨_, rfl, (Code.command.inj h).symm⟩
  | _ => cases h

theorem decodeShort_encode {c : Config} {i : Instr} {b : BitVec 7} (hc : c.piccReqa ≠ c.piccWupa)
    (h : encode c i = .short b) : decodeShort c b = some i := by
  cases i with
  | reqa =>
    obtain rfl := Code.short.inj h
    exact if_pos rfl
  | wupa =>
    obtain rfl := Code.short.inj h
    simp [decodeShort, hc.symm]
  | _ => cases h

/-- An anti-collision NVB byte is none of the five other bytes of a SELECT frame (R99). -/
theorem decodeFrame_of_isAnticollNvb {c : Config} {b : Byte} (hb : Config.isAnticollNvb b = true)
    (hc : ∀ b ∈ [c.piccSelCl1, c.piccSelCl2, c.piccSelCl3], Config.isAnticollNvb b = false) :
    decodeFrame c b = some (.nvbAnticoll (b.extractLsb' 4 4) (b.extractLsb' 0 3)) := by
  have ne {k : Byte} (hk : Config.isAnticollNvb k = false) : b ≠ k := by
    rintro rfl
    exact absurd hb (by rw [hk]; decide)
  rw [decodeFrame, if_neg (ne (hc _ (by simp))), if_neg (ne (hc _ (by simp))), if_neg (ne (hc _ (by simp))),
    if_neg (ne (by decide)), if_neg (ne (by decide)), if_pos hb]

theorem decodeFrame_encode {c : Config} {i : Instr} {b : Byte}
    (hd : [c.piccSelCl1, c.piccSelCl2, c.piccSelCl3, cascadeTagByte, nvbFullByte].Nodup)
    (hn : ∀ b ∈ [c.piccSelCl1, c.piccSelCl2, c.piccSelCl3], Config.isAnticollNvb b = false)
    (hw : i.wf = true) (h : encode c i = .frame b) : decodeFrame c b = some i := by
  simp only [List.nodup_cons, List.mem_cons, List.not_mem_nil, or_false, not_or] at hd
  cases i with
  | selCl1 | selCl2 | selCl3 | cascadeTag | nvbFull =>
    obtain rfl := Code.frame.inj h
    grind [decodeFrame]
  | nvbAnticoll byteCount bitCount =>
    obtain rfl := Code.frame.inj h
    obtain ⟨h1, h2, h3⟩ := nvbByte_fields byteCount bitCount
    rw [decodeFrame_of_isAnticollNvb (h3.trans hw) hn, h1, h2]
  | _ => cases h

/-- Settles O1: layer by layer, the decoder reads back the operands, and tells the layer's codes apart. -/
theorem decodeEncodeRoundTrip : Obligations.DecodeEncodeRoundTrip := by
  intro c i hc hw
  obtain ⟨hcommands, hshort, hframe, hnvb⟩ := codesDistinct_layers hc
  cases hk : encode c i with
  | host w => exact decodeHost_encode hk
  | address b => exact decodeAddress_encode hk
  | command b =>
    obtain ⟨op, hop, rfl⟩ := commandOpcode_of_encode hk
    exact decodeCommand_commandByte hcommands hop
  | short b => exact decodeShort_encode hshort hk
  | frame b => exact decodeFrame_encode hframe hnvb hw hk

end Sys2Proof
end

section
namespace Sys2Proof

/-! ### The bytes and words of the encoding tables -/

theorem encodeRead_toNat : ∀ a : Addr, (encodeRead a).toNat = 2 * a.toNat + 0x80 := by decide

theorem encodeWrite_toNat : ∀ a : Addr, (encodeWrite a).toNat = 2 * a.toNat := by decide

/-- The fields of an address byte are the address and the mode (R91). -/
theorem addressByte_fields : ∀ a : Addr, addrField (encodeRead a) = a ∧ addrField (encodeWrite a) = a
    ∧ modeField (encodeRead a) = true ∧ modeField (encodeWrite a) = false := by decide

/-- Settles O4: the two numbers, the two fields, and what the decoder reads. -/
theorem addressByte : Obligations.AddressByte := by
  intro a
  obtain ⟨hread, hwrite, hmode, hmode'⟩ := addressByte_fields a
  exact ⟨encodeRead_toNat a, encodeWrite_toNat a, hread, hwrite, hmode, hmode', decodeAddress_encodeRead a,
    decodeAddress_encodeWrite a⟩

/-- Settles O5: of all pairs of 3-bit operands. -/
theorem bitFramingByte : Obligations.BitFramingByte := by
  unfold Obligations.BitFramingByte
  decide

/-- Settles O6: the decoder runs on each word. -/
theorem sampleWordsDecode : Obligations.SampleWordsDecode := by
  unfold Obligations.SampleWordsDecode
  decide

/-- Settles O7: the code of each outcome and of each reason, by the two tables. -/
theorem outcomeAndReasonCodes : Obligations.OutcomeAndReasonCodes := ⟨rfl, rfl⟩

end Sys2Proof
end

section
namespace Sys2Proof.Machine
variable {s t : State} {i : Instr}

/-! ### Every instruction has a next state; only RESET acts outside IDLE -/

/-- No instruction faults or is refused, in any state (R278). -/
theorem exec_total (i : Instr) (s : State) : ∃ t, exec i s = .next t := by
  by_cases hi : i = .reset
  · subst hi
    exact ⟨_, rfl⟩
  · obtain ⟨t, ht, -⟩ := (Untouched.writers (writes i)).exec_next hi s
    exact ⟨t, ht⟩

/-- The step's case of an issued code that is nothing on its layer (R108). -/
theorem step_of_issue_none {k : Code} {rest : List HostAction} (hq : s.inp.host = .issue k :: rest)
    (hd : decode s.cfg k = none) : step s = noInstruction k s.popHost := by
  simp only [step, hq, hd]

theorem invalidRequest_host (s : State) : (invalidRequest s).inp.host = s.inp.host := by
  unfold invalidRequest
  split <;> rfl

/-- Settles O11: a word that decodes runs its instruction, which has a next state and keeps the queue; one that does not is
`Invalid`. -/
theorem everyRequestHasAStep : Obligations.EveryRequestHasAStep := by
  intro s w rest hq
  have hrest : s.popHost.inp.host = rest := by rw [State.popHost_of_host_cons hq]
  cases hd : decode s.cfg (.host w) with
  | some i =>
    obtain ⟨t, ht⟩ := exec_total i s.popHost
    obtain ⟨-, -, hhost⟩ := everyInstructionKeepsTheRest i _ t ht
    exact ⟨t, (step_of_issue_decode hq hd).trans ht, hhost.trans hrest⟩
  | none => exact ⟨_, step_of_issue_none hq hd, (invalidRequest_host _).trans hrest⟩

theorem noInstruction_refused {k : Code} {r : Refusal} (h : noInstruction k s = .refused r) :
    r = .noSuchCode ∧ ∀ w, k ≠ .host w := by
  cases k with
  | host w => cases h
  | address b | command b | short b | frame b => exact ⟨(Host.Outcome.refused.inj h).symm, nofun⟩

/-- Settles O12: an instruction has a next state, so a refusal comes from a code that decodes to nothing and is no host word. -/
theorem onlyUnknownBytesAreRefused : Obligations.OnlyUnknownBytesAreRefused := by
  intro s r h
  cases hq : s.inp.host with
  | nil => simp [step, hq] at h
  | cons a rest =>
    cases a with
    | write w =>
      rw [step_of_write hq] at h
      cases h
    | issue k =>
      cases hd : decode s.cfg k with
      | some i =>
        obtain ⟨t, ht⟩ := exec_total i s.popHost
        rw [step_of_issue_decode hq hd, ht] at h
        cases h
      | none =>
        obtain ⟨hr, hk⟩ := noInstruction_refused ((step_of_issue_none hq hd).symm.trans h)
        exact ⟨hr, k, rest, rfl, hd, hk⟩

/-- Settles O10: the word is issued at the head of the queue, decodes under the default configuration, and is taken from it. -/
theorem fetchWordRuns : Obligations.FetchWordRuns := by
  intro s nbits w i hc hd
  have hk : decode s.cfg (codeOfTableWord s.cfg nbits w) = some i := by
    rw [hc]
    exact hd
  exact step_of_issue_decode (s := s.withFetchWord nbits w) rfl hk

/-- Settles O15: a host operation, a code and TEARDOWN are all accepted in IDLE alone. -/
theorem requestsOnlyInIdle : Obligations.RequestsOnlyInIdle := by
  intro i s h hr
  cases i with
  | reset => exact absurd rfl hr
  | teardown => exact congrArg Host.Outcome.next (if_neg h)
  | computeCrc | communicate | transceive | requestOrWakeup | select | isNewCardPresent | readCardUid | reqa | wupa =>
    exact congrArg Host.Outcome.next (runProtocol_notIdle h)
  | _ => exact congrArg Host.Outcome.next (runOp_notIdle h)

/-! ### compute_crc and communicate at their entry -/

/-- Settles O35: each failure comes from the entry checks, on the state with the operands latched. -/
theorem communicateEntryChecks : Obligations.CommunicateEntryChecks := by
  intro cmd waitMask validBits rxAlign recvPresent recvCap s hi
  have hlen : 64 < s.hostBuf.txLen.val → 64 < (txData s).length := by rw [length_txData]; exact id
  refine ⟨congrArg Host.Outcome.next (runProtocol_error hi (communicate_unsupported rfl)),
    congrArg Host.Outcome.next (runProtocol_error hi ((transceive_run _ _).trans (communicate_unsupported rfl))),
    fun h64 => ⟨congrArg Host.Outcome.next (runProtocol_error hi (communicate_overflow rfl (hlen h64))),
      congrArg Host.Outcome.next
        (runProtocol_error hi ((transceive_run _ _).trans (communicate_overflow rfl (hlen h64))))⟩⟩

/-! ### The short frames -/

/-- A code that is the exchange of a short frame, standing alone: the exchange, and the return of its outcome (R101, R202). -/
theorem runProtocol_shortFrame (i : Instr) (r : Nat) (op : BitVec 7) (hs : Ready s) :
    ∃ o u x data, runProtocol i r (shortFrame op) s = u.returned o ∧ CommDone (shortArgs s.cfg op) s o u x data := by
  obtain ⟨o, u, x, data, hrun, hdone⟩ := shortFrame_run (s := { s with opState := .busy i r }) op hs.closed
  exact ⟨o, u, x, data, runProtocol_ok hs.idle hrun, hdone.congr rfl rfl⟩

/-- Settles O40: each code is the exchange of its short frame. -/
theorem shortFrameCodes : Obligations.ShortFrameCodes := by
  intro s hs
  obtain ⟨o, u, x, data, hreqa, hdone⟩ := runProtocol_shortFrame .reqa 101 s.cfg.piccReqa hs
  obtain ⟨o', u', x', data', hwupa, hdone'⟩ := runProtocol_shortFrame .wupa 101 s.cfg.piccWupa hs
  exact ⟨⟨o, u, x, data, congrArg Host.Outcome.next hreqa, hdone⟩,
    o', u', x', data', congrArg Host.Outcome.next hwupa, hdone'⟩

/-! ### The address codes and the frame codes -/

theorem byteAt_writeAt_singleton {n p : Nat} (v : Vector Byte n) (b : Byte) (hp : p < n) (j : Nat) :
    byteAt (writeAt v p [b]) j = if j = p then b else byteAt v j := by
  by_cases hj : j = p
  · subst hj
    rw [if_pos rfl]
    exact byteAt_set_self v b hp
  · rw [if_neg hj]
    exact byteAt_set_ne v b (Ne.symm hj)

/-- An operation that appends one byte: its two fatal failures, and the byte at `pos` (R132). -/
theorem runOp_writeByte (i : Instr) (r : Nat) (b : Byte) (hi : s.opState = .idle) :
    (s.txn.isOpen = false → runOp i r (writeByte b) s = s.fatalState .writeWhileClosed)
    ∧ (s.txn.isOpen = true → s.txn.pos.val = 65 → runOp i r (writeByte b) s = s.fatalState .overflow)
    ∧ (s.txn.isOpen = true → s.txn.pos.val < 65 → ∃ wb pos,
        runOp i r (writeByte b) s = { s with txn := { s.txn with wb := wb, pos := pos } }
        ∧ pos.val = s.txn.pos.val + 1
        ∧ ∀ j, byteAt wb j = if j = s.txn.pos.val then b else byteAt s.txn.wb j) := by
  refine ⟨fun ho => runOp_error hi (writeByte_closed b ho), fun ho hp => runOp_error hi (writeByte_full b ho hp),
    fun ho hp => ?_⟩
  refine ⟨writeAt s.txn.wb s.txn.pos [b], Fin.ofNat 66 (s.txn.pos + 1), ?_, Nat.mod_eq_of_lt (by omega),
    byteAt_writeAt_singleton _ b hp⟩
  rw [runOp_ok hi (writeByte_open b ho hp), ← hi]

/-- Settles O52: the code appends its address byte, whose number is the one of R91. -/
theorem addressCodesAppend : Obligations.AddressCodesAppend := by
  rintro s a i b hi (⟨rfl, hb⟩ | ⟨rfl, hb⟩)
  · obtain rfl : b = encodeRead a := BitVec.eq_of_toNat_eq (hb.trans (encodeRead_toNat a).symm)
    simpa only [exec, execAddrRead, Host.Outcome.next.injEq] using runOp_writeByte (.addrRead a) 91 _ hi
  · obtain rfl : b = encodeWrite a := BitVec.eq_of_toNat_eq (hb.trans (encodeWrite_toNat a).symm)
    simpa only [exec, execAddrWrite, Host.Outcome.next.injEq] using runOp_writeByte (.addrWrite a) 91 _ hi

theorem setIfInBounds_eq_set {n : Nat} (v : Vector Byte n) (k : Fin n) (b : Byte) : v.setIfInBounds k b = v.set k b := by
  ext j hj : 1
  simp [Vector.getElem_set, Vector.getElem_setIfInBounds]

/-- The NVB byte of the two counts, as a number (R99). -/
theorem nvbByte_eq : ∀ (byteCount : BitVec 4) (bitCount : BitVec 3),
    nvbByte byteCount bitCount = BitVec.ofNat 8 (16 * byteCount.toNat + bitCount.toNat) := by decide

/-- Each of the six codes of a SELECT frame runs the write of its byte at its place (R97, R99, R100). -/
theorem exec_frameCode {k : Fin 9} {b : Byte} (h : frameByte s.cfg i = some (k, b)) :
    ∃ r, exec i s = .next (runOp i r (setFrameByte k b) s) := by
  cases i with
  | selCl1 | selCl2 | selCl3 | cascadeTag | nvbFull =>
    cases h
    exact ⟨_, rfl⟩
  | nvbAnticoll byteCount bitCount =>
    cases h
    exact ⟨99, by rw [← nvbByte_eq]; rfl⟩
  | _ => cases h

/-- Settles O54: the write of the byte at its place in the frame, and the return. -/
theorem frameCodesWriteTheFrame : Obligations.FrameCodesWriteTheFrame := by
  intro i s k b hi h
  obtain ⟨r, hr⟩ := exec_frameCode h
  rw [hr, runOp_ok hi (t := { s with opState := .busy i r, buf := { s.buf with fb := s.buf.fb.setIfInBounds k b } }) rfl, ← hi,
    setIfInBounds_eq_set]

/-! ### The frames of a round -/

/-- The NVB byte of an anti-collision round (R99, R213). -/
theorem nvbByte_knownBits {k : Nat} (hk : k < 32) :
    (nvbByte (BitVec.ofNat 4 (2 + k / 8)) (BitVec.ofNat 3 (k % 8))).toNat = 16 * (2 + k / 8) + k % 8 := by
  rw [nvbByte_eq]
  simp only [BitVec.toNat_ofNat]
  omega

theorem anticollFrame_txLast (s : State) : (anticollFrame s).sel.txLast.toNat = s.sel.knownBits.toNat % 8 := by
  simp only [anticollFrame, BitVec.toNat_ofNat]
  omega

/-- The NVB byte and the BCC of a full-select frame; the opcode and the data bytes stay (R212). -/
theorem byteAt_fullFrame (s : State) (j : Nat) : byteAt (fullFrame s).buf.fb j =
    if j = 1 then nvbFullByte else if j = 6 then bcc s.buf.fb else byteAt s.buf.fb j := by
  have hbcc : bcc (s.buf.fb.setIfInBounds 1 nvbFullByte) = bcc s.buf.fb := by simp [bcc, byteAt_set]
  simp only [fullFrame, hbcc, byteAt_set]
  grind

/-- The CRC, low byte first, behind the seven bytes of a full-select frame (R212). -/
theorem byteAt_fullFrameCrc (s : State) (j : Nat) : byteAt (fullFrameCrc s).buf.fb j =
    if j = 7 then byteAt s.buf.crc 0 else if j = 8 then byteAt s.buf.crc 1 else byteAt s.buf.fb j := by
  simp only [fullFrameCrc, byteAt_set]
  grind

/-- Settles O49: the fields of the two frames, and what each leaves. -/
theorem roundFrames : Obligations.RoundFrames := by
  refine fun s => ⟨fun hk => ?_, ?_⟩
  · exact ⟨anticollFrame_txLast s, anticollFrame_idx hk, anticollFrame_sendLen hk,
      (congrArg _ (byteAt_set_self _ _ (by decide))).trans (nvbByte_knownBits hk), fun j hj => byteAt_set_ne _ _ hj.symm, rfl⟩
  · have hfb : ∀ j, byteAt (fullFrameCrc (fullFrame s)).buf.fb j = if j = 7 then byteAt s.buf.crc 0
        else if j = 8 then byteAt s.buf.crc 1 else byteAt (fullFrame s).buf.fb j := byteAt_fullFrameCrc _
    simp only [byteAt_fullFrame] at hfb
    refine ⟨hfb 1, hfb 6, hfb 7, hfb 8, fun j hj => ?_, rfl, rfl, rfl⟩
    rw [hfb, if_neg (by omega), if_neg (by omega), if_neg (by omega), if_neg (by omega)]

end Sys2Proof.Machine
end

section
namespace Sys2Proof.Machine
variable {s t u : State} {i : Instr} {kvb : Byte} {o : OpOutcome} {x : List Exchange} {l : List Nat}

/-! ### `SELECT` and `READ_CARD_UID` as operations -/

/-- The state a select leaves when its levels have led from `s` to `u` with the outcome `o` (R227, R270). -/
def State.selected (i : Instr) (o : OpOutcome) (s u : State) : State :=
  { u.returned o with flags := { s.flags with
    outcome := o, present := if i = .readCardUid then decide (o = .ok) else s.flags.present } }

/-- `SELECT` with a legal claim, and `READ_CARD_UID`: the levels' way from level 1, and the return (R206, R224, R227). -/
theorem exec_runsSelect (hi : RunsSelect i kvb) (hs : Ready s) :
    ∃ o u x l, exec i s = .next (s.selected i o u)
      ∧ LevelsDone 1 { s with sel := { s.sel with kvb := kvb, level := 1 } } o u x l
      ∧ l.count tCommMs ≤ 99 ∧ l.count tCrcMs ≤ 6
      ∧ ∃ b, LevelsRun 1 { s with opState := b, sel := { s.sel with kvb := kvb, level := 1 } } o u := by
  have hkvb : kvb.toNat ≤ 80 := by
    rcases hi with ⟨-, h⟩ | ⟨-, rfl⟩
    · exact h
    · decide
  rcases hi with ⟨rfl, -⟩ | ⟨rfl, rfl⟩
  · obtain ⟨o, u, x, l, hrun, hd, h26, h89, b, hl⟩ :=
      select_run (s := { s with opState := .busy (.select kvb) 204 }) hs.closed hkvb
    refine ⟨o, u, x, l, congrArg Host.Outcome.next ((runProtocol_ok hs.idle hrun).trans ?_),
      { hd with made := hd.made.left rfl rfl rfl }, h26, h89, b, hl⟩
    rw [hd.keep]
    rfl
  · obtain ⟨o, u, x, l, hrun, hd, h26, h89, b, hl⟩ :=
      select_run (s := { s with opState := .busy .readCardUid 227 }) hs.closed hkvb
    have hcard : readCardUid.run { s with opState := .busy .readCardUid 227 }
        = .ok o { u with flags := { u.flags with present := o == .ok } } := by
      rw [readCardUid, Eng.bind_ok hrun, setPresent, Eng.run_bind_modify, Eng.run_pure]
    refine ⟨o, u, x, l, congrArg Host.Outcome.next ((runProtocol_ok hs.idle hcard).trans ?_),
      { hd with made := hd.made.left rfl rfl rfl }, h26, h89, b, hl⟩
    rw [hd.keep]
    rfl

/-- What a select that answered `t` has done. -/
theorem levelsDone_of_exec (hi : RunsSelect i kvb) (hs : Ready s) (h : exec i s = .next t) :
    ∃ o u x l, t = s.selected i o u ∧ u.cfg = s.cfg ∧ Made s t x
      ∧ LevelsDone 1 { s with sel := { s.sel with kvb := kvb, level := 1 } } o u x l := by
  obtain ⟨o, u, x, l, hexec, hd, -⟩ := exec_runsSelect hi hs
  obtain rfl := Host.Outcome.next.inj (hexec.symm.trans h)
  exact ⟨o, u, x, l, rfl, by rw [hd.keep], hd.made.congr rfl rfl rfl rfl rfl rfl, hd⟩

/-! ### What `select` records and what it sent -/

/-- Settles O43: the size and the SAK are written on `Ok` alone, and of `U.b` the bytes of the levels alone. -/
theorem selectFailureKeepsSizeAndSak : Obligations.SelectFailureKeepsSizeAndSak := by
  intro i kvb s t hi hs h
  obtain ⟨o, u, x, l, rfl, -, -, hd⟩ := levelsDone_of_exec hi hs h
  exact ⟨hd.failure, hd.above⟩

theorem level_cases {v : BitVec 3} (h : 1 ≤ v.toNat ∧ v.toNat ≤ 3) : v = 1 ∨ v = 2 ∨ v = 3 := by
  revert v
  decide

theorem levelUidBytes_tag {fb : Vector Byte 9} {level : Nat} (h : level < 3) (htag : byteAt fb 2 = 0x88) :
    levelUidBytes fb level = slice fb 3 3 :=
  if_pos (by simp [maxLevel, cascadeTagByte, h, htag])

theorem levelUidBytes_noTag {fb : Vector Byte 9} {level : Nat} (h : level = 3 ∨ byteAt fb 2 ≠ 0x88) :
    levelUidBytes fb level = slice fb 2 4 := by
  refine if_neg ?_
  rcases h with rfl | h
  · simp [maxLevel]
  · simpa [cascadeTagByte] using fun _ => h

theorem getD_slice {n i len j : Nat} (v : Vector Byte n) (hj : j < len) (hn : i + len ≤ n) :
    (slice v i len).getD j 0 = byteAt v (i + j) := by
  rw [List.getD_eq_getElem _ _ (by rw [length_slice]; omega), getElem_slice]

/-- The bytes of the last level, where they are a slice of the frame (R219). -/
theorem Selected.bytes_of_slice {k len j : Nat} (h : Selected t x)
    (hb : levelUidBytes t.buf.fb t.sel.level.toNat = slice t.buf.fb k len) (hj : j < len) (hn : k + len ≤ 9) :
    byteAt t.uid.b (3 * (t.sel.level.toNat - 1) + j) = byteAt t.buf.fb (k + j) := by
  have hbytes := h.bytes j (by rw [hb, length_slice]; omega)
  rwa [hb, getD_slice _ hj hn] at hbytes

/-- Settles O42: the levels below the last one are completed ones; on `Ok` the last one is as `Selected` says. -/
theorem selectRecordsTheUid : Obligations.SelectRecordsTheUid := by
  intro i kvb s t hi hs h
  obtain ⟨o, u, x, l, rfl, hcfg, hmade, hd⟩ := levelsDone_of_exec hi hs h
  refine ⟨⟨x, hmade, fun n h1 hn => hcfg ▸ hd.completed n h1 hn⟩, fun ho => ?_⟩
  have hsel := hd.success ho
  have hsak : u.uid.sak &&& 0x04 = 0 := by
    by_contra hne
    exact absurd (sakContinues_iff.mpr hne) (by simp [hsel.complete])
  exact ⟨level_cases hsel.level, hsel.size, hsel.sak, hsak,
    fun h3 htag _ hj => hsel.bytes_of_slice (levelUidBytes_tag h3 htag) hj (by decide),
    fun htag _ hj => hsel.bytes_of_slice (levelUidBytes_noTag htag) hj (by decide)⟩

/-- Settles O45: `Selected` says of the last frame what `FullSent` says of one that was sent whole. -/
theorem selectSendsTheFullFrame : Obligations.SelectSendsTheFullFrame := by
  intro i kvb s t hi hs h ho
  obtain ⟨o, u, x, l, rfl, hcfg, hmade, hd⟩ := levelsDone_of_exec hi hs h
  have hsel := hd.success ho
  obtain ⟨hnvb, hbcc, hsent, hcrc⟩ := hsel.frame
  have hop := hsel.opcode
  rw [hcfg] at hop hsent hcrc
  refine ⟨fun h => ?_, fun h => ?_, fun h => ?_, hnvb, hbcc, x, hmade, hsent, hcrc⟩
  all_goals
    rw [show u.sel.level = _ from h] at hop
    exact hop

end Sys2Proof.Machine
end

section
namespace Sys2Proof.Machine
variable {s t : State} {i : Instr} {r : Nat} {α β : Type}

/-! ### A transaction left open -/

/-- A sequence dies of `BeginWhileOpen` before any transport activity (R316): at most `op_state`, the protocol buffers and the
scalars of `select` and of the sequencer were written before its first register operation. -/
def DiesAtBegin (m : Eng α) (s : State) : Prop :=
  ∃ t : State, m.run s = .error .beginWhileOpen (t.fatalState .beginWhileOpen)
    ∧ t = { s with opState := t.opState, buf := t.buf, sel := t.sel, com := t.com }

/-- A sequence that dies with nothing written. -/
theorem DiesAtBegin.of_error {m : Eng α} (h : m.run s = .error .beginWhileOpen (s.fatalState .beginWhileOpen)) :
    DiesAtBegin m s := ⟨s, h, rfl⟩

theorem DiesAtBegin.bind {m : Eng α} (h : DiesAtBegin m s) (f : α → Eng β) : DiesAtBegin (m >>= f) s := by
  obtain ⟨t, hm, ht⟩ := h
  exact ⟨t, Eng.bind_error hm, ht⟩

theorem DiesAtBegin.after_get {f : State → Eng α} (h : DiesAtBegin (f s) s) : DiesAtBegin (get >>= f) s := h

/-- A move to a rule before the sequence writes `op_state` alone. -/
theorem DiesAtBegin.after_atRule {f : Unit → Eng α} (h : DiesAtBegin (f ()) (s.toRule r)) : DiesAtBegin (atRule r >>= f) s := by
  obtain ⟨t, hm, ht⟩ := h
  exact ⟨t, hm, ht⟩

theorem computeCrc_diesAtBegin {d : List Byte} (ho : s.txn.isOpen = true) (hd : d.length ≤ 64) :
    DiesAtBegin (computeCrc d) s := ⟨_, computeCrc_open ho hd, rfl⟩

theorem communicate_diesAtBegin {a : CommArgs} (ho : s.txn.isOpen = true) (hc : a.checkCrc = false)
    (hd : a.send.length ≤ 64) : DiesAtBegin (communicate a) s := ⟨_, communicate_open hc hd ho, rfl⟩

theorem transceive_diesAtBegin {a : CommArgs} (ho : s.txn.isOpen = true) (hc : a.checkCrc = false)
    (hd : a.send.length ≤ 64) : DiesAtBegin (transceive a) s :=
  communicate_diesAtBegin (a := a.transceive s.cfg) ho hc hd

theorem shortFrame_diesAtBegin (op : BitVec 7) (ho : s.txn.isOpen = true) : DiesAtBegin (shortFrame op) s := by
  obtain ⟨t, hm, ht⟩ := transceive_diesAtBegin
    (s := { s.toRule 202 with com := { s.com with validBits := BitVec.ofNat 3 shortFrameBits } })
    (a := innerArgs [op.setWidth 8] .atqa (BitVec.ofNat 7 atqaLen) (BitVec.ofNat 3 shortFrameBits) 0) ho rfl
    (by simp [innerArgs])
  exact ⟨t, hm, ht⟩

theorem requestOrWakeup_diesAtBegin (sel : Bool) (ho : s.txn.isOpen = true) : DiesAtBegin (requestOrWakeup sel) s :=
  .after_get (.after_atRule ((DiesAtBegin.of_error (regClearBits_open _ _ (by exact ho))).bind _))

theorem modeDefaults_diesAtBegin (ho : s.txn.isOpen = true) : DiesAtBegin modeDefaults s :=
  .after_atRule (.after_get ((DiesAtBegin.of_error (regWrite_open _ _ (by exact ho))).bind _))

theorem isNewCardPresent_diesAtBegin (ho : s.txn.isOpen = true) : DiesAtBegin isNewCardPresent s :=
  (modeDefaults_diesAtBegin ho).bind _

theorem select_diesAtBegin {kvb : Byte} (ho : s.txn.isOpen = true) (hk : kvb.toNat ≤ 80) : DiesAtBegin (select kvb) s := by
  obtain ⟨t, hm, ht, -⟩ := select_open ho hk
  refine ⟨t, hm, ?_⟩
  rw [ht]

theorem txData_ne_nil (h : 1 ≤ s.hostBuf.txLen.val) : txData s ≠ [] := by
  rw [← List.length_pos_iff, length_txData]
  exact h

/-- What the host sees of an operation that died of a transaction left open (R143 item 4, R278, R316). -/
structure DeadAtBegin (s t : State) : Prop where
  opState : t.opState = .fatal
  fatal : t.flags.fatal = true
  reason : t.flags.fatalReason = .beginWhileOpen
  out : t.out = s.out
  inp : t.inp = s.inp
  txn : t.txn = s.txn
  uid : t.uid = s.uid
  hostBuf : t.hostBuf = s.hostBuf
  outcome : t.flags.outcome = s.flags.outcome

theorem runOp_dead {body : Eng Unit} (hi : s.opState = .idle) (h : DiesAtBegin body { s with opState := .busy i r }) :
    DeadAtBegin s (runOp i r body s) := by
  obtain ⟨t, hm, ht⟩ := h
  rw [runOp_error hi hm, ht]
  exact ⟨rfl, rfl, rfl, rfl, rfl, rfl, rfl, rfl, rfl⟩

theorem runProtocol_dead {body : Eng OpOutcome} (hi : s.opState = .idle)
    (h : DiesAtBegin body { s with opState := .busy i r }) : DeadAtBegin s (runProtocol i r body s) :=
  runOp_dead hi (h.bind _)

/-- Every request that reaches a register operation dies at the first one. -/
theorem exec_dead (hi : s.opState = .idle) (ho : s.txn.isOpen = true) (h : ReachesTransport i s) :
    ∃ t, exec i s = .next t ∧ DeadAtBegin s t := by
  have hlen : (txData s).length = s.hostBuf.txLen.val := length_txData s
  have hopen (b : OpState) : ({ s with opState := b } : State).txn.isOpen = true := ho
  cases i with
  | regRead a => exact ⟨_, rfl, runOp_dead hi ((DiesAtBegin.of_error (regRead_open a (hopen _))).bind _)⟩
  | regReadN a n =>
    obtain ⟨h1, h64⟩ := h
    exact ⟨_, rfl, runOp_dead hi ((DiesAtBegin.of_error (regReadN_open a (hopen _) h1 h64)).bind _)⟩
  | regWrite a v => exact ⟨_, rfl, runOp_dead hi (.of_error (regWrite_open a v ho))⟩
  | regWriteN a =>
    obtain ⟨h1, h64⟩ := h
    exact ⟨_, rfl, runOp_dead hi (.of_error (regWriteN_open a ho (txData_ne_nil h1) (hlen.trans_le h64)))⟩
  | regSetBits a m => exact ⟨_, rfl, runOp_dead hi (.of_error (regSetBits_open a m ho))⟩
  | regClearBits a m => exact ⟨_, rfl, runOp_dead hi (.of_error (regClearBits_open a m ho))⟩
  | computeCrc => exact ⟨_, rfl, runProtocol_dead hi (computeCrc_diesAtBegin ho (hlen.trans_le h))⟩
  | communicate =>
    obtain ⟨hc, h64⟩ := h
    exact ⟨_, rfl, runProtocol_dead hi (communicate_diesAtBegin ho hc (hlen.trans_le h64))⟩
  | transceive =>
    obtain ⟨hc, h64⟩ := h
    exact ⟨_, rfl, runProtocol_dead hi (transceive_diesAtBegin ho hc (hlen.trans_le h64))⟩
  | requestOrWakeup sel => exact ⟨_, rfl, runProtocol_dead hi (requestOrWakeup_diesAtBegin sel ho)⟩
  | select kvb => exact ⟨_, rfl, runProtocol_dead hi (select_diesAtBegin ho h)⟩
  | isNewCardPresent => exact ⟨_, rfl, runProtocol_dead hi (isNewCardPresent_diesAtBegin ho)⟩
  | readCardUid => exact ⟨_, rfl, runProtocol_dead hi ((select_diesAtBegin (kvb := 0) (hopen _) (by decide)).bind _)⟩
  | cmdIdle | cmdMem | cmdGenRandomId | cmdCalcCrc | cmdTransmit | cmdNoCmdChange | cmdReceive | cmdTransceive
  | cmdMfAuthent | cmdSoftReset => exact ⟨_, rfl, runOp_dead hi (.of_error (sendCommand_open _ ho))⟩
  | reqa | wupa => exact ⟨_, rfl, runProtocol_dead hi (shortFrame_diesAtBegin _ ho)⟩
  | beginTxn | writeByte | writeBytes | endTxn | readByte | readBytes | reset | teardown | addrRead | addrWrite | selCl1
  | selCl2 | selCl3 | cascadeTag | nvbFull | nvbAnticoll => exact h.elim

/-- Settles O31: what is written before the first register operation is none of what the statement lists. -/
theorem openTransactionIsFatal : Obligations.OpenTransactionIsFatal := by
  intro i s hi ho h
  obtain ⟨t, ht, hd⟩ := exec_dead hi ho h
  exact ⟨t, ht, hd.opState, hd.fatal, hd.reason, hd.out, hd.inp, hd.txn, hd.uid, hd.hostBuf, hd.outcome⟩

end Sys2Proof.Machine
end

section
namespace Sys2Proof.Machine
variable {s t : State} {i : Instr} {r : Nat} {α : Type}

/-! ### The transaction primitives as host operations -/

/-- An operation whose sequence leads to `t` but for `op_state`: the return to IDLE (R24, R130). -/
theorem runOp_leads {body : Eng Unit} (hi : s.opState = .idle) (ht : t.opState = .idle)
    (hb : body.run { s with opState := .busy i r } = .ok () { t with opState := .busy i r }) : runOp i r body s = t := by
  rw [runOp_ok hi hb, ← ht]

/-- An operation that reads, and puts what it read in `RXB` (R130). -/
theorem runOp_setRxb {m : Eng α} {f : α → List Byte} {a : α} (hi : s.opState = .idle) (ht : t.opState = .idle)
    (hm : m.run { s with opState := .busy i r } = .ok a { t with opState := .busy i r }) :
    runOp i r (do setRxb (f (← m))) s
      = { t with hostBuf := { t.hostBuf with rxb := writeAt t.hostBuf.rxb 0 (f a) } } :=
  runOp_leads hi ht (Eng.bind_ok hm)

/-- An operation whose read dies. -/
theorem runOp_bind_error {m : Eng α} {f : α → Eng Unit} {e : FatalReason} (hi : s.opState = .idle)
    (hm : m.run { s with opState := .busy i r } = .error e t) : runOp i r (m >>= f) s = t :=
  runOp_error hi (Eng.bind_error hm)

/-- Reading after a list was written that fits: the list's byte inside, the old byte outside. -/
theorem byteAt_writeAt_of_fits {n p : Nat} (v : Vector Byte n) {l : List Byte} (h : p + l.length ≤ n) (j : Nat) :
    byteAt (writeAt v p l) j = if p ≤ j ∧ j < p + l.length then l.getD (j - p) 0 else byteAt v j := by
  rw [byteAt_writeAt]
  exact if_congr ⟨fun hj => ⟨hj.1, hj.2.1⟩, fun hj => ⟨hj.1, hj.2, hj.2.trans_le h⟩⟩ rfl rfl

/-- Reading after a slice was copied to where it fits. -/
theorem byteAt_writeAt_slice {n m p k len : Nat} (v : Vector Byte n) (w : Vector Byte m) (hp : p + len ≤ n)
    (hk : k + len ≤ m) (j : Nat) : byteAt (writeAt v p (slice w k len)) j =
      if p ≤ j ∧ j < p + len then byteAt w (k + (j - p)) else byteAt v j := by
  have hl : (slice w k len).length = len := by rw [length_slice]; omega
  rw [byteAt_writeAt_of_fits v (by omega), hl]
  split
  · exact getD_slice w (by omega) hk
  · rfl

/-- Settles O20: by whether a transaction is open. -/
theorem beginOpensATransaction : Obligations.BeginOpensATransaction := by
  intro s hi
  cases ho : s.txn.isOpen with
  | true => exact congrArg Host.Outcome.next (runOp_error hi (begin_open ho))
  | false => exact congrArg Host.Outcome.next (runOp_leads hi hi (begin_closed ho))

/-- Settles O21: the operation is the append of one byte. -/
theorem writeByteAppends : Obligations.WriteByteAppends := by
  intro s b hi
  simpa only [exec, execWriteByte, Host.Outcome.next.injEq] using runOp_writeByte (.writeByte b) 132 b hi

/-- `WRITE_BYTES` where the bytes fit: the next state (R133). -/
theorem exec_writeBytes_open (hi : s.opState = .idle) (ho : s.txn.isOpen = true)
    (hp : s.txn.pos.val + s.hostBuf.txLen.val ≤ 65) :
    exec .writeBytes s = .next { s with txn := { s.txn with
      wb := writeAt s.txn.wb s.txn.pos (txData s), pos := Fin.ofNat 66 (s.txn.pos + (txData s).length) } } :=
  congrArg Host.Outcome.next
    (runOp_leads hi hi (writeBytes_open (txData s) ho ((congrArg _ (length_txData s)).trans_le hp)))

/-- Settles O22: the bytes of `TXB` are copied to `WB` at `pos`. -/
theorem writeBytesAppends : Obligations.WriteBytesAppends := by
  intro s hi
  have hlen : (txData s).length = s.hostBuf.txLen.val := length_txData s
  refine ⟨fun ho => congrArg Host.Outcome.next (runOp_error hi (writeBytes_closed _ ho)),
    fun ho hp => congrArg Host.Outcome.next (runOp_error hi (writeBytes_overflow (txData s) ho (hlen ▸ hp))),
    fun ho hp => ⟨_, _, exec_writeBytes_open hi ho hp, ?_, fun j => ?_⟩⟩
  · rw [hlen]
    exact Nat.mod_eq_of_lt (by omega)
  · rw [txData, byteAt_writeAt_slice _ _ hp (by omega), Nat.zero_add]

theorem length_written (s : State) : (slice s.txn.wb 0 s.txn.pos.val).length = s.txn.pos.val := by
  rw [length_slice]
  omega

/-- The exchange of the bytes written (R134). -/
theorem Made.written (s : State) : Made s
    { s with
      inp := s.inp.afterAnswer s.txn.pos.val,
      out := { s.out with bus := s.out.bus ++ [⟨slice s.txn.wb 0 s.txn.pos.val, s.inp.answer s.txn.pos.val⟩] } }
    [⟨slice s.txn.wb 0 s.txn.pos.val, s.inp.answer s.txn.pos.val⟩] := by
  have hl := length_written s
  have h := Made.exchanged s (w := slice s.txn.wb 0 s.txn.pos.val) (by omega)
  simp only [hl] at h
  exact h.right (by simp [hl]) (by simp [hl]) (by simp [hl])

/-- Settles O23: the next state of `END`, its one exchange, and the answers at the start of `RB`. -/
theorem endMakesOneExchange : Obligations.EndMakesOneExchange := by
  intro s hi
  refine ⟨fun ho => congrArg Host.Outcome.next (runOp_error hi (end_closed ho)), fun ho =>
    ⟨_, _, _, _, congrArg Host.Outcome.next (runOp_leads hi hi (end_open ho)), Made.written s, rfl, rfl, rfl, fun j => ?_⟩⟩
  rw [byteAt_writeAt_of_fits _ (by rw [length_answer]; omega), length_answer]
  simp

/-- Settles O24: each failure is the read's own; else the byte it gives is put in `RXB[0]`. -/
theorem readByteReadsTheLast : Obligations.ReadByteReadsTheLast := by
  intro s hi
  refine ⟨fun hd => congrArg Host.Outcome.next (runOp_bind_error hi (readByte_early (by exact hd))),
    fun hd hp => congrArg Host.Outcome.next (runOp_bind_error hi (readByte_empty (by exact hd) hp)),
    fun hd hp => ⟨writeAt s.hostBuf.rxb 0 [byteAt s.txn.rb (s.txn.pos - 1)], ?_, byteAt_writeAt_singleton _ _ (by decide)⟩⟩
  exact congrArg Host.Outcome.next (runOp_setRxb hi hi (readByte_done (by exact hd) (Nat.ne_of_gt hp)))

/-- `READ_BYTES n` after an exchange of at least `n` bytes: the next state (R136). -/
theorem exec_readBytes_done {n : BitVec 7} (hi : s.opState = .idle) (hd : s.txn.done = true)
    (hn : n.toNat ≤ s.txn.pos.val) :
    exec (.readBytes n) s = .next { s with hostBuf := { s.hostBuf with
      rxb := writeAt s.hostBuf.rxb 0 (slice s.txn.rb (s.txn.pos - n.toNat) n.toNat) } } :=
  congrArg Host.Outcome.next (runOp_setRxb hi hi (readBytes_done (by exact hd) hn))

/-- Settles O25: the tail of `RB` is copied to the start of `RXB`. -/
theorem readBytesReadsTheTail : Obligations.ReadBytesReadsTheTail := by
  intro s n hi
  refine ⟨fun hd => congrArg Host.Outcome.next (runOp_bind_error hi (readBytes_early _ (by exact hd))),
    fun hd hn => congrArg Host.Outcome.next (runOp_bind_error hi (readBytes_tooLong (by exact hd) hn)),
    fun hd hn => ⟨_, exec_readBytes_done hi hd hn, fun j => ?_⟩⟩
  rw [byteAt_writeAt_slice _ _ (by omega) (by omega)]
  simp

/-- `WRITE_BYTES` in the transaction that `BEGIN` has just opened, then `END`: one whole exchange of the payload. -/
theorem exec_begin_writeBytes_end (hs : Ready s) :
    ∃ s1 s2, exec .beginTxn s = .next s1 ∧ exec .writeBytes s1 = .next s2
      ∧ exec .endTxn s2 = .next (s.exchanged (txData s)) := by
  have hlen : (txData s).length ≤ 65 := by rw [length_txData]; omega
  refine ⟨{ s with txn := ⟨s.txn.wb, s.txn.rb, 0, true, false⟩ }, _,
    congrArg Host.Outcome.next (runOp_leads hs.idle hs.idle (begin_closed (by exact hs.closed))),
    exec_writeBytes_open hs.idle rfl (by simpa using hlen), congrArg Host.Outcome.next (runOp_leads hs.idle hs.idle ?_)⟩
  have hend := exchanged_of_written (s := { s with opState := .busy .endTxn 134 }) (txData s) hlen
  rw [← Nat.zero_add (txData s).length] at hend
  exact hend

/-- Settles O26: the exchange brings the payload to the start of `RB`, all of which `READ_BYTES` copies to `RXB`. -/
theorem echoRoundTrip : Obligations.EchoRoundTrip := by
  intro s hs hecho
  obtain ⟨s1, s2, h1, h2, h3⟩ := exec_begin_writeBytes_end hs
  have hlen : (txData s).length = s.hostBuf.txLen.val := length_txData s
  have hpos : (s.exchanged (txData s)).txn.pos.val = s.hostBuf.txLen.val := by
    rw [State.exchanged_txn, hlen]
    exact Nat.mod_eq_of_lt (by omega)
  have hn : (BitVec.ofNat 7 s.hostBuf.txLen.val).toNat = s.hostBuf.txLen.val := by
    rw [BitVec.toNat_ofNat]
    omega
  have h4 := exec_readBytes_done (s := s.exchanged (txData s)) (n := BitVec.ofNat 7 s.hostBuf.txLen.val) hs.idle rfl
    (by rw [hn, hpos])
  have hread : slice (s.exchanged (txData s)).txn.rb 0 s.hostBuf.txLen.val = txData s := by
    rw [State.exchanged_txn, hecho, ← hlen]
    exact slice_writeAt _ 0 _ (by omega)
  refine ⟨s1, s2, _, _, h1, h2, h3, h4, ?_⟩
  rw [hpos, hn, Nat.sub_self, hread, ← hlen]
  exact slice_writeAt _ 0 _ (by omega)

end Sys2Proof.Machine
end

section
namespace Sys2Proof.Machine
variable {s : State}

/-! ### The register operations as host operations -/

/-- A single-register read brings back one data byte (R137). -/
theorem singleton_nextRead (s : State) : [s.nextRead] = (s.inp.answer 2).drop 1 := by
  obtain ⟨x, y, hxy⟩ := List.length_eq_two.mp (length_answer s.inp 2)
  rw [State.nextRead, hxy]
  rfl

/-- Settles O28: each case is the one of the read of `n` bytes, with what it brought back put in `RXB`. -/
theorem registerReads : Obligations.RegisterReads := by
  refine ⟨fun s a hs => ?_, fun s a n hs h1 h64 => ?_, fun s a hi => ?_, fun s a n hi h64 => ?_,
    fun s a n hi ho h1 h64 => ⟨?_, ?_⟩⟩
  · rw [← singleton_nextRead]
    exact congrArg Host.Outcome.next (runOp_setRxb hs.idle hs.idle (regRead_closed a (by exact hs.closed)))
  · exact congrArg Host.Outcome.next (runOp_setRxb hs.idle hs.idle (regReadN_closed a (by exact hs.closed) h1 h64))
  · exact congrArg Host.Outcome.next (runOp_setRxb hi hi (regReadN_zero a))
  · exact congrArg Host.Outcome.next (runOp_bind_error hi (regReadN_overflow a h64))
  · exact congrArg Host.Outcome.next (runOp_bind_error hi (regRead_open a (by exact ho)))
  · exact congrArg Host.Outcome.next (runOp_bind_error hi (regReadN_open a (by exact ho) h1 h64))

/-- Settles O29: each case is the one of the write of the data. -/
theorem registerWrites : Obligations.RegisterWrites := by
  refine ⟨fun s a v hs => ?_, fun s a hs h1 h64 => ?_, fun s a hi h0 => ?_, fun s a hi h64 => ?_,
    fun s a v hi ho => ⟨?_, fun h1 h64 => ?_⟩⟩
  · exact congrArg Host.Outcome.next (runOp_leads hs.idle hs.idle (regWrite_closed a v hs.closed))
  · exact congrArg Host.Outcome.next (runOp_leads hs.idle hs.idle
      (regWriteN_closed a hs.closed (txData_ne_nil h1) ((length_txData s).trans_le h64)))
  · have hnil : txData s = [] := List.eq_nil_of_length_eq_zero ((length_txData s).trans h0)
    exact congrArg Host.Outcome.next (runOp_leads hi hi (hnil ▸ regWriteN_nil a))
  · exact congrArg Host.Outcome.next (runOp_error hi (regWriteN_overflow a (h64.trans_eq (length_txData s).symm)))
  · exact congrArg Host.Outcome.next (runOp_error hi (regWrite_open a v ho))
  · exact congrArg Host.Outcome.next
      (runOp_error hi (regWriteN_open a ho (txData_ne_nil h1) ((length_txData s).trans_le h64)))

/-- Settles O30: the read and the write are two whole exchanges, or the read dies. -/
theorem registerModifies : Obligations.RegisterModifies :=
  ⟨fun _ a m hs =>
    ⟨congrArg Host.Outcome.next (runOp_leads hs.idle hs.idle (regSetBits_closed a m hs.closed)),
      congrArg Host.Outcome.next (runOp_leads hs.idle hs.idle (regClearBits_closed a m hs.closed))⟩,
    fun _ a m hi ho =>
    ⟨congrArg Host.Outcome.next (runOp_error hi (regSetBits_open a m ho)),
      congrArg Host.Outcome.next (runOp_error hi (regClearBits_open a m ho))⟩⟩

end Sys2Proof.Machine
end

section
namespace Sys2Proof.Machine
variable {s t : State} {i : Instr} {r : Nat} {o : OpOutcome} {x tail : List Exchange} {data : List Byte} {a : CommArgs}

/-! ### compute_crc, communicate and transceive as host operations -/

/-- Settles O36: the merge bit by bit, and its two special cases. -/
theorem mergeLaw : Obligations.MergeLaw :=
  ⟨fun old new rxAlign i _ => getLsbD_merge old new rxAlign i, fun _ _ _ _ => rfl, merge_zero⟩

/-- `CrcDone` does not look at the `op_state` it began in. -/
theorem CrcDone.of_opState {b : OpState} (h : CrcDone data { s with opState := b } o t x) : CrcDone data s o t x :=
  { h with made := h.made.left rfl rfl rfl }

/-- Settles O32: at most 64 bytes are computed, or the budget runs out; more die at entry. -/
theorem computeCrcCompletes : Obligations.ComputeCrcCompletes := by
  refine ⟨fun s hs h64 => ?_, fun s hi h64 => ?_⟩
  · obtain ⟨o, u, x, hrun, hdone⟩ := computeCrc_run (s := { s with opState := .busy .computeCrc 164 }) hs.closed
      ((length_txData s).trans_le h64)
    exact ⟨o, u, x, congrArg Host.Outcome.next (runProtocol_ok hs.idle hrun), hdone.of_opState⟩
  · exact congrArg Host.Outcome.next
      (runProtocol_error hi (computeCrc_overflow (h64.trans_eq (length_txData s).symm)))

/-- `CommOverflow` does not look at the `op_state` it began in. -/
theorem CommOverflow.of_opState {b : OpState} (h : CommOverflow a { s with opState := b } t x) : CommOverflow a s t x :=
  { h with made := h.made.left rfl rfl rfl }

/-- A host operation whose sequence is a `communicate` past its entry checks: it returns one of the five outcomes, or dies of a
FIFO level above 64 that the capacity lets pass (R165, R172). -/
theorem exec_communicate_cases {m : Eng OpOutcome} (hs : Ready s) (hc : a.checkCrc = false) (hd : a.send.length ≤ 64)
    (hm : m.run { s with opState := .busy i r } = (communicate a).run { s with opState := .busy i r })
    (he : exec i s = .next (runProtocol i r m s)) :
    (∃ o u x data, exec i s = .next (u.returned o) ∧ CommDone a s o u x data ∧ o ∈ commOutcomes)
      ∨ ∃ t x, exec i s = .next t ∧ CommOverflow a s t x := by
  rcases communicate_run (s := { s with opState := .busy i r }) hs.closed hc hd with
    ⟨o, u, x, data, hrun, hdone⟩ | ⟨t, x, hrun, hdied⟩
  · exact .inl ⟨o, u, x, data, he.trans (congrArg _ (runProtocol_ok hs.idle (hm.trans hrun))), hdone.congr rfl rfl,
      hdone.outcome_mem⟩
  · exact .inr ⟨t, x, he.trans (congrArg _ (runProtocol_error hs.idle (hm.trans hrun))), hdied.of_opState⟩

/-- A FIFO level above 64 needs a receive buffer with a capacity above 64 to be let pass (R172, R281). -/
theorem CommOverflow.not_of_small (h : CommOverflow a s t x) (hr : a.recvPresent = false ∨ a.recvCap.toNat ≤ 64) : False := by
  have hpresent := h.present
  have hlevel := h.level
  rcases hr with hr | hr
  · exact Bool.false_ne_true (hr.symm.trans hpresent)
  · omega

/-- The two parts of what the statements say of such a host operation: how it ends, and when it returns. -/
theorem exec_communicate_completes {m : Eng OpOutcome} (hs : Ready s) (hc : a.checkCrc = false) (hd : a.send.length ≤ 64)
    (hm : m.run { s with opState := .busy i r } = (communicate a).run { s with opState := .busy i r })
    (he : exec i s = .next (runProtocol i r m s)) :
    ((∃ o u x data, exec i s = .next (u.returned o) ∧ CommDone a s o u x data ∧ o ∈ commOutcomes)
      ∨ ∃ t x, exec i s = .next t ∧ CommOverflow a s t x)
    ∧ (a.recvPresent = false ∨ a.recvCap.toNat ≤ 64 →
      ∃ o u x data, exec i s = .next (u.returned o) ∧ CommDone a s o u x data) := by
  have hcases := exec_communicate_cases hs hc hd hm he
  refine ⟨hcases, fun hr => ?_⟩
  rcases hcases with ⟨o, u, x, data, hexec, hdone, -⟩ | ⟨t, x, -, hdied⟩
  · exact ⟨o, u, x, data, hexec, hdone⟩
  · exact (hdied.not_of_small hr).elim

/-- Settles O33: the operation's sequence is the `communicate` of its operands. -/
theorem communicateCompletes : Obligations.CommunicateCompletes := fun _ _ _ _ _ _ s hs h64 =>
  exec_communicate_completes hs rfl ((length_txData s).trans_le h64) rfl rfl

/-- Settles O34: the operation's sequence is the `communicate` with the command and the wait mask of R178. -/
theorem transceiveCompletes : Obligations.TransceiveCompletes := fun _ _ _ _ s hs h64 =>
  exec_communicate_completes hs rfl ((length_txData s).trans_le h64) (transceive_run _ _) rfl

/-! ### The receive buffer after a communicate -/

/-- `bytes_written` counts the bytes received (R172). -/
theorem CommVerdict.bytesWritten_eq (h : CommVerdict a s o t tail data) : t.com.bytesWritten.toNat = data.length := by
  have zero : data = [] → t.com.bytesWritten = 0 → t.com.bytesWritten.toNat = data.length := by
    rintro rfl hb
    rw [hb]
    rfl
  cases o with
  | timeout =>
    obtain ⟨-, -, -, hdata, hb, -⟩ := h
    exact zero hdata hb
  | error =>
    obtain ⟨e, -, -, -, -, -, hdata, hb, -⟩ := h
    exact zero hdata hb
  | noRoom =>
    obtain ⟨e, l, -, -, -, -, -, -, -, -, hdata, hb, -⟩ := h
    exact zero hdata hb
  | ok | collision =>
    obtain ⟨e, rest, -, -, -, -, -, hrest⟩ := h
    split at hrest
    · obtain ⟨l, d, c, -, -, -, -, -, -, -, hlen, hb, -⟩ := hrest
      exact hb.trans hlen.symm
    · obtain ⟨-, -, hdata, hb, -⟩ := hrest
      exact zero hdata hb
  | mifareNack | crcMismatch | invalid | internalError => exact h.elim

/-- From `bytes_written` on, `RXB` is as it was (R172). -/
def RxbTailKept (s t : State) : Prop :=
  ∀ j, t.com.bytesWritten.toNat ≤ j → byteAt t.hostBuf.rxb j = byteAt s.hostBuf.rxb j

theorem RxbTailKept.of_eq (h : t.hostBuf = s.hostBuf) : RxbTailKept s t := fun _ _ => by rw [h]

/-- Only the bytes received were stored, from `RXB[0]` on. -/
theorem CommDone.rxbTailKept (h : CommDone a s o t x data) (hw : a.recv = .rxb) : RxbTailKept s t := by
  intro j hj
  obtain ⟨-, tail, -, -, hv⟩ := h.exchanges
  have hstored : t.hostBuf.rxb = writeAt s.hostBuf.rxb 0 (mergeFirst (byteAt s.hostBuf.rxb 0) a.rxAlign data) := by
    rw [h.rest, hw]
    rfl
  rw [hstored]
  refine byteAt_writeAt_out _ _ (.inr ?_)
  rw [length_mergeFirst, Nat.zero_add, ← hv.bytesWritten_eq]
  exact hj

/-- The overflow comes before the drain (R172). -/
theorem CommOverflow.rxbTailKept (h : CommOverflow a s t x) : RxbTailKept s t := .of_eq (by rw [h.rest])

/-- A host operation whose sequence is a `communicate` into `RXB`, whatever its entry checks say. -/
theorem exec_communicate_rxbTailKept {m : Eng OpOutcome} (hs : Ready s) (hw : a.recv = .rxb)
    (hm : m.run { s with opState := .busy i r } = (communicate a).run { s with opState := .busy i r })
    (he : exec i s = .next (runProtocol i r m s)) (h : exec i s = .next t) : RxbTailKept s t := by
  have ht := Host.Outcome.next.inj (h.symm.trans he)
  by_cases hc : a.checkCrc = true
  · exact .of_eq (by rw [ht, runProtocol_error hs.idle (hm.trans (communicate_unsupported hc))]; rfl)
  rw [Bool.not_eq_true] at hc
  by_cases hd : 64 < a.send.length
  · exact .of_eq (by rw [ht, runProtocol_error hs.idle (hm.trans (communicate_overflow hc hd))]; rfl)
  rcases exec_communicate_cases hs hc (Nat.le_of_not_lt hd) hm he with
    ⟨o, u, x, data, hexec, hdone, -⟩ | ⟨u, x, hexec, hdied⟩
  · obtain rfl := Host.Outcome.next.inj (h.symm.trans hexec)
    exact hdone.rxbTailKept hw
  · obtain rfl := Host.Outcome.next.inj (h.symm.trans hexec)
    exact hdied.rxbTailKept

/-- Settles O37: both operations are a `communicate` into `RXB`. -/
theorem receiveBufferTail : Obligations.ReceiveBufferTail := by
  rintro cmd waitMask validBits rxAlign checkCrc recvPresent recvCap s t hs (h | h)
  · exact exec_communicate_rxbTailKept
      (a := ⟨cmd, waitMask, txData s, recvPresent, .rxb, recvCap, validBits, rxAlign, checkCrc⟩) hs rfl rfl rfl h
  · exact exec_communicate_rxbTailKept
      (a := .transceive s.cfg ⟨0, 0, txData s, recvPresent, .rxb, recvCap, validBits, rxAlign, checkCrc⟩) hs rfl
      (transceive_run _ _) rfl h

end Sys2Proof.Machine
end

section
namespace Sys2Proof.Machine
variable {s t : State} {x : List Exchange}

/-! ### The verification of the response of a select -/

/-- The verification of a response on its own: its exchanges and its four ends (R220, R221). -/
theorem verifyResponse_ends (h : s.txn.isOpen = false) :
    (s.com.bytesWritten ≠ 3 ∨ s.com.validBits ≠ 0 →
      ∃ b, verifyResponse.run s = .ok (some .internalError) { s with opState := b })
    ∧ (s.com.bytesWritten = 3 → s.com.validBits = 0 →
      ∃ o t x, CrcDone [byteAt s.buf.rsp 0] s o t x
        ∧ (o = .timeout → verifyResponse.run s = .ok (some .timeout) t)
        ∧ (o = .ok → ¬CrcAgrees t → verifyResponse.run s = .ok (some .crcMismatch) t)
        ∧ (o = .ok → CrcAgrees t → verifyResponse.run s = .ok none t)) := by
  rcases verifyResponse_cases h with ⟨hn, hr⟩ | ⟨hb, hv, o, t, x, hdone, hr⟩
  · exact ⟨fun _ => ⟨_, hr⟩, fun hb hv => (hn ⟨hb, hv⟩).elim⟩
  · refine ⟨fun hn => (hn.elim (· hb) (· hv)).elim, fun _ _ => ⟨o, t, x, hdone, ?_, ?_, ?_⟩⟩
    · rintro rfl
      exact hr
    · rintro rfl ha
      rw [hr, if_neg (by simp), if_neg ha]
    · rintro rfl ha
      rw [hr, if_neg (by simp), if_pos ha]

/-- A checked response, by the last of the exchanges made since `s`. -/
theorem Checked.last_made (h : Checked t x) (hm : Made s t x) (hc : t.cfg = s.cfg) :
    t.com.bytesWritten = 3 ∧ t.com.validBits = 0
      ∧ ∃ y z, Made s t (y ++ z) ∧ CrcExchanges s.cfg [byteAt t.buf.rsp 0] t.buf.crc z := by
  obtain ⟨z, ⟨y, rfl⟩, hz⟩ := h.computed
  exact ⟨h.length, h.bits, y, z, hm, hc ▸ hz⟩

/-- Settles O44: the ends of the verification, and what the levels found when a select returned `Ok`, returned `CrcMismatch`, or
asked for a fourth level. -/
theorem selectVerifiesTheResponse : Obligations.SelectVerifiesTheResponse := by
  refine ⟨fun s hs => ?_, fun i kvb s t hi hs h => ?_⟩
  · obtain ⟨hother, hwhole⟩ := verifyResponse_ends hs
    refine ⟨hother, fun hb hv => ?_⟩
    obtain ⟨o, t, x, hdone, htimeout, hmismatch, hagree⟩ := hwhole hb hv
    exact ⟨o, t, x, hdone, htimeout, fun ho hn => hmismatch ho (not_and_or.mpr hn), fun ho h0 h1 => hagree ho ⟨h0, h1⟩⟩
  · obtain ⟨o, u, x, l, rfl, hcfg, hmade, hd⟩ := levelsDone_of_exec hi hs h
    have checked (hc : Checked u x) :=
      Checked.last_made (t := s.selected i o u) (hc.mono List.suffix_rfl rfl rfl rfl) hmade hcfg
    refine ⟨fun ho => ?_, fun ho => ?_, fun h4 => ?_⟩
    · have hgood := (hd.success ho).response
      exact ⟨checked hgood.toChecked, hgood.agrees⟩
    · obtain ⟨hc, hn⟩ := hd.mismatch ho
      exact ⟨checked hc, hn⟩
    · obtain ⟨ho, ⟨hfirst, -⟩ | ⟨hgood, hsak⟩⟩ := hd.fourth (congrArg BitVec.toNat h4)
      · exact absurd hfirst (by decide)
      · exact ⟨ho, checked hgood.toChecked, hgood.agrees, sakContinues_iff.mp hsak⟩

end Sys2Proof.Machine
end

section
namespace Sys2Proof.Machine
variable {s t u : State} {i : Instr} {kvb : Byte} {o : OpOutcome} {x : List Exchange}

/-! ### `request_or_wakeup` and `is_new_card_present` as operations -/

/-- `Transacted` does not look at the `op_state` it began in. -/
theorem Transacted.of_opState {b : OpState} (h : Transacted { s with opState := b } t x) : Transacted s t x :=
  { h with made := h.made.left rfl rfl rfl }

/-- `RequestDone` does not look at the `op_state` it began in. -/
theorem RequestDone.of_opState {b : OpState} {op : BitVec 7} (h : RequestDone op { s with opState := b } o t x) :
    RequestDone op s o t x := by
  obtain ⟨u, r, w, y, data, inner, hx, hr, hw, htrans, hrest⟩ := h
  exact ⟨u, r, w, y, data, inner, hx, hr, hw, htrans.of_opState, hrest⟩

/-- `request_or_wakeup` returns an outcome that `communicate` can return (R165, R203). -/
theorem RequestDone.outcome_mem {op : BitVec 7} (h : RequestDone op s o t x) : o ∈ commOutcomes := by
  obtain ⟨_, _, _, _, _, inner, -, -, -, -, hdone, hother, hok⟩ := h
  by_cases hi : inner = .ok
  · rw [hok hi]
    split <;> decide
  · rw [hother hi]
    exact hdone.outcome_mem

/-- `request_or_wakeup` itself writes no flag: the return does (R270). -/
theorem RequestDone.flags {op : BitVec 7} (h : RequestDone op s o t x) : t.flags = s.flags := by
  obtain ⟨u, _, _, _, _, _, -, -, -, htrans, hdone, -⟩ := h
  have hu : u.flags = s.flags := by rw [htrans.rest]
  rw [hdone.rest]
  exact hu

/-- Settles O38: the operation runs `request_or_wakeup`, which ends, and returns its outcome. -/
theorem requestCompletes : Obligations.RequestCompletes := by
  intro sel s hs
  obtain ⟨o, u, x, hrun, hdone⟩ := requestOrWakeup_run (s := { s with opState := .busy (.requestOrWakeup sel) 200 }) sel hs.closed
  exact ⟨o, u, x, congrArg Host.Outcome.next (runProtocol_ok hs.idle hrun), hdone.of_opState, hdone.outcome_mem⟩

theorem repliedAtAll_eq (o : OpOutcome) : repliedAtAll o = decide (o = .ok ∨ o = .collision) := by
  cases o <;> rfl

/-- Settles O39: the three register writes, then `request_or_wakeup` with REQA, whose outcome decides `present`. -/
theorem isNewCardPresentCompletes : Obligations.IsNewCardPresentCompletes := by
  intro s hs
  obtain ⟨o, t, u, e1, e2, e3, x, hrun, hdid, honly, htx, hrx, hmod, hdone⟩ :=
    isNewCardPresent_run (s := { s with opState := .busy .isNewCardPresent 226 }) hs.closed
  have hu : u = { s with opState := u.opState, txn := u.txn, inp := u.inp, out := u.out } := by
    rw [honly]
    rfl
  have hflags : t.flags = s.flags := by rw [hdone.flags, hu]
  refine ⟨o, u, t, [e1, e2, e3], x, congrArg Host.Outcome.next ((runProtocol_ok hs.idle hrun).trans ?_),
    by simp [htx, hrx, hmod], (hdid.transacted hu).of_opState, hdone⟩
  simp only [State.returned, hflags, repliedAtAll_eq]

/-! ### `select` as an operation -/

/-- Settles O41: the way through the levels from level 1, and the return. -/
theorem selectCompletes : Obligations.SelectCompletes := by
  intro i kvb s hi hs
  obtain ⟨o, u, x, l, hexec, hd, -, -, b, hlevels⟩ := exec_runsSelect hi hs
  have hkvb : u.sel.kvb = kvb := by rw [hd.keep]
  exact ⟨s.selected i o u, x, o, u, b, hexec, ⟨rfl, hd.closed⟩, hd.made.congr rfl rfl rfl rfl rfl rfl, hkvb, hd.outcome,
    hlevels, rfl⟩

/-- From `s` to `t` budgets of the two kinds were started, and no others (R286). -/
def StartedBudgets (s t : State) : Prop :=
  ∃ l, t.out.budgets = s.out.budgets ++ l ∧ ∀ ms ∈ l, ms = 26 ∨ ms = 89

theorem StartedBudgets.of_eq (h : t.out.budgets = s.out.budgets) : StartedBudgets s t :=
  ⟨[], by rw [h, List.append_nil], by simp⟩

theorem StartedBudgets.trans (h : StartedBudgets s t) (h' : StartedBudgets t u) : StartedBudgets s u := by
  obtain ⟨l, hl, hkinds⟩ := h
  obtain ⟨m, hm, hkinds'⟩ := h'
  exact ⟨l ++ m, by rw [hm, hl, List.append_assoc], fun ms hms => (List.mem_append.mp hms).elim (hkinds ms) (hkinds' ms)⟩

/-- A write of registers starts no budget. -/
theorem Group.Writes.budgets {g : Group} (h : g.Writes s t) : t.out.budgets = s.out.budgets := by
  cases g <;> rw [show t = _ from h]

/-- A sequence of the engine starts budgets of 26 and of 89 milliseconds alone. -/
theorem StartedBudgets.writers (L : List Group) : Writers L StartedBudgets where
  refl _ := .of_eq rfl
  trans := .trans
  write _ _ _ _ h := .of_eq h.budgets
  opState _ _ := .of_eq rfl
  exchange _ _ _ := .of_eq rfl
  budget _ ms hms := ⟨[ms], rfl, by simpa using hms⟩

theorem exec_startedBudgets (h : exec i s = .next t) : StartedBudgets s t :=
  exec_establishes (fun _ => StartedBudgets.writers _) (.of_eq rfl)
    (fun _ => .of_eq (by rw [State.resetSequence_eq])) h

/-- Settles O46: of the budgets that the levels started at most 99 are of a `transceive` and 6 of a `compute_crc`, and an
instruction starts no others. -/
theorem selectIsBounded : Obligations.SelectIsBounded := by
  intro i kvb s hi hs
  obtain ⟨o, u, x, l, hexec, hd, h26, h89, -⟩ := exec_runsSelect hi hs
  obtain ⟨m, hm, hkinds⟩ := exec_startedBudgets hexec
  obtain rfl : l = m := List.append_cancel_left (hd.budgets.symm.trans hm)
  exact ⟨_, l, hexec, rfl, hm, h26, h89, hkinds⟩

end Sys2Proof.Machine
end

section
namespace Sys2Proof.Machine
variable {s v : State} {o : OpOutcome}

/-! ### The rounds of a level -/

/-- What an anti-collision round does after its exchange (R216 to R218). -/
theorem anticollRound_of_exchange (hr : (roundExchange (.fb (anticollFrame s).sel.idx.toNat)
      (7 - (anticollFrame s).sel.idx.toNat)).run (anticollFrame (s.toRule 213)) = .ok o v) :
    (o = .ok → anticollRound.run s = .ok none { v with sel := { v.sel with knownBits := 32 } })
    ∧ (o = .collision → anticollRound.run s = onCollision.run v)
    ∧ (o ≠ .ok → o ≠ .collision → anticollRound.run s = .ok (some o) v) := by
  have hround : anticollRound.run s = (if o = .collision then onCollision
      else if o = .ok then do
        modify fun s => { s with sel := { s.sel with knownBits := BitVec.ofNat 6 levelBits } }
        return none
      else return some o : Eng (Option OpOutcome)).run v := by
    rw [anticollRound, Eng.run_bind_atRule, Eng.run_bind_modify, Eng.run_bind_get]
    exact Eng.bind_ok hr
  refine ⟨fun hok => ?_, fun hcoll => ?_, fun hok hcoll => ?_⟩
  · rw [hround, if_neg (by simp [hok]), if_pos hok]
    rfl
  · rw [hround, if_pos hcoll]
  · rw [hround, if_neg hcoll, if_neg hok, Eng.run_pure]

/-- Settles O59: the frame, its exchange with the window and the bits that `known_bits` gives, and the three ends. -/
theorem anticollisionRound : Obligations.AnticollisionRound := by
  intro s hs hk k bits f
  have hidx : f.sel.idx.toNat = 2 + k / 8 := anticollFrame_idx hk
  have hlen : f.sel.sendLen.toNat = 2 + k / 8 + if k % 8 > 0 then 1 else 0 := anticollFrame_sendLen hk
  have hcap : 7 - f.sel.idx.toNat = 5 - k / 8 := by omega
  obtain ⟨u, o, v, e, x, data, hrun, hmade, hsent, hdone⟩ := roundExchange_run (s := anticollFrame (s.toRule 213))
    (.fb f.sel.idx.toNat) (cap := 7 - f.sel.idx.toNat) hs (by omega)
  refine ⟨o, u, v, e, x, data, hsent, hmade.of_opState, ?_, anticollRound_of_exchange hrun⟩
  rw [← hlen, ← hcap, ← hidx]
  exact hdone

/-- After a collision with all 32 bits known the detector ends the select (R228). -/
theorem onCollision_allKnown (hv : v.txn.isOpen = false) (hk : v.sel.knownBits = 32) :
    ∃ r t, onCollision.run v = .ok (some r) t ∧ (r = .collision ∨ r = .internalError) := by
  have h32 : v.sel.knownBits.toNat = 32 := by rw [hk]; rfl
  obtain ⟨r, t, -, hrun, -, hle, hmore, -, hends⟩ := onCollision_rnd hv h32.le
  cases r with
  | none => exact absurd (hmore rfl) (by omega)
  | some r => exact ⟨r, t, hrun, hends r rfl⟩

/-- A full-select round whose CRC did not come ends with its outcome (R212). -/
theorem fullRound_of_crc_failed {c : State} (hn : o ≠ .ok)
    (hr : (computeCrc (slice (fullFrame s).buf.fb 0 7)).run (fullFrame (s.toRule 212)) = .ok o c) :
    fullRound.run s = .ok (some o) c := by
  rw [fullRound, Eng.run_bind_atRule, Eng.run_bind_modify, Eng.run_bind_get]
  refine (Eng.bind_ok hr).trans ?_
  rw [if_pos hn, Eng.run_pure]

/-- What a full-select round does after its exchange (R216, R217). -/
theorem fullRound_of_exchange {c : State}
    (hr : (computeCrc (slice (fullFrame s).buf.fb 0 7)).run (fullFrame (s.toRule 212)) = .ok .ok c)
    (he : (roundExchange .rsp selectRespLen).run (fullFrameCrc c) = .ok o v) :
    (o = .ok → fullRound.run s = .ok none v)
    ∧ (o = .collision → ∀ r t, onCollision.run v = .ok (some r) t → fullRound.run s = .ok (some r) t)
    ∧ (o ≠ .ok → o ≠ .collision → fullRound.run s = .ok (some o) v) := by
  have hround : fullRound.run s = (if o = .collision then return some ((← onCollision).getD .internalError)
      else if o = .ok then return none
      else return some o : Eng (Option OpOutcome)).run v := by
    rw [fullRound, Eng.run_bind_atRule, Eng.run_bind_modify, Eng.run_bind_get]
    refine (Eng.bind_ok hr).trans ?_
    rw [if_neg (by simp), Eng.run_bind_modify]
    exact Eng.bind_ok he
  refine ⟨fun hok => ?_, fun hcoll r t hrun => ?_, fun hok hcoll => ?_⟩
  · rw [hround, if_neg (by simp [hok]), if_pos hok, Eng.run_pure]
  · rw [hround, if_pos hcoll, Eng.bind_ok hrun, Option.getD_some, Eng.run_pure]
  · rw [hround, if_neg hcoll, if_neg hok, Eng.run_pure]

theorem framingByte_zero : framingByte 0 0 = 0 := by decide

/-- Settles O60: the CRC over the first seven bytes, then the exchange of the nine, and its three ends. -/
theorem fullSelectRound : Obligations.FullSelectRound := by
  intro s hs hk f
  obtain ⟨oc, c, xc, hcrc, hcrcDone⟩ := computeCrc_run (s := fullFrame (s.toRule 212)) (d := slice f.buf.fb 0 7) hs (by simp)
  refine ⟨oc, c, xc, hcrcDone.of_opState, fun hn => fullRound_of_crc_failed hn hcrc, ?_⟩
  rintro rfl g
  obtain ⟨u, o, v, e, x, data, hrun, hmade, hsent, hdone⟩ :=
    roundExchange_run (s := g) .rsp (cap := selectRespLen) hcrcDone.closed (by decide)
  obtain ⟨hok, hcoll, hother⟩ := fullRound_of_exchange hcrc hrun
  have hcfg : g.cfg = s.cfg := by
    rw [fullFrameCrc_cfg, hcrcDone.rest]
    rfl
  have hframing : framingByte g.sel.txLast g.sel.txLast = 0 := framingByte_zero
  rw [hcfg] at hsent hdone
  rw [hframing] at hsent
  refine ⟨o, u, v, e, x, data, hsent, hmade, hdone, hok, fun ho => ?_, hother⟩
  have hknown : v.sel.knownBits = 32 := by
    obtain ⟨-, hsel, -⟩ := hdone.rnd hmade (.inl rfl)
    obtain ⟨-, hsel', -⟩ := hcrcDone.rnd
    rw [hsel, fullFrameCrc_sel, hsel']
    exact hk
  obtain ⟨r, t, hdet, hends⟩ := onCollision_allKnown hdone.closed hknown
  exact ⟨r, t, hdet, hcoll ho r t hdet, hends⟩

end Sys2Proof.Machine
end

section
namespace Sys2Proof.Machine
variable {n : Nat} {u : Vector Byte 10} {level kvb : Nat}

/-! ### Bits of a frame -/

theorem getLsbD_one_shiftLeft {r b : Nat} (hr : r < 8) (hb : b < 8) : (1#8 <<< r).getLsbD b = decide (b = r) := by
  have key : ∀ r b : Fin 8, (1#8 <<< r.val).getLsbD b.val = decide (b.val = r.val) := by decide
  exact key ⟨r, hr⟩ ⟨b, hb⟩

/-- The mask of the low `r` bits (R209). -/
theorem getLsbD_lowMask {r b : Nat} (hr : r < 8) (hb : b < 8) : ((1#8 <<< r) - 1).getLsbD b = decide (b < r) := by
  have key : ∀ r b : Fin 8, ((1#8 <<< r.val) - 1).getLsbD b.val = decide (b.val < r.val) := by decide
  exact key ⟨r, hr⟩ ⟨b, hb⟩

theorem byteAt_of_ge (v : Vector Byte n) {j : Nat} (h : n ≤ j) : byteAt v j = 0 := by
  simp [byteAt, Nat.not_lt.mpr h]

/-! ### Narrowing -/

/-- The frame's byte behind a narrowing: at the position's byte the position's bit is set (R254). -/
theorem byteAt_narrow {s : State} {p : Nat} (h1 : 1 ≤ p) (h32 : p ≤ 32) (j : Nat) : byteAt (narrow p s).buf.fb j =
    if j = positionByte p then byteAt s.buf.fb j ||| positionMask p else byteAt s.buf.fb j := by
  have h9 : positionByte p < 9 := by unfold positionByte; omega
  by_cases hj : j = positionByte p
  · subst hj
    rw [if_pos rfl]
    exact byteAt_set_self _ _ h9
  · rw [if_neg hj]
    exact byteAt_set_ne _ _ (Ne.symm hj)

theorem levelBit_narrow {s : State} {p q : Nat} (h1 : 1 ≤ p) (h32 : p ≤ 32) (hq : 1 ≤ q) :
    levelBit (narrow p s).buf.fb q = (decide (q = p) || levelBit s.buf.fb q) := by
  have hbit : (q - 1) % 8 < 8 := Nat.mod_lt _ (by decide)
  rw [levelBit, byteAt_narrow h1 h32]
  by_cases hbyte : 2 + (q - 1) / 8 = positionByte p
  · have hmask : (positionMask p).getLsbD ((q - 1) % 8) = decide (q = p) := by
      rw [positionMask, getLsbD_one_shiftLeft (Nat.mod_lt _ (by decide)) hbit, decide_eq_decide]
      unfold positionByte at hbyte
      omega
    rw [if_pos hbyte, BitVec.getLsbD_or, hmask, Bool.or_comm, levelBit]
  · have hne : q ≠ p := by
      rintro rfl
      exact hbyte rfl
    rw [if_neg hbyte, decide_eq_false hne, Bool.false_or, levelBit]

/-- Settles O51: the position's byte is one of the four data bytes, and of it the position's bit is set. -/
theorem narrowSetsOneBit : Obligations.NarrowSetsOneBit := by
  intro s p h1 h32
  refine ⟨Nat.mod_eq_of_lt (by omega), fun q hq _ => levelBit_narrow h1 h32 hq, fun j hj => ?_, rfl⟩
  rw [byteAt_narrow h1 h32, if_neg (by unfold positionByte; omega)]

/-! ### The start of a level -/

theorem usesCascadeTag_eq (level kvb : Nat) :
    usesCascadeTag level kvb = decide (level < 3 ∧ kvb > 8 * (3 * (level - 1)) + 32) := by
  rw [Bool.decide_and]
  rfl

theorem wholeBytes_le (level kvb : Nat) : wholeBytes level kvb ≤ levelCap (usesCascadeTag level kvb) := Nat.min_le_right _ _

/-- A claim of at most 80 bits asks for no UID byte beyond the last (R206, R209). -/
theorem uidOffset_add_wholeBytes_le (h3 : level ≤ 3) (hk : kvb ≤ 80) : uidOffset level + wholeBytes level kvb ≤ 10 := by
  have hclaim : wholeBytes level kvb ≤ levelClaim level kvb / 8 := Nat.min_le_left _ _
  unfold levelClaim at hclaim
  have : uidOffset level ≤ 6 := by unfold uidOffset; omega
  omega

/-- The known prefix, byte by byte: the whole bytes, then the low bits of the next, then nothing (R209). -/
theorem getD_knownPrefix (h3 : level ≤ 3) (hk : kvb ≤ 80) (m : Nat) : (knownPrefix u level kvb).getD m 0 =
    if m < wholeBytes level kvb then byteAt u (uidOffset level + m)
    else if m = wholeBytes level kvb then byteAt u (uidOffset level + m) &&& ((1#8 <<< remBits level kvb) - 1)
    else 0 := by
  have hlen : (slice u (uidOffset level) (wholeBytes level kvb)).length = wholeBytes level kvb := by
    rw [length_slice]
    have := uidOffset_add_wholeBytes_le h3 hk
    omega
  rw [knownPrefix]
  by_cases hm : m < wholeBytes level kvb
  · rw [if_pos hm, List.getD_append _ _ _ _ (by omega), getD_slice _ hm (uidOffset_add_wholeBytes_le h3 hk)]
  rw [if_neg hm, List.getD_append_right _ _ _ _ (by omega), hlen]
  by_cases hrem : remBits level kvb > 0
  · rw [if_pos hrem]
    by_cases he : m = wholeBytes level kvb
    · subst he
      simp
    · rw [if_neg he, List.getD_eq_default _ _ (by simp; omega)]
  · have h0 : remBits level kvb = 0 := by omega
    simp [h0]

/-- The known prefix, bit by bit: the claimed bits of the UID from the level's offset on, as many as the level holds (R209). -/
theorem getLsbD_knownPrefix (h3 : level ≤ 3) (hk : kvb ≤ 80) (m : Nat) {b : Nat} (hb : b < 8) :
    ((knownPrefix u level kvb).getD m 0).getLsbD b =
      (decide (8 * m + b < min (levelClaim level kvb) (8 * levelCap (usesCascadeTag level kvb)))
        && (byteAt u (uidOffset level + m)).getLsbD b) := by
  have hwhole : wholeBytes level kvb = min (levelClaim level kvb / 8) (levelCap (usesCascadeTag level kvb)) := rfl
  have hrem : remBits level kvb
      = if wholeBytes level kvb < levelCap (usesCascadeTag level kvb) then levelClaim level kvb % 8 else 0 := rfl
  rw [getD_knownPrefix h3 hk]
  by_cases hm : m < wholeBytes level kvb
  · rw [if_pos hm, decide_eq_true (by omega), Bool.true_and]
  rw [if_neg hm]
  by_cases he : m = wholeBytes level kvb
  · have h8 : remBits level kvb < 8 := by split at hrem <;> omega
    have hbit : b < remBits level kvb ↔ 8 * m + b < min (levelClaim level kvb) (8 * levelCap (usesCascadeTag level kvb)) := by
      split at hrem <;> omega
    rw [if_pos he, BitVec.getLsbD_and, getLsbD_lowMask h8 hb, Bool.and_comm, decide_eq_decide.mpr hbit]
  · rw [if_neg he, decide_eq_false (by omega), Bool.false_and]
    exact BitVec.getLsbD_zero

/-- The known prefix is no longer than the level's UID bytes (R209). -/
theorem length_knownPrefix_le (u : Vector Byte 10) (level kvb : Nat) :
    (knownPrefix u level kvb).length ≤ levelCap (usesCascadeTag level kvb) := by
  have hwhole := wholeBytes_le level kvb
  have hrem : remBits level kvb > 0 → wholeBytes level kvb < levelCap (usesCascadeTag level kvb) := by
    unfold remBits
    split
    · exact fun _ => ‹_›
    · omega
  rw [knownPrefix, List.length_append, length_slice]
  split
  · have := hrem ‹_›
    simp only [List.length_singleton]
    omega
  · simp only [List.length_nil]
    omega

/-- A level's UID bytes end where its four data bytes do, with the tag and without (R209). -/
theorem levelFirst_add_levelCap (tag : Bool) : levelFirst tag + levelCap tag = 6 := by
  cases tag <;> rfl

/-- The frame before the known prefix is copied: the opcode, zeros, and the tag if it is used (R207, R208). -/
theorem byteAt_tagged (fb : Vector Byte 9) (op : Byte) (tag : Bool) {j : Nat} (h0 : j ≠ 0) :
    byteAt (if tag then (writeAt (fb.setIfInBounds 0 op) 1 (List.replicate 8 0)).setIfInBounds 2 cascadeTagByte
      else writeAt (fb.setIfInBounds 0 op) 1 (List.replicate 8 0)) j = if tag ∧ j = 2 then cascadeTagByte else 0 := by
  have hcleared : byteAt (writeAt (fb.setIfInBounds 0 op) 1 (List.replicate 8 0)) j = 0 := by
    by_cases h9 : j < 9
    · rw [byteAt_writeAt, if_pos ⟨by omega, by rw [List.length_replicate]; omega, h9⟩, List.getD_replicate _ (by omega)]
    · exact byteAt_of_ge _ (by omega)
  cases tag with
  | false => simpa using hcleared
  | true =>
    by_cases h2 : j = 2
    · subst h2
      exact byteAt_set_self _ _ (by decide)
    · rw [if_pos rfl, if_neg (by simp [h2]), byteAt_set_ne _ _ (Ne.symm h2), hcleared]

/-- The frame at the start of a level, byte by byte: the opcode, the known prefix from its first byte on, the tag and zeros
before it (R207 to R209). -/
theorem byteAt_levelFrame (c : Config) (u : Vector Byte 10) (fb : Vector Byte 9) (level kvb j : Nat) :
    byteAt (levelFrame c u fb level kvb) j =
      if j = 0 then selOpcode c level
      else if levelFirst (usesCascadeTag level kvb) ≤ j then
        (knownPrefix u level kvb).getD (j - levelFirst (usesCascadeTag level kvb)) 0
      else if j = 2 then cascadeTagByte else 0 := by
  by_cases h0 : j = 0
  · rw [if_pos h0, h0, levelFrame_opcode]
  have hlen := length_knownPrefix_le u level kvb
  have hfit := levelFirst_add_levelCap (usesCascadeTag level kvb)
  have hfirst : levelFirst (usesCascadeTag level kvb) = if usesCascadeTag level kvb then 3 else 2 := rfl
  rw [if_neg h0, levelFrame, byteAt_writeAt, byteAt_tagged fb _ _ h0]
  by_cases hj : levelFirst (usesCascadeTag level kvb) ≤ j
  · rw [if_pos hj]
    by_cases hin : j < levelFirst (usesCascadeTag level kvb) + (knownPrefix u level kvb).length
    · rw [if_pos ⟨hj, hin, by omega⟩]
    · have htag : ¬(usesCascadeTag level kvb = true ∧ j = 2) := by
        rintro ⟨ht, rfl⟩
        rw [ht] at hj
        exact absurd hj (by decide)
      rw [if_neg (fun h => hin h.2.1), if_neg htag, List.getD_eq_default _ _ (by omega)]
  · have htag : (usesCascadeTag level kvb = true ∧ j = 2) ↔ j = 2 := by
      split at hfirst
      · simp [*]
      · omega
    rw [if_neg hj, if_neg (fun h => hj h.1), if_congr htag rfl rfl]

/-- The 32 data bits at the start of a level: the tag's, then the claimed bits of the UID, then zeros (R205, R208 to R210). -/
theorem levelBit_levelFrame (c : Config) (u : Vector Byte 10) (fb : Vector Byte 9) (h3 : level ≤ 3) (hk : kvb ≤ 80) {p : Nat}
    (h1 : 1 ≤ p) : levelBit (levelFrame c u fb level kvb) p =
      if usesCascadeTag level kvb ∧ p ≤ 8 then cascadeTagByte.getLsbD (p - 1)
      else if p ≤ startKnownBits level kvb then
        uidBit u (8 * uidOffset level + (p - 1) - if usesCascadeTag level kvb then 8 else 0)
      else false := by
  rw [levelBit, byteAt_levelFrame, if_neg (by omega)]
  by_cases htag : usesCascadeTag level kvb = true ∧ p ≤ 8
  · rw [if_pos htag, htag.1, Nat.div_eq_of_lt (by omega), Nat.mod_eq_of_lt (by omega)]
    rfl
  have hstart : startKnownBits level kvb = min (levelClaim level kvb) (8 * levelCap (usesCascadeTag level kvb))
    + if usesCascadeTag level kvb then 8 else 0 := rfl
  have hfirst : 8 * levelFirst (usesCascadeTag level kvb) = 16 + if usesCascadeTag level kvb then 8 else 0 := by
    cases usesCascadeTag level kvb <;> rfl
  have hskip : (if usesCascadeTag level kvb then 8 else 0) ≤ 8 * ((p - 1) / 8) := by
    split
    · have : ¬p ≤ 8 := fun h => htag ⟨‹_›, h⟩
      omega
    · omega
  rw [if_neg htag, if_pos (by omega), getLsbD_knownPrefix h3 hk _ (Nat.mod_lt _ (by decide)), hstart, uidBit]
  generalize (if usesCascadeTag level kvb then 8 else 0) = skip at *
  generalize hm : 2 + (p - 1) / 8 - levelFirst (usesCascadeTag level kvb) = m at *
  have hbyte : (8 * uidOffset level + (p - 1) - skip) / 8 = uidOffset level + m := by omega
  have hbit : (8 * uidOffset level + (p - 1) - skip) % 8 = (p - 1) % 8 := by omega
  rw [hbyte, hbit]
  by_cases hp : p ≤ min (levelClaim level kvb) (8 * levelCap (usesCascadeTag level kvb)) + skip
  · rw [if_pos hp, decide_eq_true (by omega), Bool.true_and]
  · rw [if_neg hp, decide_eq_false (by omega), Bool.false_and]

/-- Outside the opcode and the four data bytes the frame is zero at the start of a level (R207). -/
theorem byteAt_levelFrame_zero (c : Config) (u : Vector Byte 10) (fb : Vector Byte 9) (level kvb : Nat) {j : Nat}
    (hj : j = 1 ∨ 6 ≤ j) : byteAt (levelFrame c u fb level kvb) j = 0 := by
  have hlen := length_knownPrefix_le u level kvb
  have hfit := levelFirst_add_levelCap (usesCascadeTag level kvb)
  have hfirst : 2 ≤ levelFirst (usesCascadeTag level kvb) := by cases usesCascadeTag level kvb <;> decide
  rw [byteAt_levelFrame, if_neg (by omega)]
  rcases hj with rfl | hj
  · rw [if_neg (by omega), if_neg (by decide)]
  · rw [if_pos (by omega), List.getD_eq_default _ _ (by omega)]

/-- Settles O48: the scalars of the level, and its frame byte by byte and bit by bit. -/
theorem levelStart : Obligations.LevelStart := by
  intro s level h1 h3 hk off tag cap known
  have htag : usesCascadeTag level s.sel.kvb.toNat = tag := usesCascadeTag_eq _ _
  have hknown : startKnownBits level s.sel.kvb.toNat = known := by
    rw [startKnownBits, htag]
    rfl
  have hle := startKnownBits_le level s.sel.kvb.toNat
  refine ⟨_, rfl, rfl, uidOffset_le h3 h1, htag, ?_, levelFrame_opcode _ _ _ _ _, byteAt_levelFrame_zero _ _ _ _ _ (.inl rfl),
    fun p hp _ => ?_, fun j hj => byteAt_levelFrame_zero _ _ _ _ _ (.inr hj)⟩
  · rw [← hknown]
    exact Nat.mod_eq_of_lt (show startKnownBits level s.sel.kvb.toNat < 64 by omega)
  · rw [← htag, ← hknown]
    exact levelBit_levelFrame _ _ _ h3 hk hp

end Sys2Proof.Machine
end

section
namespace Sys2Proof.Machine
variable {s t : State} {v : Byte}

/-! ### The collision detector -/

theorem positionUnknown_iff (v : Byte) : positionUnknown v = true ↔ v &&& 0x20 ≠ 0 := by
  simp [positionUnknown, anyBit]

/-- The position by the number in the low five bits (R252). -/
theorem collPosition_eq (v : Byte) :
    collPosition v = if (v &&& 0x1F).toNat = 0 then 32 else (v &&& 0x1F).toNat :=
  if_congr BitVec.toNat_inj.symm rfl rfl

/-- `coll_pos` holds every position, 32 included (R252). -/
theorem toNat_ofNat_collPosition (v : Byte) : (BitVec.ofNat 6 (collPosition v)).toNat = collPosition v := by
  obtain ⟨-, hle⟩ := collPosition_pos v
  exact Nat.mod_eq_of_lt (show collPosition v < 64 by omega)

/-- Where `coll_pos` was written, it is the position, and the state after may name it by its own register. -/
theorem collPos_of_written (ht : t = { s with
      opState := t.opState, txn := t.txn, inp := t.inp, out := t.out, col := ⟨v, BitVec.ofNat 6 (collPosition v)⟩ }) :
    t.col.pos.toNat = collPosition v
      ∧ t = { s with opState := t.opState, txn := t.txn, inp := t.inp, out := t.out, col := ⟨v, t.col.pos⟩ } := by
  have hcol : t.col.pos = BitVec.ofNat 6 (collPosition v) := by rw [ht]
  rw [hcol]
  exact ⟨toNat_ofNat_collPosition v, ht⟩

/-- Settles O50: the three ends of the step, by the byte read and the position in it. -/
theorem collisionStep : Obligations.CollisionStep := by
  intro s hs
  obtain ⟨r, t, e, hrun, hdid, hsent, hend⟩ := onCollision_run hs
  refine ⟨r, t, e, hrun, hdid.made, hsent, hdid.closed, hdid.inputs, hdid.record, ?_⟩
  simp only [← positionUnknown_iff, ← collPosition_eq]
  by_cases hunknown : positionUnknown e.data = true
  · rw [if_pos hunknown] at hend ⊢
    exact hend
  · rw [if_neg hunknown] at hend ⊢
    by_cases hle : collPosition e.data ≤ s.sel.knownBits.toNat
    · rw [if_pos hle] at hend ⊢
      exact hend.imp_right collPos_of_written
    · rw [if_neg hle] at hend ⊢
      exact hend.imp_right collPos_of_written

end Sys2Proof.Machine
end

section
namespace Sys2Proof.Machine
variable {s t : State} {i : Instr} {r : Nat} {α β : Type}

/-! ### A fatal failure -/

/-- The status flags after a fatal failure of an operation begun in `s` (R278): the sticky flag and a reason; `outcome` and
`present` as they were. -/
def FailedFlags (s t : State) : Prop :=
  ∃ f : FatalReason, f ≠ .none ∧ t.flags = { s.flags with fatal := true, fatalReason := f }

/-- Where the sequence dies from `s`, it leaves these flags. Unlike `Sound`, this asks nothing of `s`. -/
def DiesWithReason (m : Eng α) (s : State) : Prop := Eng.Post m s (fun _ _ => True) fun _ t => FailedFlags s t

/-- A sequence that dies after it wrote none of the flags. -/
theorem DiesWithReason.of_error {m : Eng α} {f : FatalReason} (hm : m.run s = .error f (t.fatalState f))
    (ht : t.flags = s.flags := by rfl) (hf : f ≠ .none := by decide) : DiesWithReason m s :=
  Eng.Post.of_error hm ⟨f, hf, by rw [State.fatalState_flags, ht]⟩

theorem DiesWithReason.of_ok {m : Eng α} {a : α} (hm : m.run s = .ok a t) : DiesWithReason m s := Eng.Post.of_ok hm trivial

/-- A sequence whose first part can die, and whose rest always ends. -/
theorem DiesWithReason.bind {m : Eng α} {f : α → Eng β} (h : DiesWithReason m s)
    (hf : ∀ a t, ∃ b u, (f a).run t = .ok b u) : DiesWithReason (m >>= f) s := by
  refine Eng.Post.bind h fun a t _ => ?_
  obtain ⟨b, u, hb⟩ := hf a t
  exact .of_ok hb trivial

theorem DiesWithReason.setRxb {m : Eng α} {f : α → List Byte} (h : DiesWithReason m s) :
    DiesWithReason (do Machine.setRxb (f (← m))) s := h.bind fun _ _ => ⟨_, _, rfl⟩

theorem DiesAtBegin.diesWithReason {m : Eng α} (h : DiesAtBegin m s) : DiesWithReason m s := by
  obtain ⟨t, hm, ht⟩ := h
  exact .of_error hm (by rw [ht])

/-- A sequence that begins with a register operation: a transaction left open kills it there, with none open it ends. -/
theorem DiesWithReason.of_open_or_ends {m : Eng α} (hopen : s.txn.isOpen = true → DiesAtBegin m s)
    (hends : s.txn.isOpen = false → ∃ a t, m.run s = .ok a t) : DiesWithReason m s := by
  cases ho : s.txn.isOpen with
  | true => exact (hopen ho).diesWithReason
  | false =>
    obtain ⟨a, t, hm⟩ := hends ho
    exact .of_ok hm

theorem begin_diesWithReason (s : State) : DiesWithReason begin_ s :=
  .of_open_or_ends (fun ho => .of_error (begin_open ho)) fun hc => ⟨_, _, begin_closed hc⟩

theorem writeByte_diesWithReason (b : Byte) (s : State) : DiesWithReason (writeByte b) s := by
  cases ho : s.txn.isOpen with
  | false => exact .of_error (writeByte_closed b ho)
  | true =>
    by_cases hp : s.txn.pos.val = 65
    · exact .of_error (writeByte_full b ho hp)
    · exact .of_ok (writeByte_open b ho (by omega))

theorem writeBytes_diesWithReason (bs : List Byte) (s : State) : DiesWithReason (writeBytes bs) s := by
  cases ho : s.txn.isOpen with
  | false => exact .of_error (writeBytes_closed bs ho)
  | true =>
    by_cases hp : 65 < s.txn.pos.val + bs.length
    · exact .of_error (writeBytes_overflow bs ho hp)
    · exact .of_ok (writeBytes_open bs ho (Nat.le_of_not_lt hp))

theorem end_diesWithReason (s : State) : DiesWithReason end_ s := by
  cases ho : s.txn.isOpen with
  | false => exact .of_error (end_closed ho)
  | true => exact .of_ok (end_open ho)

theorem readByte_diesWithReason (s : State) : DiesWithReason readByte s := by
  cases hd : s.txn.done with
  | false => exact .of_error (readByte_early hd)
  | true =>
    by_cases hp : s.txn.pos.val = 0
    · exact .of_error (readByte_empty hd hp)
    · exact .of_ok (readByte_done hd hp)

theorem readBytes_diesWithReason (n : Nat) (s : State) : DiesWithReason (readBytes n) s := by
  cases hd : s.txn.done with
  | false => exact .of_error (readBytes_early n hd)
  | true =>
    by_cases hp : s.txn.pos.val < n
    · exact .of_error (readBytes_tooLong hd hp)
    · exact .of_ok (readBytes_done hd (Nat.le_of_not_lt hp))

theorem regReadN_diesWithReason (a : Addr) (n : Nat) (s : State) : DiesWithReason (regReadN a n) s := by
  by_cases hn : 64 < n
  · exact .of_error (regReadN_overflow a hn)
  · obtain rfl | h0 := Nat.eq_zero_or_pos n
    · exact .of_ok (regReadN_zero a)
    · have h64 : n ≤ 64 := Nat.le_of_not_lt hn
      exact .of_open_or_ends (fun ho => .of_error (regReadN_open a ho h0 h64))
        fun hc => ⟨_, _, regReadN_closed a hc h0 h64⟩

theorem regRead_diesWithReason (a : Addr) (s : State) : DiesWithReason (regRead a) s :=
  (regReadN_diesWithReason a 1 s).bind fun _ _ => ⟨_, _, rfl⟩

theorem regWriteN_diesWithReason (a : Addr) (d : List Byte) (s : State) : DiesWithReason (regWriteN a d) s := by
  by_cases hd : 64 < d.length
  · exact .of_error (regWriteN_overflow a hd)
  · obtain rfl | h0 := eq_or_ne d []
    · exact .of_ok (regWriteN_nil a)
    · have h64 : d.length ≤ 64 := Nat.le_of_not_lt hd
      exact .of_open_or_ends (fun ho => .of_error (regWriteN_open a ho h0 h64))
        fun hc => ⟨_, _, regWriteN_closed a hc h0 h64⟩

theorem regSetBits_diesWithReason (a : Addr) (m : Byte) (s : State) : DiesWithReason (regSetBits a m) s :=
  .of_open_or_ends (fun ho => .of_error (regSetBits_open a m ho)) fun hc => ⟨_, _, regSetBits_closed a m hc⟩

theorem regClearBits_diesWithReason (a : Addr) (m : Byte) (s : State) : DiesWithReason (regClearBits a m) s :=
  .of_open_or_ends (fun ho => .of_error (regClearBits_open a m ho)) fun hc => ⟨_, _, regClearBits_closed a m hc⟩

theorem sendCommand_diesWithReason (cmd : BitVec 4) (s : State) : DiesWithReason (sendCommand cmd) s :=
  .of_open_or_ends (fun ho => .of_error (sendCommand_open cmd ho)) fun hc => ⟨_, _, sendCommand_closed cmd hc⟩

theorem computeCrc_diesWithReason (d : List Byte) (s : State) : DiesWithReason (computeCrc d) s := by
  by_cases hd : 64 < d.length
  · exact .of_error (computeCrc_overflow hd)
  · have h64 : d.length ≤ 64 := Nat.le_of_not_lt hd
    refine .of_open_or_ends (computeCrc_diesAtBegin · h64) fun hc => ?_
    obtain ⟨o, t, x, hrun, -⟩ := computeCrc_run hc h64
    exact ⟨o, t, hrun⟩

/-- `communicate` dies of an entry check, at its first register operation, or of a FIFO level that its receive buffer lets pass
(R166, R172, R316). -/
theorem communicate_diesWithReason (a : CommArgs) (s : State) : DiesWithReason (communicate a) s := by
  cases hcrc : a.checkCrc with
  | true => exact .of_error (communicate_unsupported hcrc)
  | false =>
    by_cases hd : 64 < a.send.length
    · exact .of_error (communicate_overflow hcrc hd)
    · have h64 : a.send.length ≤ 64 := Nat.le_of_not_lt hd
      cases ho : s.txn.isOpen with
      | true => exact (communicate_diesAtBegin ho hcrc h64).diesWithReason
      | false =>
        rcases communicate_run ho hcrc h64 with ⟨o, t, x, data, hrun, -⟩ | ⟨t, x, hrun, hover⟩
        · exact .of_ok hrun
        · exact Eng.Post.of_error hrun ⟨.overflow, by decide, by rw [hover.rest]⟩

theorem shortFrame_diesWithReason (op : BitVec 7) (s : State) : DiesWithReason (shortFrame op) s := by
  refine .of_open_or_ends (shortFrame_diesAtBegin op) fun hc => ?_
  obtain ⟨o, t, x, data, hrun, -⟩ := shortFrame_run op hc
  exact ⟨o, t, hrun⟩

theorem requestOrWakeup_diesWithReason (sel : Bool) (s : State) : DiesWithReason (requestOrWakeup sel) s := by
  refine .of_open_or_ends (requestOrWakeup_diesAtBegin sel) fun hc => ?_
  obtain ⟨o, t, x, hrun, -⟩ := requestOrWakeup_run sel hc
  exact ⟨o, t, hrun⟩

theorem isNewCardPresent_diesWithReason (s : State) : DiesWithReason isNewCardPresent s := by
  refine .of_open_or_ends isNewCardPresent_diesAtBegin fun hc => ?_
  obtain ⟨o, t, u, e1, e2, e3, x, hrun, -⟩ := isNewCardPresent_run hc
  exact ⟨o, _, hrun⟩

theorem select_diesWithReason (kvb : Byte) (s : State) : DiesWithReason (select kvb) s := by
  by_cases hk : 80 < kvb.toNat
  · exact .of_ok (select_invalid hk)
  · have h80 : kvb.toNat ≤ 80 := Nat.le_of_not_lt hk
    refine .of_open_or_ends (select_diesAtBegin · h80) fun hc => ?_
    obtain ⟨o, t, x, l, hrun, -⟩ := select_run hc h80
    exact ⟨o, t, hrun⟩

/-- `read_card_uid` writes `present` after its select, where nothing dies any more (R227). -/
theorem readCardUid_diesWithReason (s : State) : DiesWithReason readCardUid s :=
  (select_diesWithReason 0 s).bind fun _ _ => ⟨_, _, rfl⟩

/-- If `t` is in FATAL, its flags are those of a fatal failure of what was begun in `s`. -/
def FatalHasReason (s t : State) : Prop := t.opState = .fatal → FailedFlags s t

theorem FatalHasReason.of_ne (h : t.opState ≠ .fatal) : FatalHasReason s t := fun ht => absurd ht h

/-- An operation that ends is in IDLE (R270); one that dies leaves what its sequence left. -/
theorem runOp_fatalHasReason {body : Eng Unit} (hi : s.opState = .idle)
    (h : DiesWithReason body { s with opState := .busy i r }) : FatalHasReason s (runOp i r body s) := by
  cases hb : body.run { s with opState := .busy i r } with
  | ok a t =>
    rw [runOp_ok hi hb]
    exact .of_ne nofun
  | error f t =>
    rw [runOp_error hi hb]
    exact fun _ => Eng.Post.error h hb

theorem runProtocol_fatalHasReason {body : Eng OpOutcome} (hi : s.opState = .idle)
    (h : DiesWithReason body { s with opState := .busy i r }) : FatalHasReason s (runProtocol i r body s) :=
  runOp_fatalHasReason hi (h.bind fun _ _ => ⟨_, _, rfl⟩)

/-- Every instruction accepted in IDLE reaches FATAL by a fatal failure of its sequence alone. -/
theorem exec_fatalHasReason (i : Instr) (hi : s.opState = .idle) : ∃ t, exec i s = .next t ∧ FatalHasReason s t := by
  cases i with
  | beginTxn => exact ⟨_, rfl, runOp_fatalHasReason hi (begin_diesWithReason _)⟩
  | writeByte | addrRead | addrWrite => exact ⟨_, rfl, runOp_fatalHasReason hi (writeByte_diesWithReason _ _)⟩
  | writeBytes => exact ⟨_, rfl, runOp_fatalHasReason hi (writeBytes_diesWithReason _ _)⟩
  | endTxn => exact ⟨_, rfl, runOp_fatalHasReason hi (end_diesWithReason _)⟩
  | readByte => exact ⟨_, rfl, runOp_fatalHasReason hi (readByte_diesWithReason _).setRxb⟩
  | readBytes n => exact ⟨_, rfl, runOp_fatalHasReason hi (readBytes_diesWithReason _ _).setRxb⟩
  | regRead a => exact ⟨_, rfl, runOp_fatalHasReason hi (regRead_diesWithReason a _).setRxb⟩
  | regReadN a n => exact ⟨_, rfl, runOp_fatalHasReason hi (regReadN_diesWithReason a _ _).setRxb⟩
  | regWrite a v => exact ⟨_, rfl, runOp_fatalHasReason hi (regWriteN_diesWithReason a [v] _)⟩
  | regWriteN a => exact ⟨_, rfl, runOp_fatalHasReason hi (regWriteN_diesWithReason a _ _)⟩
  | regSetBits a v => exact ⟨_, rfl, runOp_fatalHasReason hi (regSetBits_diesWithReason a v _)⟩
  | regClearBits a v => exact ⟨_, rfl, runOp_fatalHasReason hi (regClearBits_diesWithReason a v _)⟩
  | computeCrc => exact ⟨_, rfl, runProtocol_fatalHasReason hi (computeCrc_diesWithReason _ _)⟩
  | communicate => exact ⟨_, rfl, runProtocol_fatalHasReason hi (communicate_diesWithReason _ _)⟩
  | transceive =>
    -- `transceive` is the `communicate` with the command and the wait mask of R178
    exact ⟨_, rfl, runProtocol_fatalHasReason hi (communicate_diesWithReason (CommArgs.transceive _ _) _)⟩
  | requestOrWakeup sel => exact ⟨_, rfl, runProtocol_fatalHasReason hi (requestOrWakeup_diesWithReason sel _)⟩
  | reqa | wupa => exact ⟨_, rfl, runProtocol_fatalHasReason hi (shortFrame_diesWithReason _ _)⟩
  | isNewCardPresent => exact ⟨_, rfl, runProtocol_fatalHasReason hi (isNewCardPresent_diesWithReason _)⟩
  | select kvb => exact ⟨_, rfl, runProtocol_fatalHasReason hi (select_diesWithReason kvb _)⟩
  | readCardUid => exact ⟨_, rfl, runProtocol_fatalHasReason hi (readCardUid_diesWithReason _)⟩
  | reset => exact ⟨_, exec_reset_accepted (.inl hi), .of_ne nofun⟩
  | teardown => exact ⟨_, congrArg Host.Outcome.next (if_pos hi), .of_ne nofun⟩
  | cmdIdle | cmdMem | cmdGenRandomId | cmdCalcCrc | cmdTransmit | cmdNoCmdChange | cmdReceive | cmdTransceive
  | cmdMfAuthent | cmdSoftReset => exact ⟨_, rfl, runOp_fatalHasReason hi (sendCommand_diesWithReason _ _)⟩
  | selCl1 | selCl2 | selCl3 | cascadeTag | nvbFull | nvbAnticoll => exact ⟨_, rfl, runOp_fatalHasReason hi (.of_ok rfl)⟩

/-- Settles O27: an operation dies of a reason with no other flag written, and FATAL is not IDLE. -/
theorem fatalFailure : Obligations.FatalFailure := by
  intro i s t hi h ht
  obtain ⟨u, hu, hfailed⟩ := exec_fatalHasReason i hi
  obtain rfl := Host.Outcome.next.inj (hu.symm.trans h)
  obtain ⟨f, hf, hflags⟩ := hfailed ht
  rw [hflags]
  exact ⟨rfl, hf, rfl, rfl, fun j hj => requestsOnlyInIdle j u (by rw [ht]; nofun) hj⟩

/-! ### `Invalid` -/

/-- The eleven unassigned values of `op` decode to nothing (R108). -/
theorem decodeOp_unassigned {op : BitVec 5} (h : op.toNat ∈ unassignedOps) (x : BitVec 27) : decodeOp op x = none := by
  unfold decodeOp
  split
  case h_22 => rfl
  all_goals
    rename_i hop
    rw [hop] at h
    exact absurd h (by decide)

/-- Settles O16: `select` returns `Invalid` before it does anything else; the word decodes to nothing, and `Invalid` is the whole
of its effect. -/
theorem invalidRequests : Obligations.InvalidRequests := by
  refine ⟨fun s kvb hi hk => ?_, fun s op x rest hi hop hq => ?_⟩
  · refine congrArg Host.Outcome.next ((runProtocol_ok hi (select_invalid hk)).trans ?_)
    rw [← hi]
  · have hd : decode s.cfg (.host (hostWord op x)) = none := (decodeHost_hostWord op x).trans (decodeOp_unassigned hop x)
    rw [step_of_issue_none hq hd, State.popHost_of_host_cons hq]
    exact congrArg Host.Outcome.next (if_pos hi)

end Sys2Proof.Machine
end

section
namespace Sys2Proof.Machine
variable {s : State}

/-! ### An empty host port, RESET and TEARDOWN -/

/-- Settles O9: the step's case of an empty host port (R313). -/
theorem nothingWithoutARequest : Obligations.NothingWithoutARequest := by
  intro s hq
  simp only [step, hq]

/-- `RESET` is not accepted while an operation runs (R310). -/
theorem exec_reset_busy {i : Instr} {r : Nat} (h : s.opState = .busy i r) : exec .reset s = .next s := by
  simp [exec, execReset, acceptsReset, h]

/-- Settles O18: an accepted RESET is the reset sequence, which writes registers and the two levels on the line. -/
theorem resetPulse : Obligations.ResetPulse := by
  refine ⟨fun s h => ⟨_, exec_reset_accepted h, ?_⟩, fun s i r h => exec_reset_busy h⟩
  rw [State.resetSequence_eq]
  exact ⟨rfl, rfl, rfl⟩

theorem exec_teardown_idle (h : s.opState = .idle) : exec .teardown s = .next { s with opState := .tornDown } :=
  congrArg Host.Outcome.next (if_pos h)

theorem invalidRequest_notIdle (h : s.opState ≠ .idle) : invalidRequest s = s := if_neg h

/-- Outside IDLE a request word that is not `RESET` is taken from the queue and has no effect, whether its `op` is assigned or
not (R108, R315). -/
theorem step_of_host_notIdle {w : HostWord} {rest : List HostAction} (hi : s.opState ≠ .idle)
    (hq : s.inp.host = .issue (.host w) :: rest) (hr : decode s.cfg (.host w) ≠ some .reset) : step s = .next s.popHost := by
  cases hd : decode s.cfg (.host w) with
  | none => exact (step_of_issue_none hq hd).trans (congrArg Host.Outcome.next (invalidRequest_notIdle (s := s.popHost) hi))
  | some i =>
    have hne : i ≠ .reset := fun h => hr (hd.trans (congrArg some h))
    exact (step_of_issue_decode hq hd).trans (requestsOnlyInIdle i s.popHost hi hne)

/-- Settles O19: TORN_DOWN is not IDLE, so only RESET acts there, and the reset sequence ends in IDLE. -/
theorem teardown : Obligations.Teardown := by
  refine ⟨fun s => exec_teardown_idle, fun s w rest ht hq hr => ?_, fun s ht => ?_⟩
  · have hi : s.opState ≠ .idle := by rw [ht]; nofun
    rw [step_of_host_notIdle hi hq hr, State.popHost_of_host_cons hq]
  · exact ⟨_, exec_reset_accepted (.inr (.inr ht)), rfl⟩

end Sys2Proof.Machine
end
